-- ==== Sys2Proof/Word.lean ====
section
/-! DEFINITION. Words, bytes, and the names of directions and memories (rules R5, R6, R8).
Every register, packet word and result word is `W = 32` bits (R5, R42); memories hold bytes (R45). -/

namespace Sys2Proof

/-- A W-bit word, `W = 32` (rule R5): registers, packet words, result words, unit handles. -/
abbrev Word := BitVec 32

/-- One byte of a ring memory, a unit memory or an argument string (rules R28, R29, R31). -/
abbrev Byte := BitVec 8

/-- The direction of a half: `rx` (= 0) is capture, `tx` (= 1) is playback (rule R6). -/
inductive Dir where
  | rx
  | tx
deriving DecidableEq, Repr

/-- The memories of rule R8: `Ring[c,d]`, the ring memory of a half, and `Unit[u]`, the bytes of the
transfer unit with handle `u`. -/
inductive Space where
  | ring (c : Nat) (d : Dir)
  | unit (handle : Word)
deriving DecidableEq, Repr

end Sys2Proof
end

