-- ==== Sys2Proof/Config.lean ====
section
/-! DEFINITION. The parameters of rule R5 and the values the spec leaves free.
The free values are opaque constants: no proof can see what they are. -/

namespace Sys2Proof.Config

/-- What a ring byte the client never wrote, or a unit byte the bus layer never wrote, reads as:
"an arbitrary value that is fixed for the run" (rule R172, U8). Log entry 1. -/
opaque unwrittenByte : Space → Nat → Byte

/-- The answer of the `k`-th `START_CHANNEL` for which no answer was supplied as an input: "the
answer is the environment's free choice" at every call (rule R33, U6). Log entry 2. -/
opaque startAnswer : Nat → Bool

/-- `N_CH` of the machine that `State.reset` builds (DESIGN CHOICE, log entry 3: the value the
spec's own programs use; the rules hold for every `N_CH`, which a state carries as the length of its
channel list). -/
def nCh : Nat := 2

/-- `PERIOD_MAX` of the machine that `State.reset` builds (DESIGN CHOICE, log entry 4: the value
the spec's own programs use; a state carries the parameter in `State.periodMax`). -/
def periodMax : Word := 0x10000

/-- `PPX_DEFAULT = 255`, the reset value of `packets_per_xact` (rules R5, R27). -/
def ppxDefault : Word := 255

/-- `BUFSZ_UNSET = -1`, the "unset" sentinel of `buffer_size` (rules R5, R27). -/
def bufszUnset : Word := 0xFFFFFFFF

end Sys2Proof.Config
end

