-- ==== Sys2Proof/Syntax.lean ====
section
/-! DEFINITION. The operations of the core: one constructor of `Instr` for each row of
`spec/opcode_table.json` (rules R62, R64, R65, R67, R68), their operands, and the coded forms in which
they reach the core (packets on a port, rule R60, and the values of the selector registers, rule R68). -/

namespace Sys2Proof

/-- The word `IFID` taken apart: `[31:16]` the interface handle, `[15:0]` the bus channel id
(rules R65, R23). -/
structure IfId where
  ifh : BitVec 16
  id : BitVec 16
deriving DecidableEq, Repr

/-- The negotiated byte order of the client's samples, `NEG_FMT[24]` (rules R22, R41). -/
inductive Endian where
  | little
  | big
deriving DecidableEq, Repr

/-- The word `P[0]` of `HW_PARAMS`, which is also the layout of `NEG_FMT` (rules R63, R22). -/
structure Fmt where
  channels : BitVec 16
  width : BitVec 8
  endian : Endian
deriving DecidableEq, Repr

/-- A word with `[15:0]` = minimum and `[31:16]` = maximum channel count: `CFG_CH`, `ENV_CH` and
`P[3]` of `CONNECT` (rules R23, R24, R66). -/
structure ChBounds where
  lo : BitVec 16
  hi : BitVec 16
deriving DecidableEq, Repr

/-- The record `cfg` of `CONNECT` (rules R66, R130). -/
structure BusCfg where
  dir : Dir
  rate : Word
  ch : ChBounds
deriving DecidableEq, Repr

/-- A (memory, offset) pair, the operand of a `CVT` micro-operation (rule R67). -/
structure MemRef where
  space : Space
  off : Nat
deriving DecidableEq, Repr

/-- The registers of a half that `RDREG` reads, in the order of their indices 0 to 17 (rule R12). -/
inductive Reg where
  | lstate
  | flags
  | codec
  | frameBytes
  | bufPos
  | perPos
  | ringFrames
  | periodFrames
  | ringHandle
  | negFmt
  | bind
  | envRate
  | envCh
  | envSizeMax
  | lphase
  | lunit
  | cfgRate
  | cfgCh
deriving DecidableEq, Repr

/-- One constructor per row of `spec/opcode_table.json`. A channel index is a natural number below
`N_CH`; `Instr.wf` says so. -/
inductive Instr where
  /-- `OPEN c, d` (R101) -/
  | openHalf (c : Nat) (d : Dir)
  /-- `HW_PARAMS c, d, fmt, ring_frames, period_frames, ring_handle` (R102) -/
  | hwParams (c : Nat) (d : Dir) (fmt : Fmt) (ringFrames periodFrames ringHandle : Word)
  /-- `HW_FREE c, d` (R103) -/
  | hwFree (c : Nat) (d : Dir)
  /-- `PREPARE c, d` (R104) -/
  | prepare (c : Nat) (d : Dir)
  /-- `TRIGGER_START c, d` (R105) -/
  | triggerStart (c : Nat) (d : Dir)
  /-- `TRIGGER_STOP c, d` (R106) -/
  | triggerStop (c : Nat) (d : Dir)
  /-- `CLOSE c, d` (R107) -/
  | closeHalf (c : Nat) (d : Dir)
  /-- `POINTER c, d` (R109) -/
  | pointer (c : Nat) (d : Dir)
  /-- `RDREG c, d, idx` (R110) -/
  | rdreg (c : Nat) (d : Dir) (reg : Reg)
  /-- `RD_PPX c` (R140) -/
  | rdPpx (c : Nat)
  /-- `WR_PPX c, v` (R141) -/
  | wrPpx (c : Nat) (v : Word)
  /-- `RD_BUFSZ c` (R142) -/
  | rdBufsz (c : Nat)
  /-- `WR_BUFSZ c, v` (R143) -/
  | wrBufsz (c : Nat) (v : Word)
  /-- `CONNECT if, id, cfg, args` (R130) -/
  | connect (ifid : IfId) (cfg : BusCfg) (args : List Byte)
  /-- `DISCONNECT if, id` (R132) -/
  | disconnect (ifid : IfId)
  /-- `RX_COMPLETE u` (R133) -/
  | rxComplete (u : Word)
  /-- `TX_SLOT_FREE if, id` (R134) -/
  | txSlotFree (ifid : IfId)
  /-- `COPY_FRAMES c, d, u, n` (R90) -/
  | copyFrames (c : Nat) (d : Dir) (u : Word) (n : Word)
  /-- `CVT.COPY dst, src, n` (R81) -/
  | cvtCopy (dst src : MemRef) (n : Nat)
  /-- `CVT.SWAP16 dst, src, n` (R82) -/
  | cvtSwap16 (dst src : MemRef) (n : Nat)
  /-- `CVT.SWAP24 dst, src, n` (R83) -/
  | cvtSwap24 (dst src : MemRef) (n : Nat)
  /-- `CVT.SWAP32 dst, src, n` (R84) -/
  | cvtSwap32 (dst src : MemRef) (n : Nat)
  /-- `SL.WAIT c` (R121) -/
  | slWait (c : Nat)
  /-- `SL.FILL c` (R122) -/
  | slFill (c : Nat)
  /-- `SL.SUBMIT c` (R123) -/
  | slSubmit (c : Nat)
  /-- `SL.NOTIFY c` (R124) -/
  | slNotify (c : Nat)
  /-- `CL.FINISH c, d` (R108) -/
  | clFinish (c : Nat) (d : Dir)
deriving DecidableEq, Repr

/-- The three ports of rule R60. -/
inductive Port where
  | client
  | bus
  | internal
deriving DecidableEq, Repr

/-- The operands of a `CVT` micro-operation, which have "no word encoding" (rule R67): they travel
beside the header word. -/
structure CvtRefs where
  dst : MemRef
  src : MemRef
  n : Nat
deriving DecidableEq, Repr

/-- A packet: the header word and the operand words `P[0], P[1], ...` (rule R60), and for the `CVT`
micro-operations their operands. -/
structure Packet where
  words : List Word
  refs : Option CvtRefs
deriving DecidableEq, Repr

/-- What selects an operation: a packet on a port (rule R60), the value of `LPHASE[c]`, or the value
of `LSTATE[c,d]` (rule R68). -/
inductive Code where
  | packet (port : Port) (p : Packet)
  | lphase (c : Nat) (v : Word)
  | lstate (c : Nat) (d : Dir) (v : Word)
deriving DecidableEq, Repr

end Sys2Proof
end

