-- ==== Sys2Proof/WellFormed.lean ====
section
/-! DEFINITION. Which terms of `Instr` an encoding can carry, for a core with `nCh` Channels. -/

namespace Sys2Proof

/-- `1 ≤ N_CH ≤ 256` (rule R5). -/
abbrev validNCh (nCh : Nat) : Prop := 1 ≤ nCh ∧ nCh ≤ 256

/-- The ring memories of rule R28 are those of existing Channels; a unit may have any handle. -/
def Space.wf (nCh : Nat) : Space → Bool
  | .ring c _ => decide (c < nCh)
  | .unit _ => true

/-- "one is a ring memory, the other a unit memory" (rule R80). -/
def Space.ringAndUnit : Space → Space → Bool
  | .ring _ _, .unit _ => true
  | .unit _, .ring _ _ => true
  | .ring _ _, .ring _ _ => false
  | .unit _, .unit _ => false

/-- The operands of a `CVT` micro-operation: existing memories of different kinds (rules R67, R80).
Any byte count is well formed: one that is no multiple of the group size is a fault (R87). -/
def cvtWf (nCh : Nat) (dst src : MemRef) : Bool :=
  dst.space.wf nCh && src.space.wf nCh && Space.ringAndUnit dst.space src.space

/-- The operand limits of rules R12, R31 and R71: `ch < N_CH`, `L ≤ 255`, and `cvtWf`. -/
def Instr.wf (nCh : Nat) : Instr → Bool
  | .openHalf c _ => decide (c < nCh)
  | .hwParams c _ _ _ _ _ => decide (c < nCh)
  | .hwFree c _ => decide (c < nCh)
  | .prepare c _ => decide (c < nCh)
  | .triggerStart c _ => decide (c < nCh)
  | .triggerStop c _ => decide (c < nCh)
  | .closeHalf c _ => decide (c < nCh)
  | .pointer c _ => decide (c < nCh)
  | .rdreg c _ _ => decide (c < nCh)
  | .rdPpx c => decide (c < nCh)
  | .wrPpx c _ => decide (c < nCh)
  | .rdBufsz c => decide (c < nCh)
  | .wrBufsz c _ => decide (c < nCh)
  | .connect _ _ args => decide (args.length ≤ 255)
  | .disconnect _ => true
  | .rxComplete _ => true
  | .txSlotFree _ => true
  | .copyFrames c _ _ _ => decide (c < nCh)
  | .cvtCopy dst src _ => cvtWf nCh dst src
  | .cvtSwap16 dst src _ => cvtWf nCh dst src
  | .cvtSwap24 dst src _ => cvtWf nCh dst src
  | .cvtSwap32 dst src _ => cvtWf nCh dst src
  | .slWait c => decide (c < nCh)
  | .slFill c => decide (c < nCh)
  | .slSubmit c => decide (c < nCh)
  | .slNotify c => decide (c < nCh)
  | .clFinish c _ => decide (c < nCh)

end Sys2Proof
end

