-- ==== Sys2Proof/Decode.lean ====
section
/-! DEFINITION. Decoding of packets and selector registers (rules R60 to R76), total on any words and
rejecting by name, and the encoder written from the same tables. -/

namespace Sys2Proof

/-- Why a coded form selects no operation. For a packet every reason makes it illegal (rule R71); for a
selector register (rule R68) it says that no step is selected. -/
inductive DecodeError where
  /-- a packet without a header word (rule R60 gives every packet one) -/
  | noHeader
  /-- `op` is in no table (R71: "reserved and illegal") -/
  | reservedOpcode
  /-- the packet arrived on a port other than its table's (R71) -/
  | wrongPort
  /-- `H & mask ≠ match` (R71) -/
  | headerBits
  /-- `ch ≥ N_CH` for an opcode that addresses a Channel (R71) -/
  | noChannel
  /-- `idx > 17` for `RDREG` (R71) -/
  | noRegister
  /-- a must-be-zero operand bit is 1 (R71) -/
  | operandBits
  /-- not as many operand words as the opcode has (R72) -/
  | packetLength
  /-- a `CVT` header without its operands, or another header with them (R67) -/
  | cvtOperands
  /-- the selector register holds a value that selects no step (R68, U15) -/
  | noStep
deriving DecidableEq, Repr

/-- The opcodes of the packet tables (rules R62, R64, R65, R67). -/
inductive Op where
  | openHalf
  | hwParams
  | hwFree
  | prepare
  | triggerStart
  | triggerStop
  | closeHalf
  | pointer
  | rdreg
  | rdPpx
  | wrPpx
  | rdBufsz
  | wrBufsz
  | connect
  | disconnect
  | rxComplete
  | txSlotFree
  | copyFrames
  | cvtCopy
  | cvtSwap16
  | cvtSwap24
  | cvtSwap32
deriving DecidableEq, Repr

/-- The `op` column of the tables (rules R62, R64, R65, R67). -/
def Op.code : Op → BitVec 8
  | .openHalf => 0x01
  | .hwParams => 0x02
  | .hwFree => 0x03
  | .prepare => 0x04
  | .triggerStart => 0x05
  | .triggerStop => 0x06
  | .closeHalf => 0x07
  | .pointer => 0x08
  | .rdreg => 0x09
  | .rdPpx => 0x10
  | .wrPpx => 0x11
  | .rdBufsz => 0x12
  | .wrBufsz => 0x13
  | .connect => 0x20
  | .disconnect => 0x21
  | .rxComplete => 0x22
  | .txSlotFree => 0x23
  | .copyFrames => 0x40
  | .cvtCopy => 0x50
  | .cvtSwap16 => 0x51
  | .cvtSwap24 => 0x52
  | .cvtSwap32 => 0x53

/-- The opcode with a given `op` field; every other value is reserved (rule R71). -/
def Op.ofCode (b : BitVec 8) : Option Op :=
  match b.toNat with
  | 0x01 => some .openHalf
  | 0x02 => some .hwParams
  | 0x03 => some .hwFree
  | 0x04 => some .prepare
  | 0x05 => some .triggerStart
  | 0x06 => some .triggerStop
  | 0x07 => some .closeHalf
  | 0x08 => some .pointer
  | 0x09 => some .rdreg
  | 0x10 => some .rdPpx
  | 0x11 => some .wrPpx
  | 0x12 => some .rdBufsz
  | 0x13 => some .wrBufsz
  | 0x20 => some .connect
  | 0x21 => some .disconnect
  | 0x22 => some .rxComplete
  | 0x23 => some .txSlotFree
  | 0x40 => some .copyFrames
  | 0x50 => some .cvtCopy
  | 0x51 => some .cvtSwap16
  | 0x52 => some .cvtSwap24
  | 0x53 => some .cvtSwap32
  | _ => none

/-- The port each opcode belongs to (rules R60, R75). -/
def Op.port : Op → Port
  | .openHalf | .hwParams | .hwFree | .prepare | .triggerStart | .triggerStop | .closeHalf
  | .pointer | .rdreg | .rdPpx | .wrPpx | .rdBufsz | .wrBufsz => .client
  | .connect | .disconnect | .rxComplete | .txSlotFree => .bus
  | .copyFrames | .cvtCopy | .cvtSwap16 | .cvtSwap24 | .cvtSwap32 => .internal

/-- The `mask` column of the tables: which header bits are fixed (rules R61, R62, R64, R65, R67). -/
def Op.mask : Op → Word
  | .openHalf | .hwParams | .hwFree | .prepare | .triggerStart | .triggerStop | .closeHalf
  | .pointer | .copyFrames => 0xFF007FFF
  | .rdreg => 0xFF007F00
  | .rdPpx | .wrPpx | .rdBufsz | .wrBufsz => 0xFF00FFFF
  | .connect | .disconnect | .rxComplete | .txSlotFree
  | .cvtCopy | .cvtSwap16 | .cvtSwap24 | .cvtSwap32 => 0xFFFFFFFF

/-- The `match` column of the tables: the opcode in `[31:24]`, zeros elsewhere. -/
def Op.mat (op : Op) : Word := op.code ++ (0 : BitVec 24)

/-- Header fields of rule R61. -/
def headerOp (h : Word) : BitVec 8 := h.extractLsb' 24 8

def headerCh (h : Word) : BitVec 8 := h.extractLsb' 16 8

def headerDir (h : Word) : Dir := if h.getLsbD 15 then .tx else .rx

def headerIdx (h : Word) : BitVec 8 := h.extractLsb' 0 8

/-- `dir` as a bit: 0 = RX capture, 1 = TX playback (rule R61). -/
def Dir.bit : Dir → BitVec 1
  | .rx => 0
  | .tx => 1

/-- The header word of rule R61: `op ++ ch ++ dir ++ 0000000 ++ idx`. -/
def header (op : Op) (c : Nat) (d : Dir) (idx : BitVec 8) : Word :=
  op.code ++ (BitVec.ofNat 8 c ++ (d.bit ++ ((0 : BitVec 7) ++ idx)))

/-- The register with a given index (rule R12); above 17 there is none (rule R71). -/
def Reg.ofIdx (b : BitVec 8) : Option Reg :=
  match b.toNat with
  | 0 => some .lstate
  | 1 => some .flags
  | 2 => some .codec
  | 3 => some .frameBytes
  | 4 => some .bufPos
  | 5 => some .perPos
  | 6 => some .ringFrames
  | 7 => some .periodFrames
  | 8 => some .ringHandle
  | 9 => some .negFmt
  | 10 => some .bind
  | 11 => some .envRate
  | 12 => some .envCh
  | 13 => some .envSizeMax
  | 14 => some .lphase
  | 15 => some .lunit
  | 16 => some .cfgRate
  | 17 => some .cfgCh
  | _ => none

/-- The index of a register (rule R12). -/
def Reg.idx : Reg → BitVec 8
  | .lstate => 0
  | .flags => 1
  | .codec => 2
  | .frameBytes => 3
  | .bufPos => 4
  | .perPos => 5
  | .ringFrames => 6
  | .periodFrames => 7
  | .ringHandle => 8
  | .negFmt => 9
  | .bind => 10
  | .envRate => 11
  | .envCh => 12
  | .envSizeMax => 13
  | .lphase => 14
  | .lunit => 15
  | .cfgRate => 16
  | .cfgCh => 17

/-- `IFID`: `[31:16]` interface handle, `[15:0]` bus channel id (rule R65). -/
def IfId.toWord (x : IfId) : Word := x.ifh ++ x.id

def IfId.ofWord (w : Word) : IfId := ⟨w.extractLsb' 16 16, w.extractLsb' 0 16⟩

/-- `[15:0]` = minimum, `[31:16]` = maximum (rules R23, R66). -/
def ChBounds.toWord (x : ChBounds) : Word := x.hi ++ x.lo

def ChBounds.ofWord (w : Word) : ChBounds := ⟨w.extractLsb' 0 16, w.extractLsb' 16 16⟩

/-- `endian`: 0 little, 1 big (rule R63). -/
def Endian.bit : Endian → BitVec 1
  | .little => 0
  | .big => 1

/-- `P[0]` of `HW_PARAMS`: `[31:25]` zero, `[24]` endian, `[23:16]` width, `[15:0]` channels
(rule R63). -/
def Fmt.toWord (x : Fmt) : Word :=
  (0 : BitVec 7) ++ (x.endian.bit ++ (x.width ++ x.channels))

def Fmt.ofWord (w : Word) : Fmt :=
  ⟨w.extractLsb' 0 16, w.extractLsb' 16 8, if w.getLsbD 24 then .big else .little⟩

/-- The bytes of an operand word in the order of the argument string: byte `args[k]` at bits
`[8*(k mod 4)+7 : 8*(k mod 4)]` (rules R42, R66). -/
def wordBytes (w : Word) : List Byte :=
  [w.extractLsb' 0 8, w.extractLsb' 8 8, w.extractLsb' 16 8, w.extractLsb' 24 8]

/-- The bytes of consecutive operand words. -/
def unpackArgs : List Word → List Byte
  | [] => []
  | w :: ws => wordBytes w ++ unpackArgs ws

/-- One operand word from four bytes, the first in the low byte. -/
def packWord (b0 b1 b2 b3 : Byte) : Word := b3 ++ (b2 ++ (b1 ++ b0))

/-- The argument string packed into `ceil(L/4)` words, unused high bytes 0 (rule R66). -/
def packArgs : List Byte → List Word
  | [] => []
  | [b0] => [packWord b0 0 0 0]
  | [b0, b1] => [packWord b0 b1 0 0]
  | [b0, b1, b2] => [packWord b0 b1 b2 0]
  | b0 :: b1 :: b2 :: b3 :: rest => packWord b0 b1 b2 b3 :: packArgs rest

/-- `CONNECT`'s operand words (rule R66). -/
def decodeConnect (p0 p1 p2 p3 p4 : Word) (ws : List Word) : Except DecodeError Instr :=
  if p1.extractLsb' 1 31 ≠ 0 ∨ p4.extractLsb' 8 24 ≠ 0 then .error .operandBits
  else if ws.length ≠ (p4.toNat + 3) / 4 then .error .packetLength
  else if ((unpackArgs ws).drop p4.toNat).any (fun b => b != 0) then .error .operandBits
  else
    .ok (.connect (IfId.ofWord p0)
      ⟨if p1.getLsbD 0 then .tx else .rx, p2, ChBounds.ofWord p3⟩
      ((unpackArgs ws).take p4.toNat))

/-- A `CVT` micro-operation takes its operands from beside the words (rule R67). -/
def decodeCvt (mk : MemRef → MemRef → Nat → Instr) : Option CvtRefs → Except DecodeError Instr
  | none => .error .cvtOperands
  | some r => .ok (mk r.dst r.src r.n)

/-- An operation without operand words (rule R72). -/
def noOperand (i : Instr) : List Word → Except DecodeError Instr
  | [] => .ok i
  | _ :: _ => .error .packetLength

/-- An operation with one operand word (rule R72). -/
def oneOperand (mk : Word → Instr) : List Word → Except DecodeError Instr
  | [p0] => .ok (mk p0)
  | _ => .error .packetLength

/-- The operand words of each opcode (rules R62 to R67, R72), for a header that has been accepted. -/
def decodeOperands (op : Op) (h : Word) (ps : List Word) (refs : Option CvtRefs) :
    Except DecodeError Instr :=
  let c := (headerCh h).toNat
  let d := headerDir h
  match op with
  | .openHalf => noOperand (.openHalf c d) ps
  | .hwParams =>
    match ps with
    | [p0, p1, p2, p3] =>
      if p0.extractLsb' 25 7 ≠ 0 then .error .operandBits
      else .ok (.hwParams c d (Fmt.ofWord p0) p1 p2 p3)
    | _ => .error .packetLength
  | .hwFree => noOperand (.hwFree c d) ps
  | .prepare => noOperand (.prepare c d) ps
  | .triggerStart => noOperand (.triggerStart c d) ps
  | .triggerStop => noOperand (.triggerStop c d) ps
  | .closeHalf => noOperand (.closeHalf c d) ps
  | .pointer => noOperand (.pointer c d) ps
  | .rdreg =>
    match Reg.ofIdx (headerIdx h) with
    | some r => noOperand (.rdreg c d r) ps
    | none => .error .noRegister
  | .rdPpx => noOperand (.rdPpx c) ps
  | .wrPpx => oneOperand (.wrPpx c) ps
  | .rdBufsz => noOperand (.rdBufsz c) ps
  | .wrBufsz => oneOperand (.wrBufsz c) ps
  | .connect =>
    match ps with
    | p0 :: p1 :: p2 :: p3 :: p4 :: ws => decodeConnect p0 p1 p2 p3 p4 ws
    | _ => .error .packetLength
  | .disconnect => oneOperand (fun p => .disconnect (IfId.ofWord p)) ps
  | .rxComplete => oneOperand .rxComplete ps
  | .txSlotFree => oneOperand (fun p => .txSlotFree (IfId.ofWord p)) ps
  | .copyFrames =>
    match ps with
    | [p0, p1] => .ok (.copyFrames c d p0 p1)
    | _ => .error .packetLength
  | .cvtCopy => if ps = [] then decodeCvt .cvtCopy refs else .error .packetLength
  | .cvtSwap16 => if ps = [] then decodeCvt .cvtSwap16 refs else .error .packetLength
  | .cvtSwap24 => if ps = [] then decodeCvt .cvtSwap24 refs else .error .packetLength
  | .cvtSwap32 => if ps = [] then decodeCvt .cvtSwap32 refs else .error .packetLength

/-- Whether `op` is one of the four codec micro-operations (`op[7:2] = 0b010100`, rule R67). -/
def Op.isCvt : Op → Bool
  | .cvtCopy | .cvtSwap16 | .cvtSwap24 | .cvtSwap32 => true
  | .openHalf | .hwParams | .hwFree | .prepare | .triggerStart | .triggerStop | .closeHalf
  | .pointer | .rdreg | .rdPpx | .wrPpx | .rdBufsz | .wrBufsz
  | .connect | .disconnect | .rxComplete | .txSlotFree | .copyFrames => false

/-- The checks of rule R71 on a packet. A header field that an opcode does not use is 0 under the
opcode's mask, so the bound on `ch` is asked of every opcode. -/
def decodePacket (nCh : Nat) (port : Port) (p : Packet) : Except DecodeError Instr :=
  match p.words with
  | [] => .error .noHeader
  | h :: ps =>
    match Op.ofCode (headerOp h) with
    | none => .error .reservedOpcode
    | some op =>
      if op.port ≠ port then .error .wrongPort
      else if h &&& op.mask ≠ op.mat then .error .headerBits
      else if nCh ≤ (headerCh h).toNat then .error .noChannel
      else if p.refs.isSome ≠ op.isCvt then .error .cvtOperands
      else decodeOperands op h ps p.refs

/-- The steps of a Supply Loop, selected by `LPHASE[2:0]` (rule R68). -/
def decodePhase (c : Nat) (v : Word) : Except DecodeError Instr :=
  match (v &&& 7).toNat with
  | 1 => .ok (.slWait c)
  | 2 => .ok (.slFill c)
  | 3 => .ok (.slSubmit c)
  | 4 => .ok (.slNotify c)
  | _ => .error .noStep

/-- The close completion, selected by `LSTATE[2:0] = 5` (rule R68). -/
def decodeState (c : Nat) (d : Dir) (v : Word) : Except DecodeError Instr :=
  if v &&& 7 = 5 then .ok (.clFinish c d) else .error .noStep

/-- Decoding, total on every coded form, for a core with `nCh` Channels. -/
def decode (nCh : Nat) : Code → Except DecodeError Instr
  | .packet port p => decodePacket nCh port p
  | .lphase c v => if c < nCh then decodePhase c v else .error .noChannel
  | .lstate c d v => if c < nCh then decodeState c d v else .error .noChannel

/-- The packet of an opcode with header fields and operand words. -/
def packetOf (op : Op) (c : Nat) (d : Dir) (idx : BitVec 8) (ps : List Word) : Code :=
  .packet op.port ⟨header op c d idx :: ps, none⟩

/-- The packet of a codec micro-operation (rule R67). -/
def cvtPacket (op : Op) (dst src : MemRef) (n : Nat) : Code :=
  .packet op.port ⟨[header op 0 .rx 0], some ⟨dst, src, n⟩⟩

/-- The encoder: the packet of an operation, or the selector value of a step (rules R61 to R68). -/
def encode : Instr → Code
  | .openHalf c d => packetOf .openHalf c d 0 []
  | .hwParams c d fmt rf pf rh => packetOf .hwParams c d 0 [fmt.toWord, rf, pf, rh]
  | .hwFree c d => packetOf .hwFree c d 0 []
  | .prepare c d => packetOf .prepare c d 0 []
  | .triggerStart c d => packetOf .triggerStart c d 0 []
  | .triggerStop c d => packetOf .triggerStop c d 0 []
  | .closeHalf c d => packetOf .closeHalf c d 0 []
  | .pointer c d => packetOf .pointer c d 0 []
  | .rdreg c d r => packetOf .rdreg c d r.idx []
  | .rdPpx c => packetOf .rdPpx c .rx 0 []
  | .wrPpx c v => packetOf .wrPpx c .rx 0 [v]
  | .rdBufsz c => packetOf .rdBufsz c .rx 0 []
  | .wrBufsz c v => packetOf .wrBufsz c .rx 0 [v]
  | .connect ifid cfg args =>
    packetOf .connect 0 .rx 0
      (ifid.toWord :: cfg.dir.bit.setWidth 32 :: cfg.rate :: cfg.ch.toWord ::
        BitVec.ofNat 32 args.length :: packArgs args)
  | .disconnect ifid => packetOf .disconnect 0 .rx 0 [ifid.toWord]
  | .rxComplete u => packetOf .rxComplete 0 .rx 0 [u]
  | .txSlotFree ifid => packetOf .txSlotFree 0 .rx 0 [ifid.toWord]
  | .copyFrames c d u n => packetOf .copyFrames c d 0 [u, n]
  | .cvtCopy dst src n => cvtPacket .cvtCopy dst src n
  | .cvtSwap16 dst src n => cvtPacket .cvtSwap16 dst src n
  | .cvtSwap24 dst src n => cvtPacket .cvtSwap24 dst src n
  | .cvtSwap32 dst src n => cvtPacket .cvtSwap32 dst src n
  | .slWait c => .lphase c 1
  | .slFill c => .lphase c 2
  | .slSubmit c => .lphase c 3
  | .slNotify c => .lphase c 4
  | .clFinish c d => .lstate c d 5

/-- How many operand words an opcode has, for an operand area `w` (rule R72): fixed, but for
`CONNECT`, which has `5 + ceil(P[4]/4)`. -/
def Op.operandWords (op : Op) (p4 : Nat) : Nat :=
  match op with
  | .openHalf | .hwFree | .prepare | .triggerStart | .triggerStop | .closeHalf | .pointer | .rdreg
  | .rdPpx | .rdBufsz | .cvtCopy | .cvtSwap16 | .cvtSwap24 | .cvtSwap32 => 0
  | .wrPpx | .wrBufsz | .disconnect | .rxComplete | .txSlotFree => 1
  | .copyFrames => 2
  | .hwParams => 4
  | .connect => 5 + (p4 + 3) / 4

/-- Word `k` of a number laid out with its first word in bits 31..0. -/
def wordAt (w k : Nat) : Word := BitVec.ofNat 32 (w >>> (32 * k))

/-- The operands a `CVT` header of the opcode table stands for when it is given alone: every operand
at zero, the destination the unit with handle 0 and the source the ring memory of half (0, RX). -/
def zeroRefs : CvtRefs := ⟨⟨.unit 0, 0⟩, ⟨.ring 0 .rx, 0⟩, 0⟩

/-- The coded form with the bits `w`, numbered as `spec/opcode_table.json` numbers them. A row of
format `LPHASE` or `LSTATE` gives a 3-bit register value (rule R76), so a number below 8 is the value
of a selector register of Channel 0 (no header word is below 8: opcode 0x00 is reserved); any other
number is a packet, on the port of its opcode, with the operand words the opcode has. -/
def tableCode (nbits w : Nat) : Code :=
  let w := w % 2 ^ nbits
  if w = 5 then .lstate 0 .rx 5
  else if w < 8 then .lphase 0 (BitVec.ofNat 32 w)
  else
    match Op.ofCode (headerOp (wordAt w 0)) with
    | none => .packet .client ⟨[wordAt w 0], none⟩
    | some op =>
      .packet op.port
        ⟨(List.range (1 + op.operandWords ((wordAt w 5).toNat % 256))).map (wordAt w),
          if op.isCvt then some zeroRefs else none⟩

/-- The instruction the decoder reads from an instruction whose bits are `w`, for the machine that
`State.reset` builds. -/
def decodeTableWord (nbits w : Nat) : Option Instr :=
  match decode Config.nCh (tableCode nbits w) with
  | .ok i => some i
  | .error _ => none

end Sys2Proof
end

