-- ==== Sys2Proof/Machine/State.lean ====
section
/-! DEFINITION. The state of the core and of the environment its rules mention (10_state.md), as plain
data, the reasons a step can stop, and the state after reset (rules R170 to R172). -/

namespace Sys2Proof.Machine

/-- The lifecycle states of a half; `LSTATE` 6 and 7 are never written (rule R13). -/
inductive LState where
  | closed
  | opened
  | prepared
  | running
  | stopped
  | closing
deriving DecidableEq, Repr

/-- The phases of a Supply Loop; `LPHASE` 5 to 7 are never written (rule R25). -/
inductive LPhase where
  | idle
  | wait
  | fill
  | submit
  | notify
deriving DecidableEq, Repr

/-- The values of `CODEC` (rule R18). -/
inductive Codec where
  | copy
  | swap16
  | swap24
  | swap32
deriving DecidableEq, Repr

/-- A byte memory: the written bytes, as (offset, byte) pairs with offsets strictly rising
(`Memory.wf`). What an unlisted offset reads as is `Memory.read`'s to say. -/
abbrev Memory := List Host.Cell

/-- The registers of one half that both directions have, indices 0 to 13, 16 and 17 of rule R12, and
its ring memory (rule R28). `SUBSTREAM` is computed (rule R17). -/
structure Half where
  /-- `LSTATE` (R13) -/
  lstate : LState
  /-- `RUNNING` (R15) -/
  running : Bool
  /-- `STARTED` (R16) -/
  started : Bool
  /-- `BOUND` (R17) -/
  bound : Bool
  /-- `RING_ALLOC` (R17) -/
  ringAlloc : Bool
  /-- `CODEC_VALID` (R17) -/
  codecValid : Bool
  /-- `CODEC` (R18) -/
  codec : Codec
  /-- `FRAME_BYTES` (R19) -/
  frameBytes : Word
  /-- `BUFPOS` (R20) -/
  bufPos : Word
  /-- `PERPOS` (R21) -/
  perPos : Word
  /-- `RING_FRAMES` (R22) -/
  ringFrames : Word
  /-- `PERIOD_FRAMES` (R22) -/
  periodFrames : Word
  /-- `RING_HANDLE` (R22) -/
  ringHandle : Word
  /-- `NEG_FMT` (R22) -/
  negFmt : Fmt
  /-- `BIND` (R23) -/
  bind : IfId
  /-- `ENV_RATE` (R24) -/
  envRate : Word
  /-- `ENV_CH` (R24) -/
  envCh : ChBounds
  /-- `ENV_SIZE_MAX` (R24) -/
  envSizeMax : Word
  /-- `CFG_RATE` (R23) -/
  cfgRate : Word
  /-- `CFG_CH` (R23) -/
  cfgCh : ChBounds
  /-- `Ring[c,d]` (R28) -/
  ring : Memory
deriving DecidableEq, Repr

/-- The Supply Loop of a Channel: what only a TX half has (rules R25, R26, R17). -/
structure Loop where
  /-- `LPHASE` (R25) -/
  phase : LPhase
  /-- `LUNIT` (R26) -/
  lunit : Word
  /-- `STOP_REQ` (R17) -/
  stopReq : Bool
  /-- `PE` (R17) -/
  pe : Bool
deriving DecidableEq, Repr

/-- One Channel: two halves, the Supply Loop of the TX half, and the two tunables (rules R12, R27). -/
structure Channel where
  rx : Half
  tx : Half
  loop : Loop
  /-- `PPX` (R27) -/
  ppx : Word
  /-- `BUFSZ` (R27) -/
  bufsz : Word
deriving DecidableEq, Repr

/-- A transfer unit, owned by the bus layer (rule R29): `u.handle`, (`u.if`, `u.id`), `u.cap`, `u.len`
and `Unit[u]`. -/
structure TransferUnit where
  handle : Word
  ifid : IfId
  cap : Nat
  len : Nat
  bytes : Memory
deriving DecidableEq, Repr

/-- The actions of the environment on its own state (rules R28, R32, R50): a client write to ring
memory, and what the bus layer does with its units, its pools and its answers. -/
inductive EnvAct where
  /-- the client stores bytes in the ring memory of a half, as far as the ring goes (R28, R177) -/
  | ringWrite (c : Nat) (d : Dir) (off : Nat) (bytes : List Byte)
  /-- the bus layer brings a transfer unit to life, holding `bytes` from offset 0 on (R29) -/
  | unitMake (handle : Word) (ifid : IfId) (cap len : Nat) (bytes : List Byte)
  /-- the bus layer stores bytes in a unit and sets `u.len` (R29) -/
  | unitWrite (handle : Word) (off : Nat) (bytes : List Byte) (len : Nat)
  /-- the bus layer does away with a unit -/
  | unitDrop (handle : Word)
  /-- the bus layer puts a unit into its pool, at a place of its choice (R32) -/
  | poolInsert (pos : Nat) (handle : Word)
  /-- the bus layer takes a unit out of its pool (R32) -/
  | poolRemove (handle : Word)
  /-- the bus layer decides what it will answer to a later `START_CHANNEL` (R33) -/
  | startAnswer (ok : Bool)
deriving DecidableEq, Repr

/-- Whose turn it is: "Any enabled step of any agent may be the next" (rule R167). -/
inductive Input where
  /-- a packet arrives on a port (agents 1 and 2). Rule R166 lets the core alone drive the internal
  port, and no step of the core puts a packet here, since its own uses of the micro-operations are calls
  inside a step: that an input may be a packet on that port is the model's choice, so that the rows of
  rule R67 can be run on their own (DESIGN CHOICE, log entry 32) -/
  | packet (port : Port) (p : Packet)
  /-- the Supply Loop of a Channel takes its step, if it is enabled (agent 3) -/
  | loop (c : Nat)
  /-- the close completion of a half takes its step, if it is enabled (agent 4) -/
  | finish (c : Nat) (d : Dir)
  /-- an action of the environment (R50) -/
  | env (a : EnvAct)
deriving DecidableEq, Repr

/-- The result codes of rule R150. -/
inductive Result where
  | ok
  | notConnected
  | invalidParameter
  | deviceBusy
  | invalidChannel
  | outOfResources
  | notFound
  | badState
  | illegalCommand
deriving DecidableEq, Repr

/-- What an answer answers: the packet just taken from a port, or the pending `CLOSE` of a half
(rule R69). -/
inductive Asker where
  | packet (port : Port)
  | close (c : Nat) (d : Dir)
deriving DecidableEq, Repr

/-- What the core sent, in the order it sent it (rules R32, R33, R51, R69, R159). -/
inductive Out where
  /-- the two answer words of a packet (R69) -/
  | answer (asker : Asker) (result rval : Word)
  /-- `ACQUIRE(if, id)`, answered with the unit `u` (R33) -/
  | acquire (ifid : IfId) (u : Word)
  /-- `SUBMIT(u)` (R33) -/
  | submit (u : Word)
  /-- `PUT(u)` (R33) -/
  | put (u : Word)
  /-- `START_CHANNEL(if, id, ppx)` and what it was answered (R33) -/
  | startChannel (ifid : IfId) (ppx : Word) (ok : Bool)
  /-- `STOP_CHANNEL(if, id)` (R33) -/
  | stopChannel (ifid : IfId)
  /-- `NOTIFY PERIOD_ELAPSED(c, d)` (R159) -/
  | periodElapsed (c : Nat) (d : Dir)
deriving DecidableEq, Repr

/-- Why a step stops with a fault. All are safe: the model stops where the spec gives no meaning. -/
inductive Fault where
  /-- `fault(CopyPremise)`: raised by `CopyFrames` when a premise of rule R96 fails. Safe. -/
  | copyPremise
  /-- `fault(CodecLength)`: raised by `Convert` on a byte count that is no multiple of the group size
  (rule R87). Safe. -/
  | codecLength
  /-- raised by `SL.FILL`, `COPY_FRAMES` and the `CVT` operations when the memory they name does not
  exist: a handle of no live unit (rule R181, U19) or a ring of no Channel. Safe. -/
  | noMemory
  /-- raised by the `CVT` operations on an offset beyond the end of a memory (rules R28, R29, R49).
  Safe. -/
  | outOfRange
deriving DecidableEq, Repr

/-- Why a step is refused. No step of this model is. -/
inductive Refusal where
  /-- an instruction that has no meaning yet; no arm of `exec` answers it. Safe. -/
  | notModelled (mnemonic : String)
deriving DecidableEq, Repr

/-- The machine: the registers of the core, the state of its environment (rule R32), and the inputs
that are still to come. -/
structure State where
  /-- the Channels; `N_CH` is the length of the list (R5, R12) -/
  chans : List Channel
  /-- the parameter `PERIOD_MAX` (R5), written by nothing -/
  periodMax : Word
  /-- the live transfer units, handles strictly rising (R29) -/
  units : List TransferUnit
  /-- the units available to `ACQUIRE`, in the order the bus layer will answer them (R32) -/
  pool : List Word
  /-- everything the core sent so far, oldest first (R32, R51) -/
  out : List Out
  /-- the model's own: the inputs to come, next first (R9, R50, R167) -/
  agenda : List Input
  /-- the model's own: answers the bus layer has decided on for its next `START_CHANNEL`s (R33) -/
  startAnswers : List Bool
  /-- the model's own: how many `START_CHANNEL` answers were drawn as free values -/
  startDraws : Nat
  /-- the model's own: the Boolean the last `COPY_FRAMES` packet of the internal port returned (R90) -/
  copyElapsed : Bool
deriving DecidableEq, Repr

/-- What the next step is about (`fetch`, Machine/Fetch.lean): a coded form to decode, an action of
the environment, or nothing, each with the state that is left of the inputs. -/
inductive Fetched where
  | code (x : Code) (s : State)
  | env (a : EnvAct) (s : State)
  | idle
deriving DecidableEq, Repr

/-- A half after reset: every register 0 (rule R171), no ring byte written (rule R172). -/
def Half.reset : Half where
  lstate := .closed
  running := false
  started := false
  bound := false
  ringAlloc := false
  codecValid := false
  codec := .copy
  frameBytes := 0
  bufPos := 0
  perPos := 0
  ringFrames := 0
  periodFrames := 0
  ringHandle := 0
  negFmt := ⟨0, 0, .little⟩
  bind := ⟨0, 0⟩
  envRate := 0
  envCh := ⟨0, 0⟩
  envSizeMax := 0
  cfgRate := 0
  cfgCh := ⟨0, 0⟩
  ring := []

/-- A Supply Loop after reset: it does not exist (rule R171). -/
def Loop.reset : Loop where
  phase := .idle
  lunit := 0
  stopReq := false
  pe := false

/-- A Channel after reset: `PPX = 255`, `BUFSZ = -1` (rules R27, R171). -/
def Channel.reset : Channel where
  rx := Half.reset
  tx := Half.reset
  loop := Loop.reset
  ppx := Config.ppxDefault
  bufsz := Config.bufszUnset

/-- Reset of a core with parameters `N_CH` and `PERIOD_MAX` (rules R170, R171, R172): nothing sent,
no unit, no input. -/
def State.resetWith (nCh : Nat) (periodMax : Word) : State where
  chans := List.replicate nCh Channel.reset
  periodMax := periodMax
  units := []
  pool := []
  out := []
  agenda := []
  startAnswers := []
  startDraws := 0
  copyElapsed := false

/-- The machine right after reset. -/
def State.reset : State := State.resetWith Config.nCh Config.periodMax

end Sys2Proof.Machine
end

