-- ==== Sys2Proof/Machine/Flags.lean ====
section
/-! DEFINITION. The words software sees: the numbers of states, phases and codecs (R13, R25, R18), the
packed `FLAGS` word (R14, R17), and the `RESULT` words (R69, R150). -/

namespace Sys2Proof.Machine

/-- The values of `LSTATE` (rule R13). -/
def LState.toWord : LState → Word
  | .closed => 0
  | .opened => 1
  | .prepared => 2
  | .running => 3
  | .stopped => 4
  | .closing => 5

/-- The values of `LPHASE` (rule R25). -/
def LPhase.toWord : LPhase → Word
  | .idle => 0
  | .wait => 1
  | .fill => 2
  | .submit => 3
  | .notify => 4

/-- The values of `CODEC` (rule R18). -/
def Codec.toWord : Codec → Word
  | .copy => 0
  | .swap16 => 1
  | .swap24 => 2
  | .swap32 => 3

/-- The code numbers of rule R150. -/
def Result.code : Result → Nat
  | .ok => 0
  | .notConnected => 1
  | .invalidParameter => 2
  | .deviceBusy => 3
  | .invalidChannel => 4
  | .outOfResources => 5
  | .notFound => 6
  | .badState => 7
  | .illegalCommand => 8

/-- `RESULT`: 0 for `OK`, otherwise the two's complement of the code number (rule R69). -/
def Result.toWord (r : Result) : Word := -BitVec.ofNat 32 r.code

/-- `SUBSTREAM` is `LSTATE ≠ CLOSED` (rule R17). -/
def Half.substream (h : Half) : Bool := decide (h.lstate ≠ .closed)

/-- `FLAGS`: bit 0 `RUNNING`, 1 `STARTED`, 2 `BOUND`, 3 `RING_ALLOC`, 4 `SUBSTREAM`,
5 `CODEC_VALID`, 6 `STOP_REQ`, 7 `PE`, the rest 0 (rule R14). -/
def flagsWord (h : Half) (stopReq pe : Bool) : Word :=
  (0 : BitVec 24) ++ (BitVec.ofBool pe ++ (BitVec.ofBool stopReq ++ (BitVec.ofBool h.codecValid ++
    (BitVec.ofBool h.substream ++ (BitVec.ofBool h.ringAlloc ++ (BitVec.ofBool h.bound ++
      (BitVec.ofBool h.started ++ BitVec.ofBool h.running)))))))

end Sys2Proof.Machine
end

