-- ==== Sys2Proof/Machine/Operands.lean ====
section
/-! DEFINITION. The operands the core computes: which codec a format selects (R86), where a codec takes
each byte from (R81 to R84), the size of a frame and the number of frames (R19, R98), and the Channel
named by an argument string (R131). -/

namespace Sys2Proof.Machine

/-- The group size `g(sel)` (rule R80). -/
def Codec.group : Codec → Nat
  | .copy => 1
  | .swap16 => 2
  | .swap24 => 3
  | .swap32 => 4

/-- Which source byte goes to byte `i` of the destination: the bytes of each group of `g` are
reversed (rules R81 to R84: `dst[g*k + j] <- src[g*k + g-1-j]`). -/
def Codec.srcIndex (sel : Codec) (i : Nat) : Nat :=
  sel.group * (i / sel.group) + (sel.group - 1 - i % sel.group)

/-- `SelectCodec(width, endian)` (rule R86). -/
def selectCodec (width : BitVec 8) (endian : Endian) : Option Codec :=
  match width.toNat, endian with
  | 8, _ => some .copy
  | 16, .big => some .copy
  | 24, .big => some .copy
  | 32, .big => some .copy
  | 16, .little => some .swap16
  | 24, .little => some .swap24
  | 32, .little => some .swap32
  | _, _ => none

/-- `(width div 8) * channels` (rules R19, R104). -/
def frameBytesOf (f : Fmt) : Nat := f.width.toNat / 8 * f.channels.toNat

/-- How many bytes the ring memory of a half has: `RING_FRAMES * FRAME_BYTES`, where `FRAME_BYTES` is
"the value `PREPARE` will compute from the same `NEG_FMT`" (rules R28, R177, log entry 17). -/
def Half.ringSize (h : Half) : Nat := h.ringFrames.toNat * frameBytesOf h.negFmt

/-- How many whole frames a run of bytes holds, rounding down (rule R98). -/
def Half.frameCount (h : Half) (byteLen : Nat) : Nat := byteLen / h.frameBytes.toNat

/-- An ASCII decimal digit, 0x30 to 0x39 (rule R131). -/
def isDigit (b : Byte) : Bool := decide (0x30 ≤ b.toNat) && decide (b.toNat ≤ 0x39)

/-- The value of the run of digits a string begins with, after digits worth `acc`. -/
def digitRun (acc : Nat) : List Byte → Nat
  | [] => acc
  | b :: bs => if isDigit b then digitRun (10 * acc + (b.toNat - 0x30)) bs else acc

/-- `ParseId(args)`: the first maximal run of decimal digits as an unbounded natural number
(rule R131). -/
def parseId : List Byte → Option Nat
  | [] => none
  | b :: bs => if isDigit b then some (digitRun 0 (b :: bs)) else parseId bs

end Sys2Proof.Machine
end

