-- ==== Sys2Proof/Machine/Ops.lean ====
section
/-! DEFINITION. The operations the meanings share: byte memories, Channels, units and pools, the answer
to a packet (`return CODE`, rule R8, which stands where another machine takes an exception: rules R150,
R164), the requests of rule R33, `Lookup` (R135), `Convert` (R80) and `CopyFrames` (R90). -/

namespace Sys2Proof.Machine

/-- What a meaning answers. -/
abbrev Outcome := Host.Outcome State Fault Refusal

/-! ## Byte memories -/

/-- The canonical form of a memory: offsets strictly rising. An unlisted offset reads as a free
value, which no listed byte can be compared with, so the form has no second clause (log entry 1). -/
abbrev Memory.wf (m : Memory) : Prop := m.Pairwise (fun x y => x.1 < y.1)

/-- The byte last written to an offset, if any was. -/
def Memory.find : Memory → Nat → Option Byte
  | [], _ => none
  | (x, v) :: m, o => if x = o then some v else Memory.find m o

/-- The byte at an offset of the memory `sp` whose written bytes are `m` (rules R47, R172). -/
def Memory.read (sp : Space) (m : Memory) (o : Nat) : Byte :=
  match m.find o with
  | some v => v
  | none => Config.unwrittenByte sp o

/-- Store one byte, keeping the canonical form. -/
def Memory.write : Memory → Nat → Byte → Memory
  | [], o, b => [(o, b)]
  | (x, v) :: m, o, b =>
    if o < x then (o, b) :: (x, v) :: m
    else if o = x then (o, b) :: m
    else (x, v) :: Memory.write m o b

/-- `MemWrite`: store consecutive bytes, lowest offset first (rule R8). -/
def Memory.writeBytes (m : Memory) (o : Nat) : List Byte → Memory
  | [] => m
  | b :: bs => (m.write o b).writeBytes (o + 1) bs

/-! ## Channels and halves -/

/-- `N_CH` (rules R5, R12). -/
def State.nCh (s : State) : Nat := s.chans.length

/-- Channel `c`. There is none for `c ≥ N_CH`; no operation that decoding answers names one. -/
def State.chan (s : State) (c : Nat) : Channel := s.chans.getD c Channel.reset

def State.setChan (s : State) (c : Nat) (ch : Channel) : State :=
  { s with chans := s.chans.set c ch }

def Channel.half (ch : Channel) : Dir → Half
  | .rx => ch.rx
  | .tx => ch.tx

def Channel.setHalf (ch : Channel) (d : Dir) (h : Half) : Channel :=
  match d with
  | .rx => { ch with rx := h }
  | .tx => { ch with tx := h }

/-- The registers of half `(c, d)` (rule R12). -/
def State.half (s : State) (c : Nat) (d : Dir) : Half := (s.chan c).half d

def State.setHalf (s : State) (c : Nat) (d : Dir) (h : Half) : State :=
  s.setChan c ((s.chan c).setHalf d h)

/-- The Supply Loop of Channel `c` (rules R25, R26). -/
def State.loop (s : State) (c : Nat) : Loop := (s.chan c).loop

def State.setLoop (s : State) (c : Nat) (l : Loop) : State :=
  s.setChan c { s.chan c with loop := l }

/-- The value of a register of half `(c, d)` as `RDREG` reads it (rules R12, R14, R110): `LPHASE`,
`LUNIT`, `STOP_REQ` and `PE` of an RX half read 0 (rules R17, R30). -/
def State.regValue (s : State) (c : Nat) (d : Dir) (r : Reg) : Word :=
  let h := s.half c d
  let l := match d with
    | .rx => Loop.reset
    | .tx => s.loop c
  match r with
  | .lstate => h.lstate.toWord
  | .flags => flagsWord h l.stopReq l.pe
  | .codec => h.codec.toWord
  | .frameBytes => h.frameBytes
  | .bufPos => h.bufPos
  | .perPos => h.perPos
  | .ringFrames => h.ringFrames
  | .periodFrames => h.periodFrames
  | .ringHandle => h.ringHandle
  | .negFmt => h.negFmt.toWord
  | .bind => h.bind.toWord
  | .envRate => h.envRate
  | .envCh => h.envCh.toWord
  | .envSizeMax => h.envSizeMax
  | .lphase => l.phase.toWord
  | .lunit => l.lunit
  | .cfgRate => h.cfgRate
  | .cfgCh => h.cfgCh.toWord

/-- `Lookup(d, if, id)`: the Channel whose half of direction `d` is bound to `(if, id)`
(rule R135; at most one by rule R35). -/
def State.lookup (s : State) (d : Dir) (ifid : IfId) : Option Nat :=
  (List.range s.nCh).find? (fun c => (s.half c d).bound && decide ((s.half c d).bind = ifid))

/-! ## Answers, requests and notifications -/

/-- Append to the history of what the core sent (rules R32, R51). -/
def State.emit (s : State) (o : Out) : State := { s with out := s.out ++ [o] }

/-- `return CODE` and `return OK(v)`: the two answer words of a packet on `port`; `RVAL` is 0 unless
the operation returns a value (rules R8, R69). No other state changes (rule R164). -/
def State.reply (s : State) (port : Port) (r : Result) (rval : Word := 0) : Outcome :=
  .next (s.emit (.answer (.packet port) r.toWord rval))

/-- The live unit with a handle (rule R29). -/
def State.unitOf (s : State) (u : Word) : Option TransferUnit :=
  s.units.find? (fun x => decide (x.handle = u))

/-- Put a unit into a list kept with handles rising, in the place of one with the same handle. -/
def insertUnit (x : TransferUnit) : List TransferUnit → List TransferUnit
  | [] => [x]
  | y :: ys =>
    if x.handle.toNat < y.handle.toNat then x :: y :: ys
    else if x.handle = y.handle then x :: ys
    else y :: insertUnit x ys

def State.setUnit (s : State) (x : TransferUnit) : State :=
  { s with units := insertUnit x s.units }

/-- The pool of `(if, id)`: the pooled live units that belong to the pair (rules R32, R181). -/
def State.poolOf (s : State) (ifid : IfId) : List Word :=
  s.pool.filter (fun u => match s.unitOf u with
    | some x => decide (x.ifid = ifid)
    | none => false)

/-- `ACQUIRE(if, id)`: take the first unit of the pool, or *none* (rule R33). -/
def State.acquire (s : State) (ifid : IfId) : Option (Word × State) :=
  match s.poolOf ifid with
  | [] => none
  | u :: _ => some (u, { s with pool := s.pool.erase u }.emit (.acquire ifid u))

/-- `SUBMIT(u)` (rule R33). -/
def State.submit (s : State) (u : Word) : State := s.emit (.submit u)

/-- `PUT(u)`: give a capture unit back to the bus layer's pool (rule R33, log entry 8). -/
def State.put (s : State) (u : Word) : State :=
  { s with pool := s.pool.erase u ++ [u] }.emit (.put u)

/-- `START_CHANNEL(if, id, ppx)` and its answer, `true` for `ok`: the answer the bus layer has decided
on, or else a free value (rule R33, U6, log entry 2). -/
def State.startChannel (s : State) (ifid : IfId) (ppx : Word) : Bool × State :=
  match s.startAnswers with
  | b :: bs => (b, { s with startAnswers := bs }.emit (.startChannel ifid ppx b))
  | [] =>
    let b := Config.startAnswer s.startDraws
    (b, { s with startDraws := s.startDraws + 1 }.emit (.startChannel ifid ppx b))

/-- `STOP_CHANNEL(if, id)` (rule R33). -/
def State.stopChannel (s : State) (ifid : IfId) : State := s.emit (.stopChannel ifid)

/-- `NOTIFY PERIOD_ELAPSED(c, d)` (rule R159). -/
def State.notify (s : State) (c : Nat) (d : Dir) : State := s.emit (.periodElapsed c d)

/-! ## The memories by name -/

/-- How many bytes a memory has: `Half.ringSize` for a ring (rules R28, R177), `u.cap` for a live unit
(rule R29). -/
def State.memSize (s : State) : Space → Option Nat
  | .ring c d =>
    if c < s.nCh then some (s.half c d).ringSize else none
  | .unit u =>
    match s.unitOf u with
    | some x => some x.cap
    | none => none

/-- The written bytes of a memory; a unit that is not live has none. -/
def State.mem (s : State) : Space → Memory
  | .ring c d => (s.half c d).ring
  | .unit u =>
    match s.unitOf u with
    | some x => x.bytes
    | none => []

def State.setMem (s : State) (sp : Space) (m : Memory) : State :=
  match sp with
  | .ring c d => s.setHalf c d { s.half c d with ring := m }
  | .unit u =>
    match s.unitOf u with
    | some x => s.setUnit { x with bytes := m }
    | none => s

/-- `Ring[c,d][o]` and `Unit[u][o]` (rule R8): the one read of a byte. Nothing reads or writes at an
offset beyond `memSize`: copies are bounded by `copyPremise`, `CVT` operations by `convertOp`, the writes
of the environment by `execEnv` (rule R177). -/
def State.readByte (s : State) (sp : Space) (o : Nat) : Byte := (s.mem sp).read sp o

/-- Store zero bytes at offsets `o` to `o + n - 1` of a unit (rule R122: silence and padding). -/
def State.zeroUnit (s : State) (u : Word) (o n : Nat) : State :=
  s.setMem (.unit u) ((s.mem (.unit u)).writeBytes o (List.replicate n 0))

/-! ## The Format Codec -/

/-- `Convert(sel, dst, dstOff, src, srcOff, n)` (rules R80 to R84): the destination's bytes after it,
given its bytes before and the source's read. A byte count that is no multiple of the group size is
`fault(CodecLength)` (rule R87). -/
def convert (sel : Codec) (dst : Memory) (dstOff : Nat) (src : Nat → Byte) (srcOff n : Nat) :
    Except Fault Memory :=
  if n % sel.group ≠ 0 then .error .codecLength
  else .ok (dst.writeBytes dstOff ((List.range n).map (fun i => src (srcOff + sel.srcIndex i))))

/-- The ranges `[a, a+n)` and `[b, b+n)` share an offset. -/
def rangesOverlap (a b n : Nat) : Bool := decide (a < b + n) && decide (b < a + n)

/-- A `CVT` micro-operation given on its own (rules R67, R80, R87, R88): the fault of rule R87 first,
nothing at all for `n = 0`, then the rejection of overlapping ranges (U4), then both memories must exist
and hold the ranges (log entry 14). The rejection changes nothing and is answered `ILLEGAL_COMMAND` on the
internal port; the code and the answering are the model's choice (DESIGN CHOICE, log entry 29). Disjoint
ranges of one memory, which rule R80 never names, are converted like those of two memories (DESIGN
CHOICE, log entry 30). -/
def State.convertOp (s : State) (sel : Codec) (dst src : MemRef) (n : Nat) : Outcome :=
  if n % sel.group ≠ 0 then .fault .codecLength
  else if n = 0 then .next s
  else if dst.space = src.space ∧ rangesOverlap dst.off src.off n then
    s.reply .internal .illegalCommand
  else
    match s.memSize dst.space, s.memSize src.space with
    | some nd, some ns =>
      if dst.off + n ≤ nd ∧ src.off + n ≤ ns then
        match convert sel (s.mem dst.space) dst.off (s.readByte src.space) src.off n with
        | .ok m => .next (s.setMem dst.space m)
        | .error f => .fault f
      else .fault .outOfRange
    | _, _ => .fault .noMemory

/-! ## The Ring Buffer Copier -/

/-- The premises P1 to P7 of rule R96, with the clause `u.len ≤ u.cap` that U20 reads into P6 for a
delivered unit (rule R176 (c), log entry 31). P7 compares the register `FRAME_BYTES` with the size that
rule R177 gives the ring from `NEG_FMT`; between `PREPARE` and the next `HW_PARAMS` the two agree, so P7
is then met by construction (log entry 17). -/
def copyPremise (h : Half) (x : TransferUnit) (d : Dir) (n : Nat) : Bool :=
  h.codecValid &&
  decide (0 < h.frameBytes.toNat ∧ 0 < h.ringFrames.toNat ∧ 0 < h.periodFrames.toNat) &&
  decide (h.bufPos.toNat < h.ringFrames.toNat ∧ h.perPos.toNat < h.periodFrames.toNat) &&
  decide (n ≤ h.ringFrames.toNat) &&
  decide (n ≤ h.periodFrames.toNat) &&
  decide (n * h.frameBytes.toNat ≤ x.cap) &&
  decide (h.ringFrames.toNat * h.frameBytes.toNat ≤ h.ringSize) &&
  (match d with
   | .rx => decide (n * h.frameBytes.toNat ≤ x.len ∧ x.len ≤ x.cap)
   | .tx => true)

/-- `room = RING_FRAMES - BUFPOS` (rule R90). -/
def Half.room (h : Half) : Nat := h.ringFrames.toNat - h.bufPos.toNat

/-- `n1 = min(room, n)`, the frames copied before the wrap (rule R90). -/
def Half.firstPart (h : Half) (n : Nat) : Nat := min h.room n

/-- The ring bytes of an RX half after a capture of `n` frames from unit `x` (rule R91). -/
def captureBytes (h : Half) (x : TransferUnit) (n : Nat) : Except Fault Memory :=
  let fb := h.frameBytes.toNat
  let n1 := h.firstPart n
  let src := x.bytes.read (.unit x.handle)
  match convert h.codec h.ring (h.bufPos.toNat * fb) src 0 (n1 * fb) with
  | .error f => .error f
  | .ok m => if h.room < n then convert h.codec m 0 src (n1 * fb) ((n - n1) * fb) else .ok m

/-- The bytes of unit `x` after a playback of `n` frames from the ring of TX half `c`
(rule R92). -/
def playbackBytes (c : Nat) (h : Half) (x : TransferUnit) (n : Nat) : Except Fault Memory :=
  let fb := h.frameBytes.toNat
  let n1 := h.firstPart n
  let src := h.ring.read (.ring c .tx)
  match convert h.codec x.bytes 0 src (h.bufPos.toNat * fb) (n1 * fb) with
  | .error f => .error f
  | .ok m => if h.room < n then convert h.codec m (n1 * fb) src 0 ((n - n1) * fb) else .ok m

/-- Whether moving `n` frames reaches the end of the period (rule R94). -/
def Half.crosses (h : Half) (n : Nat) : Bool := decide (h.periodFrames.toNat ≤ h.perPos.toNat + n)

/-- The positions after moving `n` frames (rules R93, R94). -/
def Half.advance (h : Half) (n : Nat) : Half :=
  { h with
    bufPos := BitVec.ofNat 32 ((h.bufPos.toNat + n) % h.ringFrames.toNat)
    perPos := BitVec.ofNat 32
      (if h.crosses n then h.perPos.toNat + n - h.periodFrames.toNat else h.perPos.toNat + n) }

/-- `CopyFrames(c, d, u, n)` (rule R90): the state after it and the Boolean it returns, or the fault of
a broken premise (rule R96). -/
def State.copyFrames (s : State) (c : Nat) (d : Dir) (u : Word) (n : Nat) :
    Except Fault (State × Bool) :=
  match s.unitOf u with
  | none => .error .noMemory
  | some x =>
    let h := s.half c d
    if copyPremise h x d n then
      match d with
      | .rx =>
        match captureBytes h x n with
        | .error f => .error f
        | .ok m => .ok (s.setHalf c .rx { h.advance n with ring := m }, h.crosses n)
      | .tx =>
        match playbackBytes c h x n with
        | .error f => .error f
        | .ok m => .ok ((s.setHalf c .tx (h.advance n)).setUnit { x with bytes := m }, h.crosses n)
    else .error .copyPremise

/-! ## What is enabled -/

/-- The combined wait condition of the Supply Loop of Channel `c` (rule R121). -/
def State.waitReady (s : State) (c : Nat) : Bool :=
  (s.loop c).stopReq ||
  ((s.half c .tx).running && (s.half c .tx).bound && !(s.poolOf (s.half c .tx).bind).isEmpty)

/-- Whether the next step of the Supply Loop of Channel `c` is enabled (rule R120). -/
def State.loopEnabled (s : State) (c : Nat) : Bool :=
  match (s.loop c).phase with
  | .idle => false
  | .wait => s.waitReady c
  | .fill => true
  | .submit => true
  | .notify => true

/-- Whether the close completion of half `(c, d)` is enabled (rule R108). -/
def State.finishEnabled (s : State) (c : Nat) (d : Dir) : Bool :=
  decide ((s.half c d).lstate = .closing) &&
  (match d with
   | .rx => true
   | .tx => decide ((s.loop c).phase = .idle))

end Sys2Proof.Machine
end

