-- ==== Sys2Proof/Machine/Attributes.lean ====
section
/-! DEFINITION. The commands on the tunables of a Channel (45_attributes.md). -/

namespace Sys2Proof.Machine

/-- `RD_PPX c` (rule R140). -/
def execRdPpx (c : Nat) (s : State) : Outcome := s.reply .client .ok (s.chan c).ppx

/-- `WR_PPX c, v` (rule R141). -/
def execWrPpx (c : Nat) (v : Word) (s : State) : Outcome :=
  (s.setChan c { s.chan c with ppx := v }).reply .client .ok

/-- `RD_BUFSZ c` (rule R142). -/
def execRdBufsz (c : Nat) (s : State) : Outcome := s.reply .client .ok (s.chan c).bufsz

/-- `WR_BUFSZ c, v` (rule R143). -/
def execWrBufsz (c : Nat) (v : Word) (s : State) : Outcome :=
  (s.setChan c { s.chan c with bufsz := v }).reply .client .ok

end Sys2Proof.Machine
end

