-- ==== Sys2Proof/Machine/BusEvents.lean ====
section
/-! DEFINITION. The events of the bus layer (44_bus_events.md). -/

namespace Sys2Proof.Machine

/-- `CONNECT if, id, cfg, args` (rule R130). -/
def execConnect (ifid : IfId) (cfg : BusCfg) (args : List Byte) (s : State) : Outcome :=
  match parseId args with
  | none => s.reply .bus .invalidParameter
  | some c =>
    if s.nCh ≤ c then s.reply .bus .notFound
    else if (s.half c cfg.dir).bound then s.reply .bus .deviceBusy
    else if (s.lookup cfg.dir ifid).isSome then s.reply .bus .deviceBusy
    else
      (s.setHalf c cfg.dir
        { s.half c cfg.dir with
          bind := ifid
          cfgRate := cfg.rate
          cfgCh := cfg.ch
          bound := true }).reply .bus .ok

/-- `DISCONNECT`'s effect on the halves of one direction (rule R132). -/
def State.unbind (s : State) (d : Dir) (ifid : IfId) : State :=
  match s.lookup d ifid with
  | none => s
  | some c =>
    s.setHalf c d
      { s.half c d with bound := false, bind := ⟨0, 0⟩, cfgRate := 0, cfgCh := ⟨0, 0⟩ }

/-- `DISCONNECT if, id` (rule R132). -/
def execDisconnect (ifid : IfId) (s : State) : Outcome :=
  ((s.unbind .rx ifid).unbind .tx ifid).reply .bus .ok

/-- `RX_COMPLETE u` (rule R133): copy, then `PUT`, then `NOTIFY`, then the answer. A handle of no live
unit is answered `ILLEGAL_COMMAND` (rule R181, U19, log entry 7). -/
def execRxComplete (u : Word) (s : State) : Outcome :=
  match s.unitOf u with
  | none => s.reply .bus .illegalCommand
  | some x =>
    match s.lookup .rx x.ifid with
    | none => (s.put u).reply .bus .invalidChannel
    | some c =>
      let h := s.half c .rx
      if h.running then
        match s.copyFrames c .rx u (h.frameCount x.len) with
        | .error f => .fault f
        | .ok (s1, crossed) =>
          (if crossed then (s1.put u).notify c .rx else s1.put u).reply .bus .ok
      else (s.put u).reply .bus .ok

/-- `TX_SLOT_FREE if, id` (rule R134): no state changes; the loop is woken by its own condition
(rule R126). -/
def execTxSlotFree (ifid : IfId) (s : State) : Outcome :=
  match s.lookup .tx ifid with
  | none => s.reply .bus .invalidChannel
  | some _ => s.reply .bus .ok

end Sys2Proof.Machine
end

