-- ==== Sys2Proof/Machine/Lifecycle.lean ====
section
/-! DEFINITION. The client commands of the Trigger/Lifecycle Protocol and the close completion
(42_lifecycle.md). Each follows the pseudocode of its rule. -/

namespace Sys2Proof.Machine

/-- `ENV_SIZE_MAX` as `OPEN` derives it: `PERIOD_MAX` if `BUFSZ` is unset, else `BUFSZ` (R101). -/
def State.sizeLimit (s : State) (c : Nat) : Word :=
  if (s.chan c).bufsz = Config.bufszUnset then s.periodMax else (s.chan c).bufsz

/-- `OPEN c, d` (rule R101). -/
def execOpen (c : Nat) (d : Dir) (s : State) : Outcome :=
  let h := s.half c d
  if h.lstate ≠ .closed then s.reply .client .badState
  else if h.bound = false then s.reply .client .notConnected
  else
    (s.setHalf c d
      { h with
        envRate := h.cfgRate
        envCh := h.cfgCh
        envSizeMax := s.sizeLimit c
        lstate := .opened }).reply .client .ok

/-- `HW_PARAMS c, d, fmt, ring_frames, period_frames, ring_handle` (rule R102). -/
def execHwParams (c : Nat) (d : Dir) (fmt : Fmt) (ringFrames periodFrames ringHandle : Word)
    (s : State) : Outcome :=
  let h := s.half c d
  if h.lstate ≠ .opened then s.reply .client .badState
  else if fmt.channels.toNat < h.envCh.lo.toNat ∨ h.envCh.hi.toNat < fmt.channels.toNat then
    s.reply .client .invalidParameter
  else if fmt.channels = 0 ∨ ringFrames = 0 ∨ periodFrames = 0 then
    s.reply .client .invalidParameter
  else
    (s.setHalf c d
      { h with
        negFmt := fmt
        ringFrames := ringFrames
        periodFrames := periodFrames
        ringHandle := ringHandle
        ringAlloc := true }).reply .client .ok

/-- `HW_FREE c, d` (rule R103). -/
def execHwFree (c : Nat) (d : Dir) (s : State) : Outcome :=
  let h := s.half c d
  if h.lstate ≠ .opened then s.reply .client .badState
  else (s.setHalf c d { h with ringAlloc := false }).reply .client .ok

/-- The part of `PREPARE` after the codec is selected and the positions are zeroed: for TX the Supply
Loop is started (rule R125). -/
def State.startLoop (s : State) (c : Nat) (d : Dir) : State :=
  match d with
  | .rx => s
  | .tx => s.setLoop c { s.loop c with pe := false, lunit := 0, phase := .wait }

/-- `PREPARE`'s roll-back when the bus channel does not start: for TX the loop is stopped
(rules R104, R125). -/
def State.rollBackLoop (s : State) (c : Nat) (d : Dir) : State :=
  match d with
  | .rx => s
  | .tx => s.setLoop c { s.loop c with phase := .idle }

/-- `START_CHANNEL` for the binding of a half; without a binding the call fails and nothing is sent
(rule R104). -/
def State.startBound (s : State) (c : Nat) (d : Dir) : Bool × State :=
  if (s.half c d).bound then s.startChannel (s.half c d).bind (s.chan c).ppx else (false, s)

/-- The registers `PREPARE` writes once a codec is selected (rule R104). -/
def Half.prepared (h : Half) (sel : Codec) : Half :=
  { h with
    codec := sel
    codecValid := true
    frameBytes := BitVec.ofNat 32 (frameBytesOf h.negFmt)
    bufPos := 0
    perPos := 0 }

/-- `PREPARE c, d` (rule R104). -/
def execPrepare (c : Nat) (d : Dir) (s : State) : Outcome :=
  let h := s.half c d
  if h.lstate ≠ .opened ∨ h.ringAlloc = false then s.reply .client .badState
  else
    match selectCodec h.negFmt.width h.negFmt.endian with
    | none =>
      (s.setHalf c d { h with codec := .copy, codecValid := false }).reply .client .invalidParameter
    | some sel =>
      let s1 := (s.setHalf c d (h.prepared sel)).startLoop c d
      match s1.startBound c d with
      | (true, s2) =>
        (s2.setHalf c d { s2.half c d with started := true, lstate := .prepared }).reply .client .ok
      | (false, s2) => (s2.rollBackLoop c d).reply .client .deviceBusy

/-- `TRIGGER_START c, d` (rule R105). -/
def execTriggerStart (c : Nat) (d : Dir) (s : State) : Outcome :=
  let h := s.half c d
  if h.lstate ≠ .prepared ∧ h.lstate ≠ .stopped then s.reply .client .badState
  else if h.bound = false then s.reply .client .notConnected
  else (s.setHalf c d { h with running := true, lstate := .running }).reply .client .ok

/-- `TRIGGER_STOP c, d` (rule R106). -/
def execTriggerStop (c : Nat) (d : Dir) (s : State) : Outcome :=
  let h := s.half c d
  if h.lstate ≠ .running then s.reply .client .badState
  else (s.setHalf c d { h with running := false, lstate := .stopped }).reply .client .ok

/-- The stop signal that `CLOSE` of a TX half sends to a Supply Loop that exists (rule R107). -/
def State.requestStop (s : State) (c : Nat) (d : Dir) : State :=
  match d with
  | .rx => s
  | .tx =>
    if (s.loop c).phase ≠ .idle then s.setLoop c { s.loop c with stopReq := true } else s

/-- `CLOSE c, d`, its acceptance: the answer is `CL.FINISH`'s to give (rule R107). -/
def execClose (c : Nat) (d : Dir) (s : State) : Outcome :=
  let h := s.half c d
  if h.lstate ≠ .opened ∧ h.lstate ≠ .prepared ∧ h.lstate ≠ .stopped then s.reply .client .badState
  else .next ((s.requestStop c d).setHalf c d { h with lstate := .closing })

/-- `POINTER c, d` (rule R109). -/
def execPointer (c : Nat) (d : Dir) (s : State) : Outcome :=
  s.reply .client .ok (s.half c d).bufPos

/-- `RDREG c, d, idx` (rule R110). -/
def execRdreg (c : Nat) (d : Dir) (r : Reg) (s : State) : Outcome :=
  s.reply .client .ok (s.regValue c d r)

/-- `STOP_REQ <- 0`, which an RX half does not have (rules R108, R17). -/
def State.clearStop (s : State) (c : Nat) (d : Dir) : State :=
  match d with
  | .rx => s
  | .tx => s.setLoop c { s.loop c with stopReq := false }

/-- `STOP_CHANNEL`, sent only for a channel that was started and is still bound (rule R108). -/
def State.stopBound (s : State) (c : Nat) (d : Dir) : State :=
  if (s.half c d).started && (s.half c d).bound then s.stopChannel (s.half c d).bind else s

/-- `CL.FINISH c, d` (rule R108). Where the step is not enabled nothing happens (log entry 6). -/
def execClFinish (c : Nat) (d : Dir) (s : State) : Outcome :=
  if s.finishEnabled c d = false then .next s
  else
    let s1 := (s.clearStop c d).stopBound c d
    .next ((s1.setHalf c d
      { s1.half c d with started := false, ringAlloc := false, lstate := .closed }).emit
        (.answer (.close c d) Result.ok.toWord 0))

end Sys2Proof.Machine
end

