-- ==== Sys2Proof/Machine/MicroOps.lean ====
section
/-! DEFINITION. The micro-operations of the internal port given on their own (rule R67): the Ring
Buffer Copier (41_copier.md) and the four codecs (40_codec.md). The Sequencer's own uses of them are
calls of `State.copyFrames` and `convert`. -/

namespace Sys2Proof.Machine

/-- `COPY_FRAMES c, d, u, n` (rule R90). The Boolean it returns is left in `State.copyElapsed`
(log entry 5). -/
def execCopyFrames (c : Nat) (d : Dir) (u n : Word) (s : State) : Outcome :=
  match s.copyFrames c d u n.toNat with
  | .error f => .fault f
  | .ok (s1, crossed) => .next { s1 with copyElapsed := crossed }

/-- `CVT.COPY dst, src, n` (rule R81). -/
def execCvtCopy (dst src : MemRef) (n : Nat) (s : State) : Outcome := s.convertOp .copy dst src n

/-- `CVT.SWAP16 dst, src, n` (rule R82). -/
def execCvtSwap16 (dst src : MemRef) (n : Nat) (s : State) : Outcome := s.convertOp .swap16 dst src n

/-- `CVT.SWAP24 dst, src, n` (rule R83). -/
def execCvtSwap24 (dst src : MemRef) (n : Nat) (s : State) : Outcome := s.convertOp .swap24 dst src n

/-- `CVT.SWAP32 dst, src, n` (rule R84). -/
def execCvtSwap32 (dst src : MemRef) (n : Nat) (s : State) : Outcome := s.convertOp .swap32 dst src n

end Sys2Proof.Machine
end

