-- ==== Sys2Proof/Machine/SupplyLoop.lean ====
section
/-! DEFINITION. The four steps of the Playback Supply Loop (43_supply_loop.md). Where a step is not
enabled the loop is blocked and nothing happens (log entry 6). -/

namespace Sys2Proof.Machine

/-- `SL.WAIT c` (rule R121): the stop wins over a unit; with neither the loop stays blocked. -/
def execSlWait (c : Nat) (s : State) : Outcome :=
  let l := s.loop c
  let h := s.half c .tx
  if l.phase ≠ .wait then .next s
  else if l.stopReq then .next (s.setLoop c { l with phase := .idle })
  else if h.running && h.bound then
    match s.acquire h.bind with
    | none => .next s
    | some (u, s1) => .next (s1.setLoop c { l with lunit := u, phase := .fill })
  else .next s

/-- `SL.FILL c` (rule R122): ring frames and zero padding while `RUNNING`, silence otherwise. -/
def execSlFill (c : Nat) (s : State) : Outcome :=
  let l := s.loop c
  let h := s.half c .tx
  if l.phase ≠ .fill then .next s
  else
    match s.unitOf l.lunit with
    | none => .fault .noMemory
    | some x =>
      if h.running then
        let n := h.frameCount x.cap
        let used := n * h.frameBytes.toNat
        match s.copyFrames c .tx l.lunit n with
        | .error f => .fault f
        | .ok (s1, crossed) =>
          .next ((s1.zeroUnit l.lunit used (x.cap - used)).setLoop c
            { l with pe := crossed, phase := .submit })
      else .next ((s.zeroUnit l.lunit 0 x.cap).setLoop c { l with pe := false, phase := .submit })

/-- `SL.SUBMIT c` (rule R123). -/
def execSlSubmit (c : Nat) (s : State) : Outcome :=
  let l := s.loop c
  if l.phase ≠ .submit then .next s
  else .next ((s.submit l.lunit).setLoop c { l with lunit := 0, phase := .notify })

/-- `SL.NOTIFY c` (rule R124). -/
def execSlNotify (c : Nat) (s : State) : Outcome :=
  let l := s.loop c
  if l.phase ≠ .notify then .next s
  else
    .next ((if l.pe then s.notify c .tx else s).setLoop c { l with pe := false, phase := .wait })

end Sys2Proof.Machine
end

