-- ==== Sys2Proof/Machine/Dispatch.lean ====
section
/-! DEFINITION. One arm per constructor of `Instr`. -/

namespace Sys2Proof.Machine

def exec (i : Instr) (s : State) : Host.Outcome State Fault Refusal :=
  match i with
  | .openHalf c d => Sys2Proof.Machine.execOpen c d s
  | .hwParams c d fmt rf pf rh => Sys2Proof.Machine.execHwParams c d fmt rf pf rh s
  | .hwFree c d => Sys2Proof.Machine.execHwFree c d s
  | .prepare c d => Sys2Proof.Machine.execPrepare c d s
  | .triggerStart c d => Sys2Proof.Machine.execTriggerStart c d s
  | .triggerStop c d => Sys2Proof.Machine.execTriggerStop c d s
  | .closeHalf c d => Sys2Proof.Machine.execClose c d s
  | .pointer c d => Sys2Proof.Machine.execPointer c d s
  | .rdreg c d r => Sys2Proof.Machine.execRdreg c d r s
  | .rdPpx c => Sys2Proof.Machine.execRdPpx c s
  | .wrPpx c v => Sys2Proof.Machine.execWrPpx c v s
  | .rdBufsz c => Sys2Proof.Machine.execRdBufsz c s
  | .wrBufsz c v => Sys2Proof.Machine.execWrBufsz c v s
  | .connect ifid cfg args => Sys2Proof.Machine.execConnect ifid cfg args s
  | .disconnect ifid => Sys2Proof.Machine.execDisconnect ifid s
  | .rxComplete u => Sys2Proof.Machine.execRxComplete u s
  | .txSlotFree ifid => Sys2Proof.Machine.execTxSlotFree ifid s
  | .copyFrames c d u n => Sys2Proof.Machine.execCopyFrames c d u n s
  | .cvtCopy dst src n => Sys2Proof.Machine.execCvtCopy dst src n s
  | .cvtSwap16 dst src n => Sys2Proof.Machine.execCvtSwap16 dst src n s
  | .cvtSwap24 dst src n => Sys2Proof.Machine.execCvtSwap24 dst src n s
  | .cvtSwap32 dst src n => Sys2Proof.Machine.execCvtSwap32 dst src n s
  | .slWait c => Sys2Proof.Machine.execSlWait c s
  | .slFill c => Sys2Proof.Machine.execSlFill c s
  | .slSubmit c => Sys2Proof.Machine.execSlSubmit c s
  | .slNotify c => Sys2Proof.Machine.execSlNotify c s
  | .clFinish c d => Sys2Proof.Machine.execClFinish c d s

end Sys2Proof.Machine
end

