-- ==== Sys2Proof/Machine/Env.lean ====
section
/-! DEFINITION. The actions of the environment on its own state (rules R28, R32, R33, R50). They are
not operations of the core; they stand in the agenda so that one deterministic step can interleave them
with the core's. -/

namespace Sys2Proof.Machine

/-- One action of the client or of the bus layer. Nothing checks the obligations of rules R176 to
R181; what follows from breaking one is what the rules then say (log entry 9). No action stores beyond the
end of a memory, for no such byte exists: the bytes a ring (rules R28, R177) or a unit (rule R29) has no
room for are cut off (log entry 17). -/
def execEnv (a : EnvAct) (s : State) : Outcome :=
  match a with
  | .ringWrite c d o bs =>
    .next (s.setHalf c d { s.half c d with
      ring := (s.half c d).ring.writeBytes o (bs.take ((s.half c d).ringSize - o)) })
  | .unitMake u ifid cap len bs => .next (s.setUnit ⟨u, ifid, cap, len, Memory.writeBytes [] 0 (bs.take cap)⟩)
  | .unitWrite u o bs len =>
    match s.unitOf u with
    | none => .next s
    | some x => .next (s.setUnit { x with len := len, bytes := x.bytes.writeBytes o (bs.take (x.cap - o)) })
  | .unitDrop u =>
    .next { s with
      units := s.units.filter (fun x => decide (x.handle ≠ u))
      pool := s.pool.filter (fun y => decide (y ≠ u)) }
  | .poolInsert pos u => .next { s with pool := (s.pool.erase u).insertIdx (min pos (s.pool.erase u).length) u }
  | .poolRemove u => .next { s with pool := s.pool.erase u }
  | .startAnswer ok => .next { s with startAnswers := s.startAnswers ++ [ok] }

end Sys2Proof.Machine
end

