-- ==== Sys2Proof/Machine/Fetch.lean ====
section
/-! DEFINITION. What the next step is about (rules R9, R50, R160, R167): the head of the agenda, or with
no input left a step of the core that is enabled (rule R187). -/

namespace Sys2Proof.Machine

/-- The selector of the first enabled step of the core among those of Channel `c` (rule R68). -/
def State.enabledOf (s : State) (c : Nat) : Option Code :=
  if s.loopEnabled c then some (.lphase c (s.loop c).phase.toWord)
  else if s.finishEnabled c .rx then some (.lstate c .rx (s.half c .rx).lstate.toWord)
  else if s.finishEnabled c .tx then some (.lstate c .tx (s.half c .tx).lstate.toWord)
  else none

/-- The selector of the first enabled step of the core, Channels in rising order (log entry 10). -/
def State.firstEnabled (s : State) : Option Code := (List.range s.nCh).findSome? s.enabledOf

/-- Take the next input. A loop or a close completion is fetched as the value of its selector register
(rule R68); with no input left the core goes on with its own enabled steps, and is idle when none is. -/
def fetch (s : State) : Fetched :=
  match s.agenda with
  | [] =>
    match s.firstEnabled with
    | some x => .code x s
    | none => .idle
  | .packet port p :: rest => .code (.packet port p) { s with agenda := rest }
  | .loop c :: rest => .code (.lphase c (s.loop c).phase.toWord) { s with agenda := rest }
  | .finish c d :: rest => .code (.lstate c d (s.half c d).lstate.toWord) { s with agenda := rest }
  | .env a :: rest => .env a { s with agenda := rest }

/-- What becomes of a coded form that decoding rejects: an illegal packet changes no state and is
answered `ILLEGAL_COMMAND` (rules R71, R158); a selector register that selects no step means that
there is no step to take. -/
def rejected (x : Code) (s : State) : Outcome :=
  match x with
  | .packet port _ => s.reply port .illegalCommand
  | .lphase _ _ => .next s
  | .lstate _ _ _ => .next s

/-- The phase whose register value is `v`, and `IDLE` for a value that is none's. -/
def LPhase.ofWord (v : Word) : LPhase :=
  match v.toNat with
  | 1 => .wait
  | 2 => .fill
  | 3 => .submit
  | 4 => .notify
  | _ => .idle

/-- Store a coded form where `fetch` takes its next one: a packet at the head of the agenda; a selector
value in its register, with the turn given to that agent. Only `LSTATE` = 5 selects a step of
`LSTATE`. -/
def placeCode (x : Code) (s : State) : State :=
  match x with
  | .packet port p => { s with agenda := .packet port p :: s.agenda }
  | .lphase c v =>
    { s.setLoop c { s.loop c with phase := LPhase.ofWord v } with agenda := .loop c :: s.agenda }
  | .lstate c d _ =>
    { s.setHalf c d { s.half c d with lstate := .closing } with agenda := .finish c d :: s.agenda }

end Sys2Proof.Machine
end

