-- ==== Sys2Proof/Machine/Step.lean ====
section
/-! DEFINITION. One step of the core or of its environment (rules R9, R50), and the place from which a
step fetches. -/

namespace Sys2Proof.Machine

/-- One atomic step: fetch, decode, execute. -/
def step (s : State) : Host.Outcome State Fault Refusal :=
  match fetch s with
  | .idle => .next s
  | .env a s1 => execEnv a s1
  | .code x s1 =>
    match decode s1.nCh x with
    | .ok i => exec i s1
    | .error _ => rejected x s1

/-- The state whose next step fetches the instruction with bits `w`, numbered as
`spec/opcode_table.json` numbers them (log entry 11). -/
def State.withFetchWord (s : State) (nbits w : Nat) : State := placeCode (tableCode nbits w) s

end Sys2Proof.Machine
end

