-- ==== Sys2Proof/Safety.lean ====
section
/-! DEFINITION. The terms the statements use: the invariants of rules R34 and R35 and of the model's own
memories, what a step keeps (frames), the illegal packets of rule R71, and sequences of copies. -/

namespace Sys2Proof.Machine

/-! ## Invariants -/

/-- `LSTATE ∈ {PREPARED, RUNNING, STOPPED}` (rule R34). -/
abbrev LState.streaming (l : LState) : Prop := l = .prepared ∨ l = .running ∨ l = .stopped

/-- I1, I2 and I3 of rule R34. -/
structure Half.Safe (h : Half) : Prop where
  /-- I1 -/
  running_iff : h.running = true ↔ h.lstate = .running
  /-- I2, first half -/
  started_only : h.started = true → h.lstate.streaming ∨ h.lstate = .closing
  /-- I2, second half -/
  streaming_started : h.lstate.streaming → h.started = true
  /-- I3, the flags -/
  streaming_flags : h.lstate.streaming → h.codecValid = true ∧ h.ringAlloc = true
  /-- I3, the sizes -/
  streaming_sizes : h.lstate.streaming →
    0 < h.frameBytes.toNat ∧ 0 < h.ringFrames.toNat ∧ 0 < h.periodFrames.toNat
  /-- I3, the positions -/
  streaming_positions : h.lstate.streaming →
    h.bufPos.toNat < h.ringFrames.toNat ∧ h.perPos.toNat < h.periodFrames.toNat

/-- What makes I3 and rules R19 and R87 inductive and keeps P7 (rule R177): the zero checks of `HW_PARAMS`
hold of every bound ring, a bound codec has whole groups in a frame, and the size of a frame stays the one
the ring was laid out for. -/
structure Half.Negotiated (h : Half) : Prop where
  ring_bound : h.ringAlloc = true →
    0 < h.negFmt.channels.toNat ∧ 0 < h.ringFrames.toNat ∧ 0 < h.periodFrames.toNat
  codec_bound : h.codecValid = true →
    0 < h.frameBytes.toNat ∧ h.frameBytes.toNat % h.codec.group = 0
  /-- rule R177: while a half streams, `FRAME_BYTES` is what `NEG_FMT` gives -/
  streaming_frame : h.lstate.streaming → h.frameBytes.toNat = frameBytesOf h.negFmt

/-- I4, I6 and I7 of rule R34, for the Supply Loop of a Channel, and that a closing half with a live
loop has been signalled (rule R107). I5 holds by construction: an RX half has no loop registers. -/
structure Channel.LoopSafe (ch : Channel) : Prop where
  /-- I4, first half -/
  streaming_loop : ch.tx.lstate.streaming → ch.loop.phase ≠ .idle
  /-- I4, second half -/
  closed_loop : ch.tx.lstate = .closed ∨ ch.tx.lstate = .opened →
    ch.loop.phase = .idle ∧ ch.loop.stopReq = false
  /-- I6, with rule R26: no unit is held outside `FILL` and `SUBMIT` -/
  held_only : ch.loop.phase ≠ .fill → ch.loop.phase ≠ .submit → ch.loop.lunit = 0
  /-- I7 -/
  stop_closing : ch.loop.stopReq = true → ch.tx.lstate = .closing
  /-- rule R107 -/
  closing_signalled : ch.tx.lstate = .closing → ch.loop.phase ≠ .idle → ch.loop.stopReq = true

/-- The invariants of rule R34 of one Channel. -/
structure Channel.Safe (ch : Channel) : Prop where
  rx : ch.rx.Safe
  tx : ch.tx.Safe
  rx_negotiated : ch.rx.Negotiated
  tx_negotiated : ch.tx.Negotiated
  loop : ch.LoopSafe

/-- The invariants of rule R34, for every Channel. -/
def State.Safe (s : State) : Prop := ∀ ch ∈ s.chans, ch.Safe

/-- Binding uniqueness (rule R35). -/
def State.BindingsUnique (s : State) : Prop :=
  ∀ (d : Dir) (c c' : Nat),
    (s.half c d).bound = true → (s.half c' d).bound = true →
      (s.half c d).bind = (s.half c' d).bind → c = c'

/-- The bytes of a unit are canonical and lie within its capacity (rule R29). -/
structure TransferUnit.Canonical (x : TransferUnit) : Prop where
  wf : x.bytes.wf
  within : ∀ cell ∈ x.bytes, cell.1 < x.cap

/-- The model's own data invariant: memories in canonical form, live units listed once each with
handles rising (rule R29: "unique among live units"). -/
structure State.MemoryCanonical (s : State) : Prop where
  rings : ∀ ch ∈ s.chans, ch.rx.ring.wf ∧ ch.tx.ring.wf
  units : s.units.Pairwise (fun x y => x.handle.toNat < y.handle.toNat)
  bytes : ∀ x ∈ s.units, x.Canonical

/-! ## Frames -/

/-- What no operation of the core touches but `PREPARE` (its answers) and `COPY_FRAMES` (its Boolean):
the parameters, the inputs to come, the model's own fields. -/
structure KeepsRest (s t : State) : Prop where
  nCh : t.nCh = s.nCh
  periodMax : t.periodMax = s.periodMax
  agenda : t.agenda = s.agenda
  startAnswers : t.startAnswers = s.startAnswers
  startDraws : t.startDraws = s.startDraws
  copyElapsed : t.copyElapsed = s.copyElapsed

/-- Every half is unchanged but those of `P`: all registers and flags of rule R12. -/
def KeepsHalvesBut (s t : State) (P : Nat → Dir → Prop) : Prop :=
  ∀ c d, ¬ P c d → t.half c d = s.half c d

/-- Every Supply Loop is unchanged but those of `P`. -/
def KeepsLoopsBut (s t : State) (P : Nat → Prop) : Prop := ∀ c, ¬ P c → t.loop c = s.loop c

/-- Every tunable is unchanged (rule R144). -/
def KeepsTunables (s t : State) : Prop :=
  ∀ c, (t.chan c).ppx = (s.chan c).ppx ∧ (t.chan c).bufsz = (s.chan c).bufsz

/-- Every transfer unit is unchanged, and so is the pool. -/
def KeepsUnits (s t : State) : Prop := t.units = s.units ∧ t.pool = s.pool

/-- Every byte of every memory reads as before, but those of `P`. -/
def KeepsBytesBut (s t : State) (P : Space → Nat → Prop) : Prop :=
  ∀ sp o, ¬ P sp o → t.readByte sp o = s.readByte sp o

/-- Every byte of every memory reads as before. -/
def KeepsBytes (s t : State) : Prop := ∀ sp o, t.readByte sp o = s.readByte sp o

/-- What was sent in a step: exactly `l`, after all that was sent before (rule R51). -/
def Sent (s t : State) (l : List Out) : Prop := t.out = s.out ++ l

/-- The answer words of a packet (rule R69). -/
def answered (port : Port) (r : Result) (rval : Word := 0) : Out :=
  .answer (.packet port) r.toWord rval

/-- Nothing changed but what was sent. -/
structure OnlySent (s t : State) (l : List Out) : Prop where
  halves : KeepsHalvesBut s t (fun _ _ => False)
  loops : KeepsLoopsBut s t (fun _ => False)
  tunables : KeepsTunables s t
  units : KeepsUnits s t
  bytes : KeepsBytes s t
  rest : KeepsRest s t
  sent : Sent s t l

/-- Half `(c, d)` became `h` and the Supply Loop of Channel `c` became `lp`, no byte of memory changed,
`l` was sent, and nothing else changed. -/
structure OnlyChannel (s t : State) (c : Nat) (d : Dir) (h : Half) (lp : Loop) (l : List Out) :
    Prop where
  half : t.half c d = h
  halves : KeepsHalvesBut s t (fun c' d' => c' = c ∧ d' = d)
  loop : t.loop c = lp
  loops : KeepsLoopsBut s t (fun c' => c' = c)
  tunables : KeepsTunables s t
  units : KeepsUnits s t
  bytes : KeepsBytes s t
  rest : KeepsRest s t
  sent : Sent s t l

/-- Only half `(c, d)` changed, and became `h`. -/
abbrev OnlyHalf (s t : State) (c : Nat) (d : Dir) (h : Half) (l : List Out) : Prop :=
  OnlyChannel s t c d h (s.loop c) l

/-- Only the Supply Loop of Channel `c` changed, and became `lp`. -/
abbrev OnlyLoop (s t : State) (c : Nat) (lp : Loop) (l : List Out) : Prop :=
  OnlyChannel s t c .tx (s.half c .tx) lp l

/-- The instruction ends with result `r` and no other effect (rule R164). -/
def AnswersOnly (s : State) (i : Instr) (port : Port) (r : Result) : Prop :=
  ∃ t, exec i s = .next t ∧ OnlySent s t [answered port r]

/-- The answer the next `START_CHANNEL` gets: the one the bus layer has decided on, or else a free
value (rule R33). -/
def State.nextStartAnswer (s : State) : Bool :=
  match s.startAnswers with
  | b :: _ => b
  | [] => Config.startAnswer s.startDraws

/-- The state with the answer of one `START_CHANNEL` used up. -/
def State.afterStartAnswer (s : State) : State :=
  match s.startAnswers with
  | _ :: bs => { s with startAnswers := bs }
  | [] => { s with startDraws := s.startDraws + 1 }

/-- Channel `c` has its half of direction `d` bound to `(if, id)`: what `Lookup` finds (rule R135). -/
def State.BoundTo (s : State) (d : Dir) (ifid : IfId) (c : Nat) : Prop :=
  c < s.nCh ∧ (s.half c d).bound = true ∧ (s.half c d).bind = ifid

/-- A unit but for its bytes: "`u.cap` is fixed for the life of the unit" (rule R181). -/
def TransferUnit.shape (x : TransferUnit) : Word × IfId × Nat × Nat :=
  (x.handle, x.ifid, x.cap, x.len)

/-- Every unit keeps everything but its bytes, and stays live or stays dead. -/
def KeepsUnitShapes (s t : State) : Prop :=
  ∀ u, (t.unitOf u).map TransferUnit.shape = (s.unitOf u).map TransferUnit.shape

/-- A half without its ring memory: its registers and flags. -/
def Half.registers (h : Half) : Half := { h with ring := [] }

/-- Every register and flag of every half is unchanged but those of `P`. -/
def KeepsRegistersBut (s t : State) (P : Nat → Dir → Prop) : Prop :=
  ∀ c d, ¬ P c d → (t.half c d).registers = (s.half c d).registers

/-- Only bytes of memory `sp` at offsets `o` to `o + n - 1` changed. -/
structure OnlyBytes (s t : State) (sp : Space) (o n : Nat) : Prop where
  bytes : KeepsBytesBut s t (fun sp' o' => sp' = sp ∧ o ≤ o' ∧ o' < o + n)
  halves : KeepsRegistersBut s t (fun _ _ => False)
  loops : KeepsLoopsBut s t (fun _ => False)
  tunables : KeepsTunables s t
  units : KeepsUnitShapes s t
  pool : t.pool = s.pool
  rest : KeepsRest s t
  sent : Sent s t []

/-! ## Packets -/

/-- The illegal packets of rule R71, as the rule lists them: reserved opcode, wrong port, a header bit
outside the row's fields, `ch ≥ N_CH`, `idx > 17` for `RDREG`, a must-be-zero operand bit of `HW_PARAMS`
or `CONNECT`, a padding byte of the argument string. `h` is the header word, `p k` operand word `k`. -/
def IllegalPacket (nCh : Nat) (port : Port) (h : Word) (ps : List Word) : Prop :=
  let op := (h.extractLsb' 24 8).toNat
  let ch := (h.extractLsb' 16 8).toNat
  let idx := (h.extractLsb' 0 8).toNat
  let onClient := (0x01 ≤ op ∧ op ≤ 0x09) ∨ (0x10 ≤ op ∧ op ≤ 0x13)
  let onBus := 0x20 ≤ op ∧ op ≤ 0x23
  let onInternal := op = 0x40 ∨ (0x50 ≤ op ∧ op ≤ 0x53)
  let halfOp := (0x01 ≤ op ∧ op ≤ 0x08) ∨ op = 0x40
  ¬ (onClient ∨ onBus ∨ onInternal) ∨
  (onClient ∧ port ≠ .client) ∨ (onBus ∧ port ≠ .bus) ∨ (onInternal ∧ port ≠ .internal) ∨
  (halfOp ∧ h.extractLsb' 0 15 ≠ 0) ∨
  (op = 0x09 ∧ h.extractLsb' 8 7 ≠ 0) ∨
  (0x10 ≤ op ∧ op ≤ 0x13 ∧ h.extractLsb' 0 16 ≠ 0) ∨
  ((onBus ∨ (0x50 ≤ op ∧ op ≤ 0x53)) ∧ h.extractLsb' 0 24 ≠ 0) ∨
  ((onClient ∨ op = 0x40) ∧ nCh ≤ ch) ∨
  (op = 0x09 ∧ 17 < idx) ∨
  (op = 0x02 ∧ ∃ p0, ps[0]? = some p0 ∧ p0.extractLsb' 25 7 ≠ 0) ∨
  (op = 0x20 ∧ ∃ p1, ps[1]? = some p1 ∧ p1.extractLsb' 1 31 ≠ 0) ∨
  (op = 0x20 ∧ ∃ p4, ps[4]? = some p4 ∧ p4.extractLsb' 8 24 ≠ 0) ∨
  (op = 0x20 ∧ ∃ p4 w k, ps[4]? = some p4 ∧ ps[5 + k / 4]? = some w ∧ p4.toNat ≤ k ∧
    w.extractLsb' (8 * (k % 4)) 8 ≠ 0)

/-! ## Sequences of copies -/

/-- A sequence of `COPY_FRAMES` operations on one half, each on a unit of its own: the state after them
and how many returned true (rule R99 (f)). -/
def copyRun (c : Nat) (d : Dir) : List (Word × Nat) → State → Except Fault (State × Nat)
  | [], s => .ok (s, 0)
  | (u, n) :: rest, s =>
    match s.copyFrames c d u n with
    | .error f => .error f
    | .ok (s1, crossed) =>
      match copyRun c d rest s1 with
      | .error f => .error f
      | .ok (t, k) => .ok (t, (if crossed then 1 else 0) + k)

/-- The frames a sequence of copies moves. -/
def framesMoved (l : List (Word × Nat)) : Nat := (l.map (fun x => x.2)).sum

/-- Half `h` became `h'` by moving `n` frames: positions as rules R93 and R94 say, every other register
unchanged. What happened to the ring memory is said of its bytes. -/
structure Moved (h h' : Half) (n : Nat) : Prop where
  bufPos : h'.bufPos.toNat = (h.bufPos.toNat + n) % h.ringFrames.toNat
  perPos : h'.perPos.toNat =
    if h.periodFrames.toNat ≤ h.perPos.toNat + n then h.perPos.toNat + n - h.periodFrames.toNat
    else h.perPos.toNat + n
  others : h' = { h with bufPos := h'.bufPos, perPos := h'.perPos, ring := h'.ring }

/-- Byte `j` of a transfer corresponds to this offset of the ring memory (rule R99 (g)). -/
def Half.ringOffset (h : Half) (j : Nat) : Nat :=
  (h.bufPos.toNat * h.frameBytes.toNat + j) % (h.ringFrames.toNat * h.frameBytes.toNat)

/-- The bytes of a capture of `n` frames (rules R91, R99 (g)): the unit's bytes, permuted within their
samples, lie in the ring from `BUFPOS` on, and every other byte reads as before. -/
structure Captured (s t : State) (c : Nat) (u : Word) (n : Nat) : Prop where
  moved : ∀ j, j < n * (s.half c .rx).frameBytes.toNat →
    t.readByte (.ring c .rx) ((s.half c .rx).ringOffset j) =
      s.readByte (.unit u) ((s.half c .rx).codec.srcIndex j)
  others : KeepsBytesBut s t (fun sp o => sp = .ring c .rx ∧
    ∃ j, j < n * (s.half c .rx).frameBytes.toNat ∧ o = (s.half c .rx).ringOffset j)

/-- The bytes of a playback of `n` frames (rules R92, R99 (g)). -/
def PlayedBack (s t : State) (c : Nat) (u : Word) (n : Nat) : Prop :=
  ∀ j, j < n * (s.half c .tx).frameBytes.toNat →
    t.readByte (.unit u) j =
      s.readByte (.ring c .tx) ((s.half c .tx).ringOffset ((s.half c .tx).codec.srcIndex j))

/-- The premises P1 to P7 of rule R96 on a copy of `n` frames between half `(c, d)` and unit `x`, in the rule's
words, and the clause on a delivered unit that U20 adds to P6 (log entry 31). -/
structure CopyPremises (h : Half) (x : TransferUnit) (d : Dir) (n : Nat) : Prop where
  codec_bound : h.codecValid = true
  frame_bytes : 0 < h.frameBytes.toNat
  ring_frames : 0 < h.ringFrames.toNat
  period_frames : 0 < h.periodFrames.toNat
  in_ring : h.bufPos.toNat < h.ringFrames.toNat
  in_period : h.perPos.toNat < h.periodFrames.toNat
  le_ring : n ≤ h.ringFrames.toNat
  le_period : n ≤ h.periodFrames.toNat
  in_unit : n * h.frameBytes.toNat ≤ x.cap
  /-- P7 -/
  in_memory : h.ringFrames.toNat * h.frameBytes.toNat ≤ h.ringSize
  delivered : d = .rx → n * h.frameBytes.toNat ≤ x.len
  /-- rule R176 (c), U20 -/
  len_in_cap : d = .rx → x.len ≤ x.cap

end Sys2Proof.Machine
end

