-- ==== Sys2Proof/Certificates/Slice0/Obligations.lean ====
section
/-! DEFINITION. The statements about the model, in the order of the spec's files. Each docstring names
the rules a statement formalises. -/

open Sys2Proof Sys2Proof.Machine

/-! ## Encodings (30_encoding.md) -/

/-- Decoding the coded form of any well-formed operation gives the operation back (rules R61 to R68). -/
def Obligations.DecodeInvertsEncode : Prop :=
  ∀ (nCh : Nat) (i : Instr), validNCh nCh → i.wf nCh = true → decode nCh (encode i) = .ok i

/-- Every packet the decoder accepts is the encoding of the operation it reads: no accepted packet has
a bit or a word that the operation does not account for (rules R61 to R67, R71). -/
def Obligations.AcceptedPacketsAreEncodings : Prop :=
  ∀ (nCh : Nat) (port : Port) (p : Packet) (i : Instr),
    decode nCh (.packet port p) = .ok i → encode i = .packet port p

/-- An illegal packet changes no state and is answered `ILLEGAL_COMMAND` (rules R71, R158). That it is
answered on the internal port too is the model's reading (log entry 16). -/
def Obligations.IllegalPacketsAreAnsweredOnly : Prop :=
  ∀ (s : State) (port : Port) (h : Word) (ps : List Word) (refs : Option CvtRefs)
    (rest : List Input), validNCh s.nCh →
    s.agenda = .packet port ⟨h :: ps, refs⟩ :: rest → IllegalPacket s.nCh port h ps →
    ∃ t, step s = .next t ∧ OnlySent { s with agenda := rest } t [answered port .illegalCommand]

/-- Each port accepts its own opcodes only (rule R75). -/
def Obligations.PortsAcceptTheirOpcodes : Prop :=
  ∀ (nCh : Nat) (port : Port) (h : Word) (ps : List Word) (refs : Option CvtRefs) (i : Instr),
    decode nCh (.packet port ⟨h :: ps, refs⟩) = .ok i →
    let op := (h.extractLsb' 24 8).toNat
    match port with
    | .client => (0x01 ≤ op ∧ op ≤ 0x09) ∨ (0x10 ≤ op ∧ op ≤ 0x13)
    | .bus => 0x20 ≤ op ∧ op ≤ 0x23
    | .internal => op = 0x40 ∨ (0x50 ≤ op ∧ op ≤ 0x53)

/-- Packets of the spec's table V-ENC decode to the operations the table gives them
(95_test_vectors.md), and so does a packet of every other row of the opcode tables (rules R62, R64, R65,
R67); the indices of `RDREG` name the registers in the order of rule R12. The operands of the `CVT` rows
stand beside the word (log entry 13). -/
def Obligations.TableVEncPacketsDecode : Prop :=
  decode 2 (.packet .client ⟨[0x01018000], none⟩) = .ok (.openHalf 1 .tx) ∧
  decode 2 (.packet .client ⟨[0x02008000, 0x00100002, 0x200, 0x80, 0x4000], none⟩) =
    .ok (.hwParams 0 .tx ⟨2, 16, .little⟩ 0x200 0x80 0x4000) ∧
  decode 2 (.packet .client ⟨[0x0901800E], none⟩) = .ok (.rdreg 1 .tx .lphase) ∧
  decode 2 (.packet .client ⟨[0x11010000, 0x80], none⟩) = .ok (.wrPpx 1 128) ∧
  decode 2 (.packet .bus
      ⟨[0x20000000, 0x00010007, 0, 0xBB80, 0x00060001, 3, 0x00306863], none⟩) =
    .ok (.connect ⟨1, 7⟩ ⟨.rx, 48000, ⟨1, 6⟩⟩ [0x63, 0x68, 0x30]) ∧
  decode 2 (.packet .bus ⟨[0x21000000, 0x00010007], none⟩) = .ok (.disconnect ⟨1, 7⟩) ∧
  decode 2 (.packet .bus ⟨[0x22000000, 0xB1], none⟩) = .ok (.rxComplete 0xB1) ∧
  decode 2 (.packet .bus ⟨[0x23000000, 0x00010007], none⟩) = .ok (.txSlotFree ⟨1, 7⟩) ∧
  decode 2 (.packet .client ⟨[0x03018000], none⟩) = .ok (.hwFree 1 .tx) ∧
  decode 2 (.packet .client ⟨[0x04018000], none⟩) = .ok (.prepare 1 .tx) ∧
  decode 2 (.packet .client ⟨[0x05018000], none⟩) = .ok (.triggerStart 1 .tx) ∧
  decode 2 (.packet .client ⟨[0x06018000], none⟩) = .ok (.triggerStop 1 .tx) ∧
  decode 2 (.packet .client ⟨[0x07018000], none⟩) = .ok (.closeHalf 1 .tx) ∧
  decode 2 (.packet .client ⟨[0x08018000], none⟩) = .ok (.pointer 1 .tx) ∧
  decode 2 (.packet .client ⟨[0x10010000], none⟩) = .ok (.rdPpx 1) ∧
  decode 2 (.packet .client ⟨[0x12010000], none⟩) = .ok (.rdBufsz 1) ∧
  decode 2 (.packet .client ⟨[0x13010000, 0x1000], none⟩) = .ok (.wrBufsz 1 4096) ∧
  decode 2 (.packet .internal ⟨[0x40018000, 0xA1, 2], none⟩) = .ok (.copyFrames 1 .tx 0xA1 2) ∧
  (let dst : MemRef := ⟨.unit 0xA1, 0⟩
   let src : MemRef := ⟨.ring 1 .tx, 12⟩
   decode 2 (.packet .internal ⟨[0x50000000], some ⟨dst, src, 12⟩⟩) = .ok (.cvtCopy dst src 12) ∧
   decode 2 (.packet .internal ⟨[0x51000000], some ⟨dst, src, 12⟩⟩) = .ok (.cvtSwap16 dst src 12) ∧
   decode 2 (.packet .internal ⟨[0x52000000], some ⟨dst, src, 12⟩⟩) = .ok (.cvtSwap24 dst src 12) ∧
   decode 2 (.packet .internal ⟨[0x53000000], some ⟨dst, src, 12⟩⟩) = .ok (.cvtSwap32 dst src 12)) ∧
  (List.range 18).map
      (fun k => decode 2 (.packet .client ⟨[0x09018000 + BitVec.ofNat 32 k], none⟩)) =
    [Reg.lstate, .flags, .codec, .frameBytes, .bufPos, .perPos, .ringFrames, .periodFrames,
      .ringHandle, .negFmt, .bind, .envRate, .envCh, .envSizeMax, .lphase, .lunit, .cfgRate,
      .cfgCh].map (fun r => .ok (.rdreg 1 .tx r))

/-- A packet at the head of the agenda that decodes runs, as `exec` of the operation it decodes to, on
the state with that input taken (rules R9, R60). -/
def Obligations.StepRunsDecodedPacket : Prop :=
  ∀ (s : State) (port : Port) (p : Packet) (rest : List Input) (i : Instr),
    s.agenda = .packet port p :: rest → decode s.nCh (.packet port p) = .ok i →
    step s = exec i { s with agenda := rest }

/-- The steps that no packet selects: `LPHASE[c]` 1 to 4 select the four steps of the Supply Loop of
`c` and `LSTATE[c,d] = 5` the close completion (rule R68); any other value selects no step, and a turn
given to an agent without a step changes nothing (the model's choice, log entry 6). -/
def Obligations.SelectorRegistersSelectSteps : Prop :=
  (∀ (s : State) (c : Nat) (rest : List Input), c < s.nCh → s.agenda = .loop c :: rest →
    (s.regValue c .tx .lphase = 1 → step s = exec (.slWait c) { s with agenda := rest }) ∧
    (s.regValue c .tx .lphase = 2 → step s = exec (.slFill c) { s with agenda := rest }) ∧
    (s.regValue c .tx .lphase = 3 → step s = exec (.slSubmit c) { s with agenda := rest }) ∧
    (s.regValue c .tx .lphase = 4 → step s = exec (.slNotify c) { s with agenda := rest }) ∧
    (s.regValue c .tx .lphase = 0 → step s = .next { s with agenda := rest })) ∧
  (∀ (s : State) (c : Nat) (d : Dir) (rest : List Input), c < s.nCh →
    s.agenda = .finish c d :: rest →
    (s.regValue c d .lstate = 5 → step s = exec (.clFinish c d) { s with agenda := rest }) ∧
    (s.regValue c d .lstate ≠ 5 → step s = .next { s with agenda := rest }))

/-- With no input left the core takes one of its own enabled steps, the one that `LPHASE` or `LSTATE`
selects (rule R68), and stays as it is when none is enabled (rules R57, R187; which one is taken first is
the model's choice, log entry 10). -/
def Obligations.CoreRunsOnWithoutInput : Prop :=
  ∀ s : State, s.agenda = [] →
    ((∃ i, step s = exec i s ∧
        ((∃ c, c < s.nCh ∧ s.loopEnabled c = true ∧
            match (s.loop c).phase with
            | .idle => False
            | .wait => i = .slWait c
            | .fill => i = .slFill c
            | .submit => i = .slSubmit c
            | .notify => i = .slNotify c) ∨
          (∃ c d, c < s.nCh ∧ s.finishEnabled c d = true ∧ (s.half c d).lstate = .closing ∧
            i = .clFinish c d))) ∨
      ((∀ c, c < s.nCh → s.loopEnabled c = false ∧ ∀ d, s.finishEnabled c d = false) ∧
        step s = .next s))

/-! ## Reset and invariants (70_reset_and_hazards.md, 10_state.md) -/

/-- After reset every register of every half reads 0, every Channel's tunables are 255 and -1, and
nothing has been sent (rules R170, R171), for every `N_CH` and `PERIOD_MAX`. That there is no transfer
unit is the model's choice (log entry 19). -/
def Obligations.ResetLeavesItsValues : Prop :=
  ∀ (nCh : Nat) (pm : Word) (c : Nat), c < nCh →
    let s := State.resetWith nCh pm
    s.nCh = nCh ∧ s.periodMax = pm ∧ (∀ d r, s.regValue c d r = 0) ∧
    (s.chan c).ppx = 255 ∧ (s.chan c).bufsz = BitVec.ofInt 32 (-1) ∧ s.out = [] ∧ s.units = []

/-- Reset satisfies the invariants (rules R34, R35), for every `N_CH` and `PERIOD_MAX`, and its memories
are canonical: the model's own form (log entry 1) of memories that the model starts empty (log
entry 19). -/
def Obligations.ResetIsSafe : Prop :=
  ∀ (nCh : Nat) (pm : Word),
    (State.resetWith nCh pm).Safe ∧ (State.resetWith nCh pm).BindingsUnique ∧
    (State.resetWith nCh pm).MemoryCanonical

/-- Every step of the core or of its environment keeps the invariants of rule R34, and that the ring of a
streaming half holds the bytes its registers name (rule R177), from every state that has them. -/
def Obligations.StepKeepsStreamsSafe : Prop :=
  ∀ s t : State, s.Safe → step s = .next t → t.Safe

/-- Every step keeps a pair bound to at most one half of each direction (rule R35). -/
def Obligations.StepKeepsBindingsUnique : Prop :=
  ∀ s t : State, s.BindingsUnique → step s = .next t → t.BindingsUnique

/-- Every step keeps the memories canonical: offsets strictly rising, unit bytes within the unit, one
record per live handle (the model's own form, log entry 1). -/
def Obligations.StepKeepsMemoryCanonical : Prop :=
  ∀ s t : State, s.MemoryCanonical → step s = .next t → t.MemoryCanonical

/-- No step creates or destroys a Channel or writes a parameter (rules R36, R5), and what was sent
stays sent (rules R32, R51). -/
def Obligations.StepKeepsChannelsAndHistory : Prop :=
  ∀ s t : State, step s = .next t →
    t.nCh = s.nCh ∧ t.periodMax = s.periodMax ∧ ∃ l, t.out = s.out ++ l

/-! ## Format Codec (40_codec.md) -/

/-- `SelectCodec` (rule R86), width by width. -/
def Obligations.CodecSelectionTable : Prop :=
  ∀ (w : BitVec 8) (e : Endian),
    selectCodec w e =
      if w = 8 then some .copy
      else if e = .big ∧ (w = 16 ∨ w = 24 ∨ w = 32) then some .copy
      else if w = 16 then some .swap16
      else if w = 24 then some .swap24
      else if w = 32 then some .swap32
      else none

/-- `CVT.COPY` (rule R81): a straight byte copy, and nothing else changes. Two memories of one kind are
covered too, which is the model's choice (log entry 14). -/
def Obligations.CvtCopyCopiesBytes : Prop :=
  ∀ (s : State) (dst src : MemRef) (n nd ns : Nat), dst.space ≠ src.space →
    s.memSize dst.space = some nd → dst.off + n ≤ nd →
    s.memSize src.space = some ns → src.off + n ≤ ns →
    ∃ t, exec (.cvtCopy dst src n) s = .next t ∧ OnlyBytes s t dst.space dst.off n ∧
      ∀ i, i < n → t.readByte dst.space (dst.off + i) = s.readByte src.space (src.off + i)

/-- `CVT.SWAP16` (rule R82): the bytes of each 2-byte group are swapped, and nothing else changes. Two
memories of one kind are covered too, which is the model's choice (log entry 14). -/
def Obligations.CvtSwap16SwapsPairs : Prop :=
  ∀ (s : State) (dst src : MemRef) (n nd ns : Nat), dst.space ≠ src.space → n % 2 = 0 →
    s.memSize dst.space = some nd → dst.off + n ≤ nd →
    s.memSize src.space = some ns → src.off + n ≤ ns →
    ∃ t, exec (.cvtSwap16 dst src n) s = .next t ∧ OnlyBytes s t dst.space dst.off n ∧
      ∀ k, k < n / 2 →
        t.readByte dst.space (dst.off + 2 * k) = s.readByte src.space (src.off + 2 * k + 1) ∧
        t.readByte dst.space (dst.off + 2 * k + 1) = s.readByte src.space (src.off + 2 * k)

/-- `CVT.SWAP24` (rule R83): `[a,b,c]` becomes `[c,b,a]` in each 3-byte group, and nothing else
changes. Two memories of one kind are covered too, which is the model's choice (log entry 14). -/
def Obligations.CvtSwap24ReversesTriples : Prop :=
  ∀ (s : State) (dst src : MemRef) (n nd ns : Nat), dst.space ≠ src.space → n % 3 = 0 →
    s.memSize dst.space = some nd → dst.off + n ≤ nd →
    s.memSize src.space = some ns → src.off + n ≤ ns →
    ∃ t, exec (.cvtSwap24 dst src n) s = .next t ∧ OnlyBytes s t dst.space dst.off n ∧
      ∀ k, k < n / 3 →
        t.readByte dst.space (dst.off + 3 * k) = s.readByte src.space (src.off + 3 * k + 2) ∧
        t.readByte dst.space (dst.off + 3 * k + 1) = s.readByte src.space (src.off + 3 * k + 1) ∧
        t.readByte dst.space (dst.off + 3 * k + 2) = s.readByte src.space (src.off + 3 * k)

/-- `CVT.SWAP32` (rule R84): the bytes of each 4-byte group are reversed, and nothing else changes. Two
memories of one kind are covered too, which is the model's choice (log entry 14). -/
def Obligations.CvtSwap32ReversesWords : Prop :=
  ∀ (s : State) (dst src : MemRef) (n nd ns : Nat), dst.space ≠ src.space → n % 4 = 0 →
    s.memSize dst.space = some nd → dst.off + n ≤ nd →
    s.memSize src.space = some ns → src.off + n ≤ ns →
    ∃ t, exec (.cvtSwap32 dst src n) s = .next t ∧ OnlyBytes s t dst.space dst.off n ∧
      ∀ k j, k < n / 4 → j < 4 →
        t.readByte dst.space (dst.off + 4 * k + j) =
          s.readByte src.space (src.off + 4 * k + (3 - j))

/-- Where a codec micro-operation does not convert: a byte count that is no multiple of the group size is
`fault(CodecLength)` whatever the operands (rule R87); overlapping ranges of one memory are rejected with
a result code and nothing changes (U4). The code `ILLEGAL_COMMAND` and its port are the model's choice
(log entry 29). -/
def Obligations.CvtStopsOutsideItsContract : Prop :=
  ∀ (s : State) (dst src : MemRef) (n : Nat),
    (n % 2 ≠ 0 → exec (.cvtSwap16 dst src n) s = .fault .codecLength) ∧
    (n % 3 ≠ 0 → exec (.cvtSwap24 dst src n) s = .fault .codecLength) ∧
    (n % 4 ≠ 0 → exec (.cvtSwap32 dst src n) s = .fault .codecLength) ∧
    (dst.space = src.space → dst.off < src.off + n → src.off < dst.off + n →
      AnswersOnly s (.cvtCopy dst src n) .internal .illegalCommand ∧
      (n % 2 = 0 → AnswersOnly s (.cvtSwap16 dst src n) .internal .illegalCommand) ∧
      (n % 3 = 0 → AnswersOnly s (.cvtSwap24 dst src n) .internal .illegalCommand) ∧
      (n % 4 = 0 → AnswersOnly s (.cvtSwap32 dst src n) .internal .illegalCommand))

/-- Each codec is its own inverse (rule R85): converting a range and converting the result back leaves
every byte of the source as it was. Two memories of one kind are covered too, which is the model's choice
(log entry 14). -/
def Obligations.CodecsAreInvolutions : Prop :=
  ∀ (s : State) (sel : Codec) (dst src : MemRef) (n nd ns : Nat), dst.space ≠ src.space →
    n % sel.group = 0 →
    s.memSize dst.space = some nd → dst.off + n ≤ nd →
    s.memSize src.space = some ns → src.off + n ≤ ns →
    let i := fun (x y : MemRef) => match sel with
      | .copy => Instr.cvtCopy x y n
      | .swap16 => Instr.cvtSwap16 x y n
      | .swap24 => Instr.cvtSwap24 x y n
      | .swap32 => Instr.cvtSwap32 x y n
    ∃ t1 t2, exec (i dst src) s = .next t1 ∧ exec (i src dst) t1 = .next t2 ∧
      ∀ o, t2.readByte src.space o = s.readByte src.space o

/-- Cutting a conversion at a group boundary does not change the bytes (rule R89). -/
def Obligations.ConvertSplitsAtGroups : Prop :=
  ∀ (sel : Codec) (m : Memory) (dstOff srcOff n1 n2 : Nat) (src : Nat → Byte),
    n1 % sel.group = 0 →
    convert sel m dstOff src srcOff (n1 + n2) =
      match convert sel m dstOff src srcOff n1 with
      | .error f => .error f
      | .ok m1 => convert sel m1 (dstOff + n1) src (srcOff + n1) n2

/-! ## Ring Buffer Copier (41_copier.md) -/

/-- `COPY_FRAMES` on an RX half (rules R90, R91, R93, R94, R99 (g)): the ring bytes, the positions and
the Boolean, and nothing else changes. The field that holds the Boolean, `copyElapsed`, is the model's
choice (log entry 5). -/
def Obligations.CopyFramesCapturesIntoRing : Prop :=
  ∀ (s : State) (c : Nat) (u n : Word) (x : TransferUnit), c < s.nCh → s.unitOf u = some x →
    CopyPremises (s.half c .rx) x .rx n.toNat →
    (s.half c .rx).frameBytes.toNat % (s.half c .rx).codec.group = 0 →
    ∃ t, exec (.copyFrames c .rx u n) s = .next t ∧
      Captured s t c u n.toNat ∧ Moved (s.half c .rx) (t.half c .rx) n.toNat ∧
      t.copyElapsed =
        decide ((s.half c .rx).periodFrames.toNat ≤ (s.half c .rx).perPos.toNat + n.toNat) ∧
      KeepsHalvesBut s t (fun c' d' => c' = c ∧ d' = .rx) ∧ KeepsLoopsBut s t (fun _ => False) ∧
      KeepsTunables s t ∧ KeepsUnits s t ∧
      KeepsRest s { t with copyElapsed := s.copyElapsed } ∧ Sent s t []

/-- `COPY_FRAMES` on a TX half (rules R90, R92, R93, R94, R99 (g)): the unit's bytes, the positions and
the Boolean, and nothing else changes. The field that holds the Boolean, `copyElapsed`, is the model's
choice (log entry 5). -/
def Obligations.CopyFramesPlaysBackFromRing : Prop :=
  ∀ (s : State) (c : Nat) (u n : Word) (x : TransferUnit), c < s.nCh → s.unitOf u = some x →
    CopyPremises (s.half c .tx) x .tx n.toNat →
    (s.half c .tx).frameBytes.toNat % (s.half c .tx).codec.group = 0 →
    ∃ t, exec (.copyFrames c .tx u n) s = .next t ∧
      PlayedBack s t c u n.toNat ∧
      KeepsBytesBut s t
        (fun sp o => sp = .unit u ∧ o < n.toNat * (s.half c .tx).frameBytes.toNat) ∧
      Moved (s.half c .tx) (t.half c .tx) n.toNat ∧
      t.copyElapsed =
        decide ((s.half c .tx).periodFrames.toNat ≤ (s.half c .tx).perPos.toNat + n.toNat) ∧
      KeepsHalvesBut s t (fun c' d' => c' = c ∧ d' = .tx) ∧ KeepsLoopsBut s t (fun _ => False) ∧
      KeepsTunables s t ∧ KeepsUnitShapes s t ∧ t.pool = s.pool ∧
      KeepsRest s { t with copyElapsed := s.copyElapsed } ∧ Sent s t []

/-- A broken premise of the copier is `fault(CopyPremise)` (rules R96, R169), whoever calls it: a bare
`COPY_FRAMES`, `SL.FILL` of a running stream (rule R122), `RX_COMPLETE` on a running half (rule R133).
That `u.len ≤ u.cap` is part of P6 is the model's reading of U20 (log entry 31); P7 is about the size that
rule R177 gives the ring (log entry 17). -/
def Obligations.BrokenCopyPremiseFaults : Prop :=
  (∀ (s : State) (c : Nat) (d : Dir) (u n : Word) (x : TransferUnit), s.unitOf u = some x →
    ¬ CopyPremises (s.half c d) x d n.toNat →
    exec (.copyFrames c d u n) s = .fault .copyPremise) ∧
  (∀ (s : State) (c : Nat) (x : TransferUnit), (s.loop c).phase = .fill →
    s.unitOf (s.loop c).lunit = some x → (s.half c .tx).running = true →
    ¬ CopyPremises (s.half c .tx) x .tx (x.cap / (s.half c .tx).frameBytes.toNat) →
    exec (.slFill c) s = .fault .copyPremise) ∧
  (∀ (s : State) (u : Word) (x : TransferUnit) (c : Nat), s.BindingsUnique →
    s.unitOf u = some x → s.BoundTo .rx x.ifid c → (s.half c .rx).running = true →
    ¬ CopyPremises (s.half c .rx) x .rx (x.len / (s.half c .rx).frameBytes.toNat) →
    exec (.rxComplete u) s = .fault .copyPremise)

/-- Chunking invariance (rule R99 (f)): however the frames are cut into copies, from `PERPOS = 0` the
period is reported once per `PERIOD_FRAMES` frames moved, and the positions depend on the total. -/
def Obligations.PeriodsDoNotDependOnChunking : Prop :=
  ∀ (s t : State) (c : Nat) (d : Dir) (l : List (Word × Nat)) (k : Nat), c < s.nCh →
    (s.half c d).perPos = 0 → (s.half c d).bufPos.toNat < (s.half c d).ringFrames.toNat →
    copyRun c d l s = .ok (t, k) →
    k = framesMoved l / (s.half c d).periodFrames.toNat ∧
    (t.half c d).perPos.toNat = framesMoved l % (s.half c d).periodFrames.toNat ∧
    (t.half c d).bufPos.toNat =
      ((s.half c d).bufPos.toNat + framesMoved l) % (s.half c d).ringFrames.toNat

/-- The Sequencer never breaks the codec's contract (rule R87): in a state with the invariants of rule
R34 no fill and no capture ends in `fault(CodecLength)`. -/
def Obligations.SequencerKeepsCodecContract : Prop :=
  ∀ (s : State), s.Safe →
    (∀ c, exec (.slFill c) s ≠ .fault .codecLength) ∧
    (∀ u, exec (.rxComplete u) s ≠ .fault .codecLength) ∧
    (∀ c d u n, exec (.copyFrames c d u n) s ≠ .fault .codecLength)

/-! ## Trigger/Lifecycle Protocol (42_lifecycle.md) -/

/-- `OPEN` (rule R101). -/
def Obligations.OpenCapturesEnvelope : Prop :=
  ∀ (s : State) (c : Nat) (d : Dir), c < s.nCh →
    let h := s.half c d
    (h.lstate ≠ .closed → AnswersOnly s (.openHalf c d) .client .badState) ∧
    (h.lstate = .closed → h.bound = false →
      AnswersOnly s (.openHalf c d) .client .notConnected) ∧
    (h.lstate = .closed → h.bound = true →
      ∃ t, exec (.openHalf c d) s = .next t ∧
        OnlyHalf s t c d
          { h with
            envRate := h.cfgRate
            envCh := h.cfgCh
            envSizeMax :=
              if (s.chan c).bufsz = BitVec.ofInt 32 (-1) then s.periodMax else (s.chan c).bufsz
            lstate := .opened }
          [answered .client .ok])

/-- `HW_PARAMS` (rule R102). -/
def Obligations.HwParamsLatchesParameters : Prop :=
  ∀ (s : State) (c : Nat) (d : Dir) (fmt : Fmt) (rf pf rh : Word), c < s.nCh →
    let h := s.half c d
    let i := Instr.hwParams c d fmt rf pf rh
    let inEnvelope := h.envCh.lo ≤ fmt.channels ∧ fmt.channels ≤ h.envCh.hi
    let nonZero := fmt.channels ≠ 0 ∧ rf ≠ 0 ∧ pf ≠ 0
    (h.lstate ≠ .opened → AnswersOnly s i .client .badState) ∧
    (h.lstate = .opened → ¬ (inEnvelope ∧ nonZero) →
      AnswersOnly s i .client .invalidParameter) ∧
    (h.lstate = .opened → inEnvelope → nonZero →
      ∃ t, exec i s = .next t ∧
        OnlyHalf s t c d
          { h with
            negFmt := fmt
            ringFrames := rf
            periodFrames := pf
            ringHandle := rh
            ringAlloc := true }
          [answered .client .ok])

/-- `HW_FREE` (rule R103). -/
def Obligations.HwFreeReleasesRing : Prop :=
  ∀ (s : State) (c : Nat) (d : Dir), c < s.nCh →
    let h := s.half c d
    (h.lstate ≠ .opened → AnswersOnly s (.hwFree c d) .client .badState) ∧
    (h.lstate = .opened →
      ∃ t, exec (.hwFree c d) s = .next t ∧
        OnlyHalf s t c d { h with ringAlloc := false } [answered .client .ok])

/-- `PREPARE` where it is refused or no codec matches (rules R104, R152 (b), R157). -/
def Obligations.PrepareRejectsAndUnbindsCodec : Prop :=
  ∀ (s : State) (c : Nat) (d : Dir), c < s.nCh →
    let h := s.half c d
    (h.lstate ≠ .opened ∨ h.ringAlloc = false →
      AnswersOnly s (.prepare c d) .client .badState) ∧
    (h.lstate = .opened → h.ringAlloc = true →
      h.negFmt.width ≠ 8 → h.negFmt.width ≠ 16 → h.negFmt.width ≠ 24 → h.negFmt.width ≠ 32 →
      ∃ t, exec (.prepare c d) s = .next t ∧
        OnlyHalf s t c d { h with codec := .copy, codecValid := false }
          [answered .client .invalidParameter])

/-- `PREPARE` with a codec (rules R104, R86): the codec, `FRAME_BYTES` and the zeroed positions are
written; the loop of a TX half is started; the bus channel is asked to start where there is a binding;
on `ok` the stream is prepared, on `error` or without a binding the loop is stopped again and the
answer is `DEVICE_BUSY`. The bus layer's answer may be either (a free value, log entry 2). -/
def Obligations.PrepareStartsStream : Prop :=
  ∀ (s : State) (c : Nat) (d : Dir) (sel : Codec), c < s.nCh →
    let h := s.half c d
    let h1 : Half :=
      { h with
        codec := sel
        codecValid := true
        frameBytes := BitVec.ofNat 32 (h.negFmt.width.toNat / 8 * h.negFmt.channels.toNat)
        bufPos := 0
        perPos := 0 }
    let lp (p : LPhase) : Loop := match d with
      | .rx => s.loop c
      | .tx => { s.loop c with pe := false, lunit := 0, phase := p }
    h.lstate = .opened → h.ringAlloc = true →
    selectCodec h.negFmt.width h.negFmt.endian = some sel →
    (h.bound = false →
      ∃ t, exec (.prepare c d) s = .next t ∧
        OnlyChannel s t c d h1 (lp .idle) [answered .client .deviceBusy]) ∧
    (h.bound = true → s.nextStartAnswer = false →
      ∃ t, exec (.prepare c d) s = .next t ∧
        OnlyChannel s.afterStartAnswer t c d h1 (lp .idle)
          [.startChannel h.bind (s.chan c).ppx false, answered .client .deviceBusy]) ∧
    (h.bound = true → s.nextStartAnswer = true →
      ∃ t, exec (.prepare c d) s = .next t ∧
        OnlyChannel s.afterStartAnswer t c d { h1 with started := true, lstate := .prepared }
          (lp .wait) [.startChannel h.bind (s.chan c).ppx true, answered .client .ok])

/-- `TRIGGER_START` (rule R105). -/
def Obligations.TriggerStartRuns : Prop :=
  ∀ (s : State) (c : Nat) (d : Dir), c < s.nCh →
    let h := s.half c d
    (h.lstate ≠ .prepared → h.lstate ≠ .stopped →
      AnswersOnly s (.triggerStart c d) .client .badState) ∧
    (h.lstate = .prepared ∨ h.lstate = .stopped → h.bound = false →
      AnswersOnly s (.triggerStart c d) .client .notConnected) ∧
    (h.lstate = .prepared ∨ h.lstate = .stopped → h.bound = true →
      ∃ t, exec (.triggerStart c d) s = .next t ∧
        OnlyHalf s t c d { h with running := true, lstate := .running } [answered .client .ok])

/-- `TRIGGER_STOP` (rule R106). -/
def Obligations.TriggerStopStops : Prop :=
  ∀ (s : State) (c : Nat) (d : Dir), c < s.nCh →
    let h := s.half c d
    (h.lstate ≠ .running → AnswersOnly s (.triggerStop c d) .client .badState) ∧
    (h.lstate = .running →
      ∃ t, exec (.triggerStop c d) s = .next t ∧
        OnlyHalf s t c d { h with running := false, lstate := .stopped } [answered .client .ok])

/-- `CLOSE`, its acceptance (rule R107): the stop signal goes to a loop that exists, and no answer is
given yet. -/
def Obligations.CloseIsAcceptedWithoutAnswer : Prop :=
  ∀ (s : State) (c : Nat) (d : Dir), c < s.nCh →
    let h := s.half c d
    let accepted := h.lstate = .opened ∨ h.lstate = .prepared ∨ h.lstate = .stopped
    (¬ accepted → AnswersOnly s (.closeHalf c d) .client .badState) ∧
    (accepted →
      ∃ t, exec (.closeHalf c d) s = .next t ∧
        OnlyChannel s t c d { h with lstate := .closing }
          (if d = .tx ∧ (s.loop c).phase ≠ .idle then { s.loop c with stopReq := true }
            else s.loop c) [])

/-- `CL.FINISH` (rule R108): enabled exactly when the half is closing and its loop is gone; then it
sends `STOP_CHANNEL` if the channel was started and is still bound, clears the flags, and answers the
pending `CLOSE`. Where it is not enabled nothing happens (the model's choice, log entry 6). -/
def Obligations.ClFinishCompletesClose : Prop :=
  ∀ (s : State) (c : Nat) (d : Dir), c < s.nCh →
    let h := s.half c d
    let enabled := h.lstate = .closing ∧ (d = .rx ∨ (s.loop c).phase = .idle)
    (¬ enabled → exec (.clFinish c d) s = .next s) ∧
    (enabled →
      ∃ t, exec (.clFinish c d) s = .next t ∧
        OnlyChannel s t c d
          { h with started := false, ringAlloc := false, lstate := .closed }
          (match d with
            | .rx => s.loop c
            | .tx => { s.loop c with stopReq := false })
          ((if h.started = true ∧ h.bound = true then [.stopChannel h.bind] else []) ++
            [.answer (.close c d) 0 0]))

/-- `POINTER` (rule R109) is accepted in every state and returns `BUFPOS`; nothing changes. -/
def Obligations.PointerReturnsBufpos : Prop :=
  ∀ (s : State) (c : Nat) (d : Dir), c < s.nCh →
    ∃ t, exec (.pointer c d) s = .next t ∧
      OnlySent s t [.answer (.packet .client) 0 (s.half c d).bufPos]

/-- `RDREG` (rules R110, R12, R14, R17) is accepted in every state and returns the register: the
packed `FLAGS` word bit by bit, `LPHASE` and `LUNIT` of a TX half and 0 of an RX half, and the others
as they are; nothing changes. -/
def Obligations.RdregReturnsRegister : Prop :=
  ∀ (s : State) (c : Nat) (d : Dir) (r : Reg), c < s.nCh →
    let h := s.half c d
    ∃ t v, exec (.rdreg c d r) s = .next t ∧ OnlySent s t [.answer (.packet .client) 0 v] ∧
      match r with
      | .lstate => v = h.lstate.toWord
      | .flags =>
        v.getLsbD 0 = h.running ∧ v.getLsbD 1 = h.started ∧ v.getLsbD 2 = h.bound ∧
        v.getLsbD 3 = h.ringAlloc ∧ v.getLsbD 4 = decide (h.lstate ≠ .closed) ∧
        v.getLsbD 5 = h.codecValid ∧ v.getLsbD 6 = (decide (d = .tx) && (s.loop c).stopReq) ∧
        v.getLsbD 7 = (decide (d = .tx) && (s.loop c).pe) ∧ v.toNat < 256
      | .codec => v = h.codec.toWord
      | .frameBytes => v = h.frameBytes
      | .bufPos => v = h.bufPos
      | .perPos => v = h.perPos
      | .ringFrames => v = h.ringFrames
      | .periodFrames => v = h.periodFrames
      | .ringHandle => v = h.ringHandle
      | .negFmt =>
        v.extractLsb' 0 16 = h.negFmt.channels ∧ v.extractLsb' 16 8 = h.negFmt.width ∧
        v.getLsbD 24 = decide (h.negFmt.endian = .big) ∧ v.extractLsb' 25 7 = 0
      | .bind => v.extractLsb' 16 16 = h.bind.ifh ∧ v.extractLsb' 0 16 = h.bind.id
      | .envRate => v = h.envRate
      | .envCh => v.extractLsb' 0 16 = h.envCh.lo ∧ v.extractLsb' 16 16 = h.envCh.hi
      | .envSizeMax => v = h.envSizeMax
      | .lphase => v = if d = .tx then (s.loop c).phase.toWord else 0
      | .lunit => v = if d = .tx then (s.loop c).lunit else 0
      | .cfgRate => v = h.cfgRate
      | .cfgCh => v.extractLsb' 0 16 = h.cfgCh.lo ∧ v.extractLsb' 16 16 = h.cfgCh.hi

/-- The numbers software reads for the states, phases and codecs (rules R13, R25, R18), and the
`RESULT` words (rules R69, R150). -/
def Obligations.NumbersSoftwareSees : Prop :=
  (LState.closed.toWord = 0 ∧ LState.opened.toWord = 1 ∧ LState.prepared.toWord = 2 ∧
    LState.running.toWord = 3 ∧ LState.stopped.toWord = 4 ∧ LState.closing.toWord = 5) ∧
  (LPhase.idle.toWord = 0 ∧ LPhase.wait.toWord = 1 ∧ LPhase.fill.toWord = 2 ∧
    LPhase.submit.toWord = 3 ∧ LPhase.notify.toWord = 4) ∧
  (Codec.copy.toWord = 0 ∧ Codec.swap16.toWord = 1 ∧ Codec.swap24.toWord = 2 ∧
    Codec.swap32.toWord = 3) ∧
  (Result.ok.toWord = 0x00000000 ∧ Result.notConnected.toWord = 0xFFFFFFFF ∧
    Result.invalidParameter.toWord = 0xFFFFFFFE ∧ Result.deviceBusy.toWord = 0xFFFFFFFD ∧
    Result.invalidChannel.toWord = 0xFFFFFFFC ∧ Result.outOfResources.toWord = 0xFFFFFFFB ∧
    Result.notFound.toWord = 0xFFFFFFFA ∧ Result.badState.toWord = 0xFFFFFFF9 ∧
    Result.illegalCommand.toWord = 0xFFFFFFF8)

/-- The state machine of rule R100: whatever operation runs, the lifecycle state of a half moves only
along the table, and only by the operation the table names for that half. -/
def Obligations.LifecycleFollowsTable : Prop :=
  ∀ (i : Instr) (s t : State) (c : Nat) (d : Dir), exec i s = .next t →
    let a := (s.half c d).lstate
    let b := (t.half c d).lstate
    a = b ∨
    (i = .openHalf c d ∧ a = .closed ∧ b = .opened) ∨
    (i = .prepare c d ∧ a = .opened ∧ (s.half c d).ringAlloc = true ∧ b = .prepared) ∨
    (i = .triggerStart c d ∧ (a = .prepared ∨ a = .stopped) ∧ b = .running) ∨
    (i = .triggerStop c d ∧ a = .running ∧ b = .stopped) ∨
    (i = .closeHalf c d ∧ (a = .opened ∨ a = .prepared ∨ a = .stopped) ∧ b = .closing) ∨
    (i = .clFinish c d ∧ a = .closing ∧ b = .closed)

/-! ## Playback Supply Loop (43_supply_loop.md) -/

/-- `SL.WAIT` (rule R121): with a stop request the loop terminates and takes no unit; otherwise, while
the stream runs and is bound, it acquires the first unit of its pool (log entry 8); otherwise it stays
blocked and nothing changes (log entry 6). -/
def Obligations.SlWaitStopsAcquiresOrBlocks : Prop :=
  ∀ (s : State) (c : Nat), c < s.nCh → (s.loop c).phase = .wait →
    let l := s.loop c
    let h := s.half c .tx
    (l.stopReq = true →
      ∃ t, exec (.slWait c) s = .next t ∧ OnlyLoop s t c { l with phase := .idle } []) ∧
    (∀ u us, l.stopReq = false → h.running = true → h.bound = true → s.poolOf h.bind = u :: us →
      ∃ t, exec (.slWait c) s = .next t ∧
        OnlyLoop { s with pool := s.pool.erase u } t c { l with lunit := u, phase := .fill }
          [.acquire h.bind u]) ∧
    (l.stopReq = false → (h.running = false ∨ h.bound = false ∨ s.poolOf h.bind = []) →
      exec (.slWait c) s = .next s)

/-- `SL.FILL` of a running stream (rules R122, R92, R98): the unit's bytes are the ring's next frames
through the codec, its tail is zero, the positions advance, and `PE` says whether the period was
crossed. -/
def Obligations.SlFillDrainsRing : Prop :=
  ∀ (s : State) (c : Nat) (x : TransferUnit), c < s.nCh → (s.loop c).phase = .fill →
    s.unitOf (s.loop c).lunit = some x → (s.half c .tx).running = true →
    let l := s.loop c
    let h := s.half c .tx
    let n := x.cap / h.frameBytes.toNat
    CopyPremises h x .tx n → h.frameBytes.toNat % h.codec.group = 0 →
    ∃ t, exec (.slFill c) s = .next t ∧
      PlayedBack s t c l.lunit n ∧
      (∀ o, n * h.frameBytes.toNat ≤ o → o < x.cap → t.readByte (.unit l.lunit) o = 0) ∧
      KeepsBytesBut s t (fun sp o => sp = .unit l.lunit ∧ o < x.cap) ∧
      Moved h (t.half c .tx) n ∧
      t.loop c =
        { l with
          pe := decide (h.periodFrames.toNat ≤ h.perPos.toNat + n)
          phase := .submit } ∧
      KeepsHalvesBut s t (fun c' d' => c' = c ∧ d' = .tx) ∧ KeepsLoopsBut s t (fun c' => c' = c) ∧
      KeepsTunables s t ∧ KeepsUnitShapes s t ∧ t.pool = s.pool ∧ KeepsRest s t ∧ Sent s t []

/-- `SL.FILL` of a stream that does not run (rules R122, R127): every byte of the unit is zero and no
ring state is touched. -/
def Obligations.SlFillWritesSilence : Prop :=
  ∀ (s : State) (c : Nat) (x : TransferUnit), c < s.nCh → (s.loop c).phase = .fill →
    s.unitOf (s.loop c).lunit = some x → (s.half c .tx).running = false →
    let l := s.loop c
    ∃ t, exec (.slFill c) s = .next t ∧
      (∀ o, o < x.cap → t.readByte (.unit l.lunit) o = 0) ∧
      KeepsBytesBut s t (fun sp o => sp = .unit l.lunit ∧ o < x.cap) ∧
      t.loop c = { l with pe := false, phase := .submit } ∧
      KeepsHalvesBut s t (fun _ _ => False) ∧ KeepsLoopsBut s t (fun c' => c' = c) ∧
      KeepsTunables s t ∧ KeepsUnitShapes s t ∧ t.pool = s.pool ∧ KeepsRest s t ∧ Sent s t []

/-- `SL.SUBMIT` (rule R123). -/
def Obligations.SlSubmitHandsUnitBack : Prop :=
  ∀ (s : State) (c : Nat), c < s.nCh → (s.loop c).phase = .submit →
    ∃ t, exec (.slSubmit c) s = .next t ∧
      OnlyLoop s t c { s.loop c with lunit := 0, phase := .notify } [.submit (s.loop c).lunit]

/-- `SL.NOTIFY` (rule R124). -/
def Obligations.SlNotifyReportsPeriod : Prop :=
  ∀ (s : State) (c : Nat), c < s.nCh → (s.loop c).phase = .notify →
    ∃ t, exec (.slNotify c) s = .next t ∧
      OnlyLoop s t c { s.loop c with pe := false, phase := .wait }
        (if (s.loop c).pe = true then [.periodElapsed c .tx] else [])

/-- An accepted `CLOSE` of a playback half is answered (rules R187, R182, R125): from any phase of the
loop, four turns of the loop and one of the close completion end with the loop gone, the half closed
and the answer given, provided the bus layer keeps the held unit alive (rule R181). -/
def Obligations.AcceptedCloseIsAnswered : Prop :=
  ∀ (s : State) (c : Nat), c < s.nCh → s.Safe → (s.half c .tx).lstate = .closing →
    ((s.loop c).phase = .fill → (s.unitOf (s.loop c).lunit).isSome = true) →
    ∃ t, Sys2Proof.core.run 5
        { s with agenda := [.loop c, .loop c, .loop c, .loop c, .finish c .tx] } = .next t ∧
      (t.half c .tx).lstate = .closed ∧ (t.loop c).phase = .idle ∧ (t.loop c).stopReq = false ∧
      .answer (.close c .tx) 0 0 ∈ t.out.drop s.out.length

/-! ## Bus events (44_bus_events.md) -/

/-- `ParseId` (rule R131): the first maximal run of ASCII digits (log entry 20), read as an unbounded
decimal number; none when the string has no digit. -/
def Obligations.ParseIdReadsFirstDigitRun : Prop :=
  let digit : Byte → Prop := fun b => 0x30 ≤ b.toNat ∧ b.toNat ≤ 0x39
  (∀ args : List Byte, (∀ b ∈ args, ¬ digit b) → parseId args = none) ∧
  (∀ pre run post : List Byte, (∀ b ∈ pre, ¬ digit b) → run ≠ [] → (∀ b ∈ run, digit b) →
    (∀ b ∈ post.head?, ¬ digit b) →
    parseId (pre ++ run ++ post) =
      some (run.foldl (fun acc b => 10 * acc + (b.toNat - 0x30)) 0))

/-- `CONNECT` (rule R130): the errors in the rule's order, each with no effect, and the binding. -/
def Obligations.ConnectBindsHalf : Prop :=
  ∀ (s : State) (ifid : IfId) (cfg : BusCfg) (args : List Byte),
    let i := Instr.connect ifid cfg args
    (parseId args = none → AnswersOnly s i .bus .invalidParameter) ∧
    (∀ c, parseId args = some c → s.nCh ≤ c → AnswersOnly s i .bus .notFound) ∧
    (∀ c, parseId args = some c → c < s.nCh →
      ((s.half c cfg.dir).bound = true ∨ ∃ c', s.BoundTo cfg.dir ifid c') →
      AnswersOnly s i .bus .deviceBusy) ∧
    (∀ c, parseId args = some c → c < s.nCh → (s.half c cfg.dir).bound = false →
      (∀ c', ¬ s.BoundTo cfg.dir ifid c') →
      ∃ t, exec i s = .next t ∧
        OnlyHalf s t c cfg.dir
          { s.half c cfg.dir with
            bind := ifid
            cfgRate := cfg.rate
            cfgCh := cfg.ch
            bound := true }
          [answered .bus .ok])

/-- `DISCONNECT` (rule R132), bindings being unique (rule R35): the binding of every half of either
direction that is bound to the pair is cleared, and nothing else of any half; the answer is always
`OK`. -/
def Obligations.DisconnectClearsBindings : Prop :=
  ∀ (s : State) (ifid : IfId), s.BindingsUnique →
    ∃ t, exec (.disconnect ifid) s = .next t ∧
      (∀ c d, s.BoundTo d ifid c →
        t.half c d =
          { s.half c d with bound := false, bind := ⟨0, 0⟩, cfgRate := 0, cfgCh := ⟨0, 0⟩ }) ∧
      KeepsHalvesBut s t (fun c d => s.BoundTo d ifid c) ∧ KeepsLoopsBut s t (fun _ => False) ∧
      KeepsTunables s t ∧ KeepsUnits s t ∧ KeepsBytes s t ∧ KeepsRest s t ∧
      Sent s t [answered .bus .ok]

/-- `RX_COMPLETE` that copies nothing (rule R133): with no half bound to the unit's pair the unit is
put back and the answer is `INVALID_CHANNEL`; on a half that does not run it is put back and the answer
is `OK`. A handle of no live unit is answered `ILLEGAL_COMMAND` (U19, the model's choice, log
entry 7). That a unit put back stands last in the pool is the model's choice (log entry 8). -/
def Obligations.RxCompletePutsUnitBack : Prop :=
  ∀ (s : State) (u : Word),
    (s.unitOf u = none → AnswersOnly s (.rxComplete u) .bus .illegalCommand) ∧
    (∀ x, s.unitOf u = some x → (∀ c, ¬ s.BoundTo .rx x.ifid c) →
      ∃ t, exec (.rxComplete u) s = .next t ∧
        OnlySent { s with pool := s.pool.erase u ++ [u] } t
          [.put u, answered .bus .invalidChannel]) ∧
    (∀ x c, s.BindingsUnique → s.unitOf u = some x → s.BoundTo .rx x.ifid c →
      (s.half c .rx).running = false →
      ∃ t, exec (.rxComplete u) s = .next t ∧
        OnlySent { s with pool := s.pool.erase u ++ [u] } t [.put u, answered .bus .ok])

/-- `RX_COMPLETE` on a running half (rules R133, R91, R98): the unit's whole frames are copied into the
ring, then the unit is put back, then a crossed period is reported, then the answer is given. That a
unit put back stands last in the pool is the model's choice (log entry 8). -/
def Obligations.RxCompleteCapturesUnit : Prop :=
  ∀ (s : State) (u : Word) (x : TransferUnit) (c : Nat), s.BindingsUnique →
    s.unitOf u = some x → s.BoundTo .rx x.ifid c → (s.half c .rx).running = true →
    let h := s.half c .rx
    let n := x.len / h.frameBytes.toNat
    CopyPremises h x .rx n → h.frameBytes.toNat % h.codec.group = 0 →
    ∃ t, exec (.rxComplete u) s = .next t ∧
      Captured s t c u n ∧ Moved h (t.half c .rx) n ∧
      KeepsHalvesBut s t (fun c' d' => c' = c ∧ d' = .rx) ∧ KeepsLoopsBut s t (fun _ => False) ∧
      KeepsTunables s t ∧ t.units = s.units ∧ t.pool = s.pool.erase u ++ [u] ∧ KeepsRest s t ∧
      Sent s t
        (.put u ::
          ((if h.periodFrames.toNat ≤ h.perPos.toNat + n then [.periodElapsed c .rx] else []) ++
            [answered .bus .ok]))

/-- `TX_SLOT_FREE` (rule R134) changes no state: `OK` when a TX half is bound to the pair,
`INVALID_CHANNEL` when none is. -/
def Obligations.TxSlotFreeChangesNothing : Prop :=
  ∀ (s : State) (ifid : IfId),
    ((∃ c, s.BoundTo .tx ifid c) → AnswersOnly s (.txSlotFree ifid) .bus .ok) ∧
    ((∀ c, ¬ s.BoundTo .tx ifid c) → AnswersOnly s (.txSlotFree ifid) .bus .invalidChannel)

/-! ## Tunables (45_attributes.md) -/

/-- `RD_PPX` and `RD_BUFSZ` (rules R140, R142) return the tunable and change nothing. -/
def Obligations.TunablesAreRead : Prop :=
  ∀ (s : State) (c : Nat), c < s.nCh →
    (∃ t, exec (.rdPpx c) s = .next t ∧
      OnlySent s t [.answer (.packet .client) 0 (s.chan c).ppx]) ∧
    (∃ t, exec (.rdBufsz c) s = .next t ∧
      OnlySent s t [.answer (.packet .client) 0 (s.chan c).bufsz])

/-- `WR_PPX` and `WR_BUFSZ` (rules R141, R143) store any value, and nothing else changes. -/
def Obligations.TunablesAreWritten : Prop :=
  ∀ (s : State) (c : Nat) (v : Word), c < s.nCh →
    let keeps := fun t => KeepsHalvesBut s t (fun _ _ => False) ∧
      KeepsLoopsBut s t (fun _ => False) ∧ KeepsUnits s t ∧ KeepsBytes s t ∧ KeepsRest s t ∧
      Sent s t [answered .client .ok]
    (∃ t, exec (.wrPpx c v) s = .next t ∧ keeps t ∧
      (∀ c', (t.chan c').ppx = if c' = c then v else (s.chan c').ppx) ∧
      (∀ c', (t.chan c').bufsz = (s.chan c').bufsz)) ∧
    (∃ t, exec (.wrBufsz c v) s = .next t ∧ keeps t ∧
      (∀ c', (t.chan c').bufsz = if c' = c then v else (s.chan c').bufsz) ∧
      (∀ c', (t.chan c').ppx = (s.chan c').ppx))

/-! ## Rules about the whole machine (10_state.md, 20_memory.md, 60_exceptions.md) -/

/-- Every register group has one writer (rules R15, R16, R18, R19, R22, R23, R24): the operations that
may change `RUNNING`, `STARTED`, the codec and `FRAME_BYTES`, the negotiated parameters, the binding and
the envelope of a half. -/
def Obligations.RegistersHaveTheirWriters : Prop :=
  ∀ (i : Instr) (s t : State) (c : Nat) (d : Dir), exec i s = .next t →
    let h := s.half c d
    let h' := t.half c d
    (h'.running = h.running ∨ (i = .triggerStart c d ∧ h'.running = true) ∨
      (i = .triggerStop c d ∧ h'.running = false)) ∧
    (h'.started = h.started ∨ (i = .prepare c d ∧ h'.started = true) ∨
      (i = .clFinish c d ∧ h'.started = false)) ∧
    ((h'.codec = h.codec ∧ h'.codecValid = h.codecValid ∧ h'.frameBytes = h.frameBytes) ∨
      i = .prepare c d) ∧
    ((h'.ringFrames = h.ringFrames ∧ h'.periodFrames = h.periodFrames ∧
        h'.ringHandle = h.ringHandle ∧ h'.negFmt = h.negFmt) ∨
      ∃ fmt rf pf rh, i = .hwParams c d fmt rf pf rh) ∧
    ((h'.bound = h.bound ∧ h'.bind = h.bind ∧ h'.cfgRate = h.cfgRate ∧ h'.cfgCh = h.cfgCh) ∨
      (∃ ifid cfg args, i = .connect ifid cfg args ∧ cfg.dir = d ∧ h.bound = false ∧
        h'.bound = true) ∨
      (∃ ifid, i = .disconnect ifid ∧ h.bind = ifid ∧ h'.bound = false)) ∧
    ((h'.envRate = h.envRate ∧ h'.envCh = h.envCh ∧ h'.envSizeMax = h.envSizeMax) ∨
      i = .openHalf c d)

/-- Single mutator of positions (rules R20, R21, R54): `BUFPOS` and `PERPOS` of a half change only by
`PREPARE`, which zeroes them, and by the half's one data path: the fill step of its loop, or an
`RX_COMPLETE` for the binding of the half. A bare `COPY_FRAMES` on the internal port is the model's choice
(log entry 32). -/
def Obligations.PositionsHaveOneMutator : Prop :=
  ∀ (i : Instr) (s t : State) (c : Nat) (d : Dir), exec i s = .next t →
    let h := s.half c d
    let h' := t.half c d
    (h'.bufPos = h.bufPos ∧ h'.perPos = h.perPos) ∨
    (i = .prepare c d ∧ h'.bufPos = 0 ∧ h'.perPos = 0) ∨
    (d = .tx ∧ i = .slFill c ∧ h.running = true ∧ (s.loop c).phase = .fill) ∨
    (d = .rx ∧ h.running = true ∧ h.bound = true ∧
      ∃ u x, i = .rxComplete u ∧ s.unitOf u = some x ∧ h.bind = x.ifid) ∨
    (∃ u n, i = .copyFrames c d u n)

/-- The tunables of a Channel change only by its two write commands (rule R144). -/
def Obligations.TunablesHaveTheirWriters : Prop :=
  ∀ (i : Instr) (s t : State) (c : Nat), exec i s = .next t →
    ((t.chan c).ppx = (s.chan c).ppx ∨ ∃ v, i = .wrPpx c v) ∧
    ((t.chan c).bufsz = (s.chan c).bufsz ∨ ∃ v, i = .wrBufsz c v)

/-- `STOP_CHANNEL` is sent only by the close completion, for a channel that was started, and for a TX
half only once the Supply Loop is gone (rules R182, R56, R16). -/
def Obligations.StopChannelComesAfterLoop : Prop :=
  ∀ (i : Instr) (s t : State) (l : List Out) (ifid : IfId), exec i s = .next t →
    t.out = s.out ++ l → .stopChannel ifid ∈ l →
    ∃ c d, i = .clFinish c d ∧ (s.half c d).lstate = .closing ∧ (s.half c d).started = true ∧
      (s.half c d).bound = true ∧ (s.half c d).bind = ifid ∧
      (d = .tx → (s.loop c).phase = .idle)

/-- Errors change no state (rule R164): an operation other than `PREPARE` whose only message is an error
answer has changed nothing. -/
def Obligations.ErrorsChangeNothing : Prop :=
  ∀ (i : Instr) (s t : State) (port : Port) (w v : Word), exec i s = .next t →
    t.out = s.out ++ [.answer (.packet port) w v] → w ≠ 0 → (∀ c d, i ≠ .prepare c d) →
    v = 0 ∧ OnlySent s t [.answer (.packet port) w v]

/-- A period is reported only by `SL.NOTIFY` with `PE` set and by a capture (rule R159). -/
def Obligations.PeriodMessagesComeFromCopies : Prop :=
  ∀ (i : Instr) (s t : State) (l : List Out) (c : Nat) (d : Dir), exec i s = .next t →
    t.out = s.out ++ l → .periodElapsed c d ∈ l →
    (d = .tx ∧ i = .slNotify c ∧ (s.loop c).phase = .notify ∧ (s.loop c).pe = true) ∨
    (d = .rx ∧ (∃ u, i = .rxComplete u) ∧ (s.half c .rx).running = true)
end

