-- ==== Sys2Proof/Laws/Decode.lean ====
section
/-! SUPPORT. The laws of the encodings: which bits of a header word are which field, that a header
matches its table's row exactly when it is the header of its fields, and that packing and unpacking of
operand words undo each other. -/

namespace Sys2Proof

/-- Bit `i` of the header word, field by field (rule R61). -/
theorem header_getLsbD (op : Op) (c : Nat) (d : Dir) (idx : BitVec 8) (i : Nat) :
    (header op c d idx).getLsbD i =
      if i < 8 then idx.getLsbD i
      else if i < 15 then false
      else if i < 16 then d.bit.getLsbD (i - 15)
      else if i < 24 then (BitVec.ofNat 8 c).getLsbD (i - 16)
      else op.code.getLsbD (i - 24) := by
  unfold header
  simp only [BitVec.getLsbD_append]
  by_cases h1 : i < 8
  · simp [h1, show i < 15 by omega, show i < 16 by omega, show i < 24 by omega]
  · by_cases h2 : i < 15
    · simp [h1, h2, show i < 16 by omega, show i < 24 by omega]
    · by_cases h3 : i < 16
      · simp [h1, h2, h3, show i < 24 by omega]
      · by_cases h4 : i < 24 <;> simp [h1, h2, h3, h4]

theorem headerOp_header (op : Op) (c : Nat) (d : Dir) (idx : BitVec 8) :
    headerOp (header op c d idx) = op.code := by
  refine BitVec.eq_of_getLsbD_eq fun i hi => ?_
  rw [headerOp, BitVec.getLsbD_extractLsb', header_getLsbD]
  simp [hi, show ¬ (24 + i < 8) by omega, show ¬ (24 + i < 15) by omega,
    show ¬ (24 + i < 16) by omega, show ¬ (24 + i < 24) by omega]

theorem headerCh_header (op : Op) (c : Nat) (d : Dir) (idx : BitVec 8) :
    headerCh (header op c d idx) = BitVec.ofNat 8 c := by
  refine BitVec.eq_of_getLsbD_eq fun i hi => ?_
  rw [headerCh, BitVec.getLsbD_extractLsb', header_getLsbD]
  simp [hi, show ¬ (16 + i < 8) by omega, show ¬ (16 + i < 15) by omega,
    show ¬ (16 + i < 16) by omega, show 16 + i < 24 by omega]

theorem headerIdx_header (op : Op) (c : Nat) (d : Dir) (idx : BitVec 8) :
    headerIdx (header op c d idx) = idx := by
  refine BitVec.eq_of_getLsbD_eq fun i hi => ?_
  rw [headerIdx, BitVec.getLsbD_extractLsb', header_getLsbD]
  simp [hi]

theorem headerDir_header (op : Op) (c : Nat) (d : Dir) (idx : BitVec 8) :
    headerDir (header op c d idx) = d := by
  rw [headerDir, header_getLsbD]
  cases d <;> rfl

theorem Op.ofCode_code (op : Op) : Op.ofCode op.code = some op := by cases op <;> rfl

theorem Op.code_of_ofCode {b : BitVec 8} {op : Op} (h : Op.ofCode b = some op) : op.code = b := by
  unfold Op.ofCode at h
  apply BitVec.eq_of_toNat_eq
  split at h <;> first | cases h; done | (injection h with h; subst h; rename_i e; rw [e]; rfl)

/-- Whether an opcode uses the header field `ch` (rules R61, R62, R64, R65, R67). -/
def Op.usesCh : Op → Bool
  | .connect | .disconnect | .rxComplete | .txSlotFree
  | .cvtCopy | .cvtSwap16 | .cvtSwap24 | .cvtSwap32 => false
  | _ => true

/-- Whether an opcode uses the header field `dir` (rules R61, R62, R64, R65, R67). -/
def Op.usesDir : Op → Bool
  | .rdPpx | .wrPpx | .rdBufsz | .wrBufsz | .connect | .disconnect | .rxComplete | .txSlotFree
  | .cvtCopy | .cvtSwap16 | .cvtSwap24 | .cvtSwap32 => false
  | _ => true

/-- Whether an opcode uses the header field `idx` (rule R61: `RDREG` only). -/
def Op.usesIdx : Op → Bool
  | .rdreg => true
  | _ => false

/-- The mask of an opcode covers the bits that belong to no field it uses. -/
theorem Op.mask_getLsbD (op : Op) : ∀ i, i < 32 →
    op.mask.getLsbD i =
      if i < 8 then !op.usesIdx
      else if i < 15 then true
      else if i < 16 then !op.usesDir
      else if i < 24 then !op.usesCh
      else true := by
  cases op <;> decide

theorem Op.mat_getLsbD (op : Op) (i : Nat) :
    op.mat.getLsbD i = if i < 24 then false else op.code.getLsbD (i - 24) := by
  unfold Op.mat
  rw [BitVec.getLsbD_append]
  by_cases h : i < 24 <;> simp [h]

/-- A header whose unused fields are 0 matches its row. -/
theorem header_and_mask (op : Op) (c : Nat) (d : Dir) (idx : BitVec 8)
    (hc : op.usesCh = false → c = 0) (hd : op.usesDir = false → d = .rx)
    (hi : op.usesIdx = false → idx = 0) : header op c d idx &&& op.mask = op.mat := by
  refine BitVec.eq_of_getLsbD_eq fun i h32 => ?_
  rw [BitVec.getLsbD_and, header_getLsbD, op.mask_getLsbD i h32, op.mat_getLsbD]
  by_cases h1 : i < 8
  · cases hu : op.usesIdx
    · simp [h1, show i < 24 by omega, hi hu]
    · simp [h1, show i < 24 by omega]
  · by_cases h2 : i < 15
    · simp [h1, h2, show i < 24 by omega]
    · by_cases h3 : i < 16
      · cases hu : op.usesDir
        · simp [h1, h2, h3, show i < 24 by omega, hd hu, Dir.bit]
        · simp [h1, h2, h3, show i < 24 by omega]
      · by_cases h4 : i < 24
        · cases hu : op.usesCh
          · simp [h1, h2, h3, h4, hc hu]
          · simp [h1, h2, h3, h4]
        · simp [h1, h2, h3, h4]

/-- A header that matches its row is the header of its fields, and its unused fields are 0. -/
theorem header_of_mask {op : Op} {h : Word} (hm : h &&& op.mask = op.mat) :
    h = header op (headerCh h).toNat (headerDir h) (headerIdx h) ∧
    (op.usesCh = false → headerCh h = 0) ∧ (op.usesDir = false → headerDir h = .rx) ∧
    (op.usesIdx = false → headerIdx h = 0) := by
  have key : ∀ i, i < 32 → (h.getLsbD i && op.mask.getLsbD i) = op.mat.getLsbD i := fun i _ => by
    rw [← BitVec.getLsbD_and, hm]
  refine ⟨BitVec.eq_of_getLsbD_eq fun i h32 => ?_, fun hu => ?_, fun hu => ?_, fun hu => ?_⟩
  · have := key i h32
    rw [op.mask_getLsbD i h32, op.mat_getLsbD] at this
    rw [header_getLsbD]
    by_cases h1 : i < 8
    · simp [h1, headerIdx]
    · by_cases h2 : i < 15
      · simpa [h1, h2, show i < 24 by omega] using this
      · by_cases h3 : i < 16
        · have h15 : i = 15 := by omega
          subst h15
          unfold headerDir
          cases h.getLsbD 15 <;> simp [Dir.bit]
        · by_cases h4 : i < 24
          · have hch : BitVec.ofNat 8 (headerCh h).toNat = headerCh h :=
              BitVec.eq_of_toNat_eq (by rw [BitVec.toNat_ofNat]; exact Nat.mod_eq_of_lt (headerCh h).isLt)
            rw [if_neg h1, if_neg h2, if_neg h3, if_pos h4, hch, headerCh, BitVec.getLsbD_extractLsb']
            simp [show i - 16 < 8 by omega, show 16 + (i - 16) = i by omega]
          · simpa [h1, h2, h3, h4] using this
  · refine BitVec.eq_of_getLsbD_eq fun i hi => ?_
    have := key (16 + i) (by omega)
    rw [op.mask_getLsbD _ (by omega), op.mat_getLsbD] at this
    simpa [headerCh, hi, hu, show ¬ (16 + i < 8) by omega, show ¬ (16 + i < 15) by omega,
      show ¬ (16 + i < 16) by omega, show 16 + i < 24 by omega] using this
  · have := key 15 (by omega)
    rw [op.mask_getLsbD _ (by omega), op.mat_getLsbD] at this
    simp only [hu] at this
    unfold headerDir
    cases hb : h.getLsbD 15
    · rfl
    · rw [hb] at this; simp at this
  · refine BitVec.eq_of_getLsbD_eq fun i hi => ?_
    have := key i (by omega)
    rw [op.mask_getLsbD _ (by omega), op.mat_getLsbD] at this
    simpa [headerIdx, hi, hu, show i < 24 by omega] using this

theorem packWord_getLsbD (b0 b1 b2 b3 : Byte) (i : Nat) :
    (packWord b0 b1 b2 b3).getLsbD i =
    if i < 8 then b0.getLsbD i else if i < 16 then b1.getLsbD (i - 8)
    else if i < 24 then b2.getLsbD (i - 16) else b3.getLsbD (i - 24) := by
  unfold packWord
  simp only [BitVec.getLsbD_append]
  by_cases h1 : i < 8
  · simp [h1, show i < 16 by omega, show i < 24 by omega]
  · by_cases h2 : i < 16
    · simp [h1, h2, show i < 24 by omega, show i - 8 < 8 by omega]
    · by_cases h3 : i < 24
      · simp [h1, h2, h3, show i - 16 < 8 by omega]
      · simp [h1, h2, h3]

theorem wordBytes_packWord (b0 b1 b2 b3 : Byte) :
    wordBytes (packWord b0 b1 b2 b3) = [b0, b1, b2, b3] := by
  unfold wordBytes
  simp only [List.cons.injEq, and_true]
  refine ⟨?_, ?_, ?_, ?_⟩ <;>
    refine BitVec.eq_of_getLsbD_eq fun i hi => ?_ <;>
    rw [BitVec.getLsbD_extractLsb', packWord_getLsbD]
  · simp [hi]
  · simp [hi, show ¬ 8 + i < 8 by omega, show 8 + i < 16 by omega]
  · simp [hi, show ¬ 16 + i < 8 by omega, show ¬ 16 + i < 16 by omega, show 16 + i < 24 by omega]
  · simp [hi, show ¬ 24 + i < 8 by omega, show ¬ 24 + i < 16 by omega, show ¬ 24 + i < 24 by omega]

theorem packWord_wordBytes (w : Word) :
    ∃ b0 b1 b2 b3, wordBytes w = [b0, b1, b2, b3] ∧ packWord b0 b1 b2 b3 = w := by
  refine ⟨_, _, _, _, rfl, ?_⟩
  refine BitVec.eq_of_getLsbD_eq fun i hi => ?_
  rw [packWord_getLsbD]
  simp only [BitVec.getLsbD_extractLsb']
  by_cases h1 : i < 8
  · simp [h1]
  · by_cases h2 : i < 16
    · simp [h1, h2, show i - 8 < 8 by omega, show 8 + (i - 8) = i by omega]
    · by_cases h3 : i < 24
      · simp [h1, h2, h3, show i - 16 < 8 by omega, show 16 + (i - 16) = i by omega]
      · simp [h1, h2, h3, show i - 24 < 8 by omega, show 24 + (i - 24) = i by omega]

/-- Unpacking gives the string back, padded with zero bytes to whole words (rule R66). -/
theorem unpackArgs_packArgs : ∀ bs : List Byte, ∃ pad,
    unpackArgs (packArgs bs) = bs ++ pad ∧ (∀ b ∈ pad, b = 0) ∧
    (packArgs bs).length = (bs.length + 3) / 4
  | [] => ⟨[], rfl, by simp, rfl⟩
  | [b0] => ⟨[0, 0, 0], by simp [packArgs, unpackArgs, wordBytes_packWord], by simp, by simp [packArgs]⟩
  | [b0, b1] => ⟨[0, 0], by simp [packArgs, unpackArgs, wordBytes_packWord], by simp, by simp [packArgs]⟩
  | [b0, b1, b2] => ⟨[0], by simp [packArgs, unpackArgs, wordBytes_packWord], by simp, by simp [packArgs]⟩
  | b0 :: b1 :: b2 :: b3 :: rest => by
    obtain ⟨pad, h1, h2, h3⟩ := unpackArgs_packArgs rest
    exact ⟨pad, by simp [packArgs, unpackArgs, wordBytes_packWord, h1], h2, by simp [packArgs, h3]; omega⟩

theorem length_unpackArgs (ws : List Word) : (unpackArgs ws).length = 4 * ws.length := by
  induction ws with
  | nil => rfl
  | cons w ws ih => simp [unpackArgs, wordBytes, ih]; omega

/-- Packing gives the operand words back where their padding is zero (rules R66, R71). -/
theorem packArgs_unpackArgs : ∀ (ws : List Word) (n : Nat), ws.length = (n + 3) / 4 →
    (∀ b ∈ (unpackArgs ws).drop n, b = 0) → packArgs ((unpackArgs ws).take n) = ws
  | [], n, h, _ => by simp [unpackArgs, packArgs]
  | w :: ws, n, h, hz => by
    obtain ⟨b0, b1, b2, b3, hw, hp⟩ := packWord_wordBytes w
    have hl : (w :: ws).length = (n + 3) / 4 := h
    simp only [List.length_cons] at hl
    have hpos : 0 < n := by omega
    by_cases h4 : 4 ≤ n
    · obtain ⟨m, rfl⟩ : ∃ m, n = m + 4 := ⟨n - 4, by omega⟩
      have ih := packArgs_unpackArgs ws m (by omega) (by simpa [unpackArgs, hw] using hz)
      simp [unpackArgs, hw, packArgs, ih, hp]
    · have hws : ws = [] := by
        have : ws.length = 0 := by omega
        exact List.length_eq_zero_iff.1 this
      subst hws
      have : n = 1 ∨ n = 2 ∨ n = 3 := by omega
      rcases this with rfl | rfl | rfl
      · simp [unpackArgs, hw] at hz
        rw [← hp]; simp [unpackArgs, wordBytes_packWord, packArgs, hz]
      · simp [unpackArgs, hw] at hz
        rw [← hp]; simp [unpackArgs, wordBytes_packWord, packArgs, hz]
      · simp [unpackArgs, hw] at hz
        rw [← hp]; simp [unpackArgs, wordBytes_packWord, packArgs, hz]

theorem IfId.ofWord_toWord (x : IfId) : IfId.ofWord x.toWord = x := by
  cases x with | mk a b =>
  simp only [IfId.ofWord, IfId.toWord, IfId.mk.injEq]
  refine ⟨BitVec.eq_of_getLsbD_eq fun i hi => ?_, BitVec.eq_of_getLsbD_eq fun i hi => ?_⟩
  · rw [BitVec.getLsbD_extractLsb', BitVec.getLsbD_append]; simp [hi]
  · rw [BitVec.getLsbD_extractLsb', BitVec.getLsbD_append]; simp [hi]

theorem IfId.toWord_ofWord (w : Word) : (IfId.ofWord w).toWord = w := by
  refine BitVec.eq_of_getLsbD_eq fun i hi => ?_
  simp only [IfId.ofWord, IfId.toWord, BitVec.getLsbD_append]
  by_cases h1 : i < 16
  · simp [h1]
  · simp [h1, show i - 16 < 16 by omega, show 16 + (i - 16) = i by omega]

theorem ChBounds.ofWord_toWord (x : ChBounds) : ChBounds.ofWord x.toWord = x := by
  cases x with | mk a b =>
  simp only [ChBounds.ofWord, ChBounds.toWord, ChBounds.mk.injEq]
  refine ⟨BitVec.eq_of_getLsbD_eq fun i hi => ?_, BitVec.eq_of_getLsbD_eq fun i hi => ?_⟩
  · rw [BitVec.getLsbD_extractLsb', BitVec.getLsbD_append]; simp [hi]
  · rw [BitVec.getLsbD_extractLsb', BitVec.getLsbD_append]; simp [hi]

theorem ChBounds.toWord_ofWord (w : Word) : (ChBounds.ofWord w).toWord = w := by
  refine BitVec.eq_of_getLsbD_eq fun i hi => ?_
  simp only [ChBounds.ofWord, ChBounds.toWord, BitVec.getLsbD_append]
  by_cases h1 : i < 16
  · simp [h1]
  · simp [h1, show i - 16 < 16 by omega, show 16 + (i - 16) = i by omega]

/-- Bit `i` of `NEG_FMT`, field by field (rules R22, R63). -/
theorem Fmt.getLsbD_toWord (x : Fmt) (i : Nat) :
    x.toWord.getLsbD i =
      if i < 16 then x.channels.getLsbD i
      else if i < 24 then x.width.getLsbD (i - 16)
      else if i < 25 then x.endian.bit.getLsbD (i - 24)
      else false := by
  unfold Fmt.toWord
  simp only [BitVec.getLsbD_append]
  by_cases h1 : i < 16
  · simp [h1, show i < 24 by omega, show i < 25 by omega]
  · by_cases h2 : i < 24
    · simp [h1, h2, show i < 25 by omega, show i - 16 < 8 by omega]
    · by_cases h3 : i < 25
      · simp [h1, h2, h3]
      · simp [h1, h2, h3]

theorem Fmt.ofWord_toWord (x : Fmt) : Fmt.ofWord x.toWord = x ∧ x.toWord.extractLsb' 25 7 = 0 := by
  cases x with | mk a b e =>
  simp only [Fmt.ofWord, Fmt.mk.injEq]
  refine ⟨⟨BitVec.eq_of_getLsbD_eq fun i hi => ?_, BitVec.eq_of_getLsbD_eq fun i hi => ?_, ?_⟩, BitVec.eq_of_getLsbD_eq fun i hi => ?_⟩
  · rw [BitVec.getLsbD_extractLsb', Fmt.getLsbD_toWord]; simp [hi]
  · rw [BitVec.getLsbD_extractLsb', Fmt.getLsbD_toWord]; simp [hi, show ¬ 16 + i < 16 by omega, show 16 + i < 24 by omega]
  · rw [Fmt.getLsbD_toWord]; cases e <;> simp [Endian.bit]
  · rw [BitVec.getLsbD_extractLsb', Fmt.getLsbD_toWord]; simp [hi, show ¬ 25 + i < 16 by omega, show ¬ 25 + i < 24 by omega, show ¬ 25 + i < 25 by omega]

theorem Fmt.toWord_ofWord (w : Word) (h : w.extractLsb' 25 7 = 0) : (Fmt.ofWord w).toWord = w := by
  refine BitVec.eq_of_getLsbD_eq fun i hi => ?_
  rw [Fmt.getLsbD_toWord]
  simp only [Fmt.ofWord, BitVec.getLsbD_extractLsb']
  by_cases h1 : i < 16
  · simp [h1]
  · by_cases h2 : i < 24
    · simp [h1, h2, show i - 16 < 8 by omega, show 16 + (i - 16) = i by omega]
    · by_cases h3 : i < 25
      · have : i = 24 := by omega
        subst this
        cases hb : w.getLsbD 24 <;> simp [Endian.bit]
      · have := congrArg (fun v => v.getLsbD (i - 25)) h
        simp [show i - 25 < 7 by omega, show 25 + (i - 25) = i by omega] at this
        simp [h1, h2, h3, this]

theorem Reg.ofIdx_idx (r : Reg) : Reg.ofIdx r.idx = some r := by cases r <;> rfl

theorem Reg.idx_of_ofIdx {b : BitVec 8} {r : Reg} (h : Reg.ofIdx b = some r) : r.idx = b := by
  unfold Reg.ofIdx at h
  apply BitVec.eq_of_toNat_eq
  split at h <;> first | cases h; done | (injection h with h; subst h; rename_i e; rw [e]; rfl)
end Sys2Proof
end

