-- ==== Sys2Proof/Laws/State.lean ====
section
/-! SUPPORT. The small lemmas of State: what each update leaves of each field, and what each accessor
reads after it. Later proofs use these and unfold no record update. -/

namespace Sys2Proof.Machine

/-! ## Channels -/

theorem State.chan_of_ge (s : State) (c : Nat) (h : s.nCh ≤ c) : s.chan c = Channel.reset := by
  simp [State.chan, List.getD_eq_getElem?_getD, List.getElem?_eq_none h]

theorem State.chan_mem (s : State) (c : Nat) (h : c < s.nCh) : s.chan c ∈ s.chans := by
  unfold State.chan
  rw [List.getD_eq_getElem?_getD, List.getElem?_eq_getElem h]
  exact List.getElem_mem h

theorem State.chan_setChan (s : State) (c c' : Nat) (ch : Channel) :
    (s.setChan c ch).chan c' = if c' = c ∧ c < s.nCh then ch else s.chan c' := by
  unfold State.chan State.setChan State.nCh
  simp only [List.getD_eq_getElem?_getD, List.getElem?_set]
  by_cases h1 : c = c'
  · subst h1
    by_cases h2 : c < s.chans.length
    · simp [h2]
    · simp [h2]
  · simp [h1, Ne.symm h1]

@[simp] theorem State.chan_setChan_self (s : State) (c : Nat) (ch : Channel) (h : c < s.nCh) :
    (s.setChan c ch).chan c = ch := by
  simp [State.chan_setChan, h]

@[simp] theorem State.chan_setChan_of_ne (s : State) (c c' : Nat) (ch : Channel) (h : c' ≠ c) :
    (s.setChan c ch).chan c' = s.chan c' := by
  simp [State.chan_setChan, h]

@[simp] theorem State.nCh_setChan (s : State) (c : Nat) (ch : Channel) :
    (s.setChan c ch).nCh = s.nCh := by
  simp [State.nCh, State.setChan]

@[simp] theorem State.nCh_setHalf (s : State) (c : Nat) (d : Dir) (h : Half) :
    (s.setHalf c d h).nCh = s.nCh := State.nCh_setChan _ _ _

@[simp] theorem State.nCh_setLoop (s : State) (c : Nat) (l : Loop) :
    (s.setLoop c l).nCh = s.nCh := State.nCh_setChan _ _ _

@[simp] theorem Channel.half_setHalf_self (ch : Channel) (d : Dir) (h : Half) :
    (ch.setHalf d h).half d = h := by
  cases d <;> rfl

theorem Channel.half_setHalf (ch : Channel) (d d' : Dir) (h : Half) :
    (ch.setHalf d h).half d' = if d' = d then h else ch.half d' := by
  cases d <;> cases d' <;> rfl

@[simp] theorem Channel.loop_setHalf (ch : Channel) (d : Dir) (h : Half) :
    (ch.setHalf d h).loop = ch.loop := by
  cases d <;> rfl

@[simp] theorem Channel.ppx_setHalf (ch : Channel) (d : Dir) (h : Half) :
    (ch.setHalf d h).ppx = ch.ppx := by
  cases d <;> rfl

@[simp] theorem Channel.bufsz_setHalf (ch : Channel) (d : Dir) (h : Half) :
    (ch.setHalf d h).bufsz = ch.bufsz := by
  cases d <;> rfl

theorem State.half_of_ge (s : State) (c : Nat) (d : Dir) (h : s.nCh ≤ c) :
    s.half c d = Half.reset := by
  rw [State.half, State.chan_of_ge s c h]
  cases d <;> rfl

theorem State.loop_of_ge (s : State) (c : Nat) (h : s.nCh ≤ c) : s.loop c = Loop.reset := by
  rw [State.loop, State.chan_of_ge s c h]
  rfl

theorem State.half_setHalf (s : State) (c c' : Nat) (d d' : Dir) (h : Half) :
    (s.setHalf c d h).half c' d' =
      if c' = c ∧ d' = d ∧ c < s.nCh then h else s.half c' d' := by
  unfold State.half State.setHalf
  rw [State.chan_setChan]
  by_cases h1 : c' = c ∧ c < s.nCh
  · obtain ⟨rfl, h2⟩ := h1
    simp [h2, Channel.half_setHalf]
  · rw [if_neg h1, if_neg (fun h2 => h1 ⟨h2.1, h2.2.2⟩)]

@[simp] theorem State.half_setHalf_self (s : State) (c : Nat) (d : Dir) (h : Half)
    (hc : c < s.nCh) : (s.setHalf c d h).half c d = h := by
  simp [State.half_setHalf, hc]

theorem State.half_setHalf_of_ne (s : State) (c c' : Nat) (d d' : Dir) (h : Half)
    (hne : ¬ (c' = c ∧ d' = d)) : (s.setHalf c d h).half c' d' = s.half c' d' := by
  rw [State.half_setHalf, if_neg (fun h2 => hne ⟨h2.1, h2.2.1⟩)]

theorem State.chan_setHalf (s : State) (c c' : Nat) (d : Dir) (h : Half) :
    (s.setHalf c d h).chan c' =
      if c' = c ∧ c < s.nCh then (s.chan c).setHalf d h else s.chan c' :=
  State.chan_setChan _ _ _ _

@[simp] theorem State.loop_setHalf (s : State) (c c' : Nat) (d : Dir) (h : Half) :
    (s.setHalf c d h).loop c' = s.loop c' := by
  unfold State.loop
  rw [State.chan_setHalf]
  by_cases h1 : c' = c ∧ c < s.nCh
  · rw [if_pos h1, h1.1, Channel.loop_setHalf]
  · rw [if_neg h1]

@[simp] theorem State.ppx_setHalf (s : State) (c c' : Nat) (d : Dir) (h : Half) :
    ((s.setHalf c d h).chan c').ppx = (s.chan c').ppx := by
  rw [State.chan_setHalf]
  by_cases h1 : c' = c ∧ c < s.nCh
  · rw [if_pos h1, h1.1, Channel.ppx_setHalf]
  · rw [if_neg h1]

@[simp] theorem State.bufsz_setHalf (s : State) (c c' : Nat) (d : Dir) (h : Half) :
    ((s.setHalf c d h).chan c').bufsz = (s.chan c').bufsz := by
  rw [State.chan_setHalf]
  by_cases h1 : c' = c ∧ c < s.nCh
  · rw [if_pos h1, h1.1, Channel.bufsz_setHalf]
  · rw [if_neg h1]

theorem State.chan_setLoop (s : State) (c c' : Nat) (l : Loop) :
    (s.setLoop c l).chan c' =
      if c' = c ∧ c < s.nCh then { s.chan c with loop := l } else s.chan c' :=
  State.chan_setChan _ _ _ _

theorem State.loop_setLoop (s : State) (c c' : Nat) (l : Loop) :
    (s.setLoop c l).loop c' = if c' = c ∧ c < s.nCh then l else s.loop c' := by
  unfold State.loop
  rw [State.chan_setLoop]
  by_cases h1 : c' = c ∧ c < s.nCh
  · rw [if_pos h1, if_pos h1]
  · rw [if_neg h1, if_neg h1]

@[simp] theorem State.loop_setLoop_self (s : State) (c : Nat) (l : Loop) (hc : c < s.nCh) :
    (s.setLoop c l).loop c = l := by
  simp [State.loop_setLoop, hc]

theorem State.loop_setLoop_of_ne (s : State) (c c' : Nat) (l : Loop) (hne : c' ≠ c) :
    (s.setLoop c l).loop c' = s.loop c' := by
  rw [State.loop_setLoop, if_neg (fun h2 => hne h2.1)]

@[simp] theorem State.half_setLoop (s : State) (c c' : Nat) (d : Dir) (l : Loop) :
    (s.setLoop c l).half c' d = s.half c' d := by
  unfold State.half
  rw [State.chan_setLoop]
  by_cases h1 : c' = c ∧ c < s.nCh
  · rw [if_pos h1, h1.1]
    cases d <;> rfl
  · rw [if_neg h1]

@[simp] theorem State.ppx_setLoop (s : State) (c c' : Nat) (l : Loop) :
    ((s.setLoop c l).chan c').ppx = (s.chan c').ppx := by
  rw [State.chan_setLoop]
  by_cases h1 : c' = c ∧ c < s.nCh
  · rw [if_pos h1, h1.1]
  · rw [if_neg h1]

@[simp] theorem State.bufsz_setLoop (s : State) (c c' : Nat) (l : Loop) :
    ((s.setLoop c l).chan c').bufsz = (s.chan c').bufsz := by
  rw [State.chan_setLoop]
  by_cases h1 : c' = c ∧ c < s.nCh
  · rw [if_pos h1, h1.1]
  · rw [if_neg h1]

/-! ## What each update leaves alone -/

@[simp] theorem State.periodMax_setChan (s : State) (c : Nat) (ch : Channel) :
    (s.setChan c ch).periodMax = s.periodMax := rfl

@[simp] theorem State.units_setChan (s : State) (c : Nat) (ch : Channel) :
    (s.setChan c ch).units = s.units := rfl

@[simp] theorem State.pool_setChan (s : State) (c : Nat) (ch : Channel) :
    (s.setChan c ch).pool = s.pool := rfl

@[simp] theorem State.out_setChan (s : State) (c : Nat) (ch : Channel) :
    (s.setChan c ch).out = s.out := rfl

@[simp] theorem State.agenda_setChan (s : State) (c : Nat) (ch : Channel) :
    (s.setChan c ch).agenda = s.agenda := rfl

@[simp] theorem State.startAnswers_setChan (s : State) (c : Nat) (ch : Channel) :
    (s.setChan c ch).startAnswers = s.startAnswers := rfl

@[simp] theorem State.startDraws_setChan (s : State) (c : Nat) (ch : Channel) :
    (s.setChan c ch).startDraws = s.startDraws := rfl

@[simp] theorem State.copyElapsed_setChan (s : State) (c : Nat) (ch : Channel) :
    (s.setChan c ch).copyElapsed = s.copyElapsed := rfl

@[simp] theorem State.periodMax_setHalf (s : State) (c : Nat) (d : Dir) (h : Half) :
    (s.setHalf c d h).periodMax = s.periodMax := rfl

@[simp] theorem State.units_setHalf (s : State) (c : Nat) (d : Dir) (h : Half) :
    (s.setHalf c d h).units = s.units := rfl

@[simp] theorem State.pool_setHalf (s : State) (c : Nat) (d : Dir) (h : Half) :
    (s.setHalf c d h).pool = s.pool := rfl

@[simp] theorem State.out_setHalf (s : State) (c : Nat) (d : Dir) (h : Half) :
    (s.setHalf c d h).out = s.out := rfl

@[simp] theorem State.agenda_setHalf (s : State) (c : Nat) (d : Dir) (h : Half) :
    (s.setHalf c d h).agenda = s.agenda := rfl

@[simp] theorem State.startAnswers_setHalf (s : State) (c : Nat) (d : Dir) (h : Half) :
    (s.setHalf c d h).startAnswers = s.startAnswers := rfl

@[simp] theorem State.startDraws_setHalf (s : State) (c : Nat) (d : Dir) (h : Half) :
    (s.setHalf c d h).startDraws = s.startDraws := rfl

@[simp] theorem State.copyElapsed_setHalf (s : State) (c : Nat) (d : Dir) (h : Half) :
    (s.setHalf c d h).copyElapsed = s.copyElapsed := rfl

@[simp] theorem State.periodMax_setLoop (s : State) (c : Nat) (l : Loop) :
    (s.setLoop c l).periodMax = s.periodMax := rfl

@[simp] theorem State.units_setLoop (s : State) (c : Nat) (l : Loop) :
    (s.setLoop c l).units = s.units := rfl

@[simp] theorem State.pool_setLoop (s : State) (c : Nat) (l : Loop) :
    (s.setLoop c l).pool = s.pool := rfl

@[simp] theorem State.out_setLoop (s : State) (c : Nat) (l : Loop) :
    (s.setLoop c l).out = s.out := rfl

@[simp] theorem State.agenda_setLoop (s : State) (c : Nat) (l : Loop) :
    (s.setLoop c l).agenda = s.agenda := rfl

@[simp] theorem State.startAnswers_setLoop (s : State) (c : Nat) (l : Loop) :
    (s.setLoop c l).startAnswers = s.startAnswers := rfl

@[simp] theorem State.startDraws_setLoop (s : State) (c : Nat) (l : Loop) :
    (s.setLoop c l).startDraws = s.startDraws := rfl

@[simp] theorem State.copyElapsed_setLoop (s : State) (c : Nat) (l : Loop) :
    (s.setLoop c l).copyElapsed = s.copyElapsed := rfl

@[simp] theorem State.chans_emit (s : State) (o : Out) :
    (s.emit o).chans = s.chans := rfl

@[simp] theorem State.periodMax_emit (s : State) (o : Out) :
    (s.emit o).periodMax = s.periodMax := rfl

@[simp] theorem State.units_emit (s : State) (o : Out) :
    (s.emit o).units = s.units := rfl

@[simp] theorem State.pool_emit (s : State) (o : Out) :
    (s.emit o).pool = s.pool := rfl

@[simp] theorem State.agenda_emit (s : State) (o : Out) :
    (s.emit o).agenda = s.agenda := rfl

@[simp] theorem State.startAnswers_emit (s : State) (o : Out) :
    (s.emit o).startAnswers = s.startAnswers := rfl

@[simp] theorem State.startDraws_emit (s : State) (o : Out) :
    (s.emit o).startDraws = s.startDraws := rfl

@[simp] theorem State.copyElapsed_emit (s : State) (o : Out) :
    (s.emit o).copyElapsed = s.copyElapsed := rfl

@[simp] theorem State.chans_setUnit (s : State) (x : TransferUnit) :
    (s.setUnit x).chans = s.chans := rfl

@[simp] theorem State.periodMax_setUnit (s : State) (x : TransferUnit) :
    (s.setUnit x).periodMax = s.periodMax := rfl

@[simp] theorem State.pool_setUnit (s : State) (x : TransferUnit) :
    (s.setUnit x).pool = s.pool := rfl

@[simp] theorem State.out_setUnit (s : State) (x : TransferUnit) :
    (s.setUnit x).out = s.out := rfl

@[simp] theorem State.agenda_setUnit (s : State) (x : TransferUnit) :
    (s.setUnit x).agenda = s.agenda := rfl

@[simp] theorem State.startAnswers_setUnit (s : State) (x : TransferUnit) :
    (s.setUnit x).startAnswers = s.startAnswers := rfl

@[simp] theorem State.startDraws_setUnit (s : State) (x : TransferUnit) :
    (s.setUnit x).startDraws = s.startDraws := rfl

@[simp] theorem State.copyElapsed_setUnit (s : State) (x : TransferUnit) :
    (s.setUnit x).copyElapsed = s.copyElapsed := rfl

@[simp] theorem State.chans_put (s : State) (u : Word) :
    (s.put u).chans = s.chans := rfl

@[simp] theorem State.periodMax_put (s : State) (u : Word) :
    (s.put u).periodMax = s.periodMax := rfl

@[simp] theorem State.units_put (s : State) (u : Word) :
    (s.put u).units = s.units := rfl

@[simp] theorem State.agenda_put (s : State) (u : Word) :
    (s.put u).agenda = s.agenda := rfl

@[simp] theorem State.startAnswers_put (s : State) (u : Word) :
    (s.put u).startAnswers = s.startAnswers := rfl

@[simp] theorem State.startDraws_put (s : State) (u : Word) :
    (s.put u).startDraws = s.startDraws := rfl

@[simp] theorem State.copyElapsed_put (s : State) (u : Word) :
    (s.put u).copyElapsed = s.copyElapsed := rfl

@[simp] theorem State.chans_submit (s : State) (u : Word) :
    (s.submit u).chans = s.chans := rfl

@[simp] theorem State.periodMax_submit (s : State) (u : Word) :
    (s.submit u).periodMax = s.periodMax := rfl

@[simp] theorem State.units_submit (s : State) (u : Word) :
    (s.submit u).units = s.units := rfl

@[simp] theorem State.pool_submit (s : State) (u : Word) :
    (s.submit u).pool = s.pool := rfl

@[simp] theorem State.agenda_submit (s : State) (u : Word) :
    (s.submit u).agenda = s.agenda := rfl

@[simp] theorem State.startAnswers_submit (s : State) (u : Word) :
    (s.submit u).startAnswers = s.startAnswers := rfl

@[simp] theorem State.startDraws_submit (s : State) (u : Word) :
    (s.submit u).startDraws = s.startDraws := rfl

@[simp] theorem State.copyElapsed_submit (s : State) (u : Word) :
    (s.submit u).copyElapsed = s.copyElapsed := rfl

@[simp] theorem State.chans_stopChannel (s : State) (ifid : IfId) :
    (s.stopChannel ifid).chans = s.chans := rfl

@[simp] theorem State.periodMax_stopChannel (s : State) (ifid : IfId) :
    (s.stopChannel ifid).periodMax = s.periodMax := rfl

@[simp] theorem State.units_stopChannel (s : State) (ifid : IfId) :
    (s.stopChannel ifid).units = s.units := rfl

@[simp] theorem State.pool_stopChannel (s : State) (ifid : IfId) :
    (s.stopChannel ifid).pool = s.pool := rfl

@[simp] theorem State.agenda_stopChannel (s : State) (ifid : IfId) :
    (s.stopChannel ifid).agenda = s.agenda := rfl

@[simp] theorem State.startAnswers_stopChannel (s : State) (ifid : IfId) :
    (s.stopChannel ifid).startAnswers = s.startAnswers := rfl

@[simp] theorem State.startDraws_stopChannel (s : State) (ifid : IfId) :
    (s.stopChannel ifid).startDraws = s.startDraws := rfl

@[simp] theorem State.copyElapsed_stopChannel (s : State) (ifid : IfId) :
    (s.stopChannel ifid).copyElapsed = s.copyElapsed := rfl

@[simp] theorem State.chans_notify (s : State) (c : Nat) (d : Dir) :
    (s.notify c d).chans = s.chans := rfl

@[simp] theorem State.periodMax_notify (s : State) (c : Nat) (d : Dir) :
    (s.notify c d).periodMax = s.periodMax := rfl

@[simp] theorem State.units_notify (s : State) (c : Nat) (d : Dir) :
    (s.notify c d).units = s.units := rfl

@[simp] theorem State.pool_notify (s : State) (c : Nat) (d : Dir) :
    (s.notify c d).pool = s.pool := rfl

@[simp] theorem State.agenda_notify (s : State) (c : Nat) (d : Dir) :
    (s.notify c d).agenda = s.agenda := rfl

@[simp] theorem State.startAnswers_notify (s : State) (c : Nat) (d : Dir) :
    (s.notify c d).startAnswers = s.startAnswers := rfl

@[simp] theorem State.startDraws_notify (s : State) (c : Nat) (d : Dir) :
    (s.notify c d).startDraws = s.startDraws := rfl

@[simp] theorem State.copyElapsed_notify (s : State) (c : Nat) (d : Dir) :
    (s.notify c d).copyElapsed = s.copyElapsed := rfl

@[simp] theorem State.out_emit (s : State) (o : Out) : (s.emit o).out = s.out ++ [o] := rfl

@[simp] theorem State.out_put (s : State) (u : Word) : (s.put u).out = s.out ++ [.put u] := rfl

@[simp] theorem State.out_submit (s : State) (u : Word) : (s.submit u).out = s.out ++ [.submit u] := rfl

@[simp] theorem State.out_stopChannel (s : State) (ifid : IfId) :
    (s.stopChannel ifid).out = s.out ++ [.stopChannel ifid] := rfl

@[simp] theorem State.out_notify (s : State) (c : Nat) (d : Dir) :
    (s.notify c d).out = s.out ++ [.periodElapsed c d] := rfl

@[simp] theorem State.nCh_emit (s : State) (o : Out) :
    (s.emit o).nCh = s.nCh := rfl

@[simp] theorem State.chan_emit (s : State) (o : Out) (k : Nat) :
    (s.emit o).chan k = s.chan k := rfl

@[simp] theorem State.half_emit (s : State) (o : Out) (k : Nat) (e : Dir) :
    (s.emit o).half k e = s.half k e := rfl

@[simp] theorem State.loop_emit (s : State) (o : Out) (k : Nat) :
    (s.emit o).loop k = s.loop k := rfl

@[simp] theorem State.nCh_setUnit (s : State) (x : TransferUnit) :
    (s.setUnit x).nCh = s.nCh := rfl

@[simp] theorem State.chan_setUnit (s : State) (x : TransferUnit) (k : Nat) :
    (s.setUnit x).chan k = s.chan k := rfl

@[simp] theorem State.half_setUnit (s : State) (x : TransferUnit) (k : Nat) (e : Dir) :
    (s.setUnit x).half k e = s.half k e := rfl

@[simp] theorem State.loop_setUnit (s : State) (x : TransferUnit) (k : Nat) :
    (s.setUnit x).loop k = s.loop k := rfl

@[simp] theorem State.nCh_put (s : State) (u : Word) :
    (s.put u).nCh = s.nCh := rfl

@[simp] theorem State.chan_put (s : State) (u : Word) (k : Nat) :
    (s.put u).chan k = s.chan k := rfl

@[simp] theorem State.half_put (s : State) (u : Word) (k : Nat) (e : Dir) :
    (s.put u).half k e = s.half k e := rfl

@[simp] theorem State.loop_put (s : State) (u : Word) (k : Nat) :
    (s.put u).loop k = s.loop k := rfl

@[simp] theorem State.nCh_submit (s : State) (u : Word) :
    (s.submit u).nCh = s.nCh := rfl

@[simp] theorem State.chan_submit (s : State) (u : Word) (k : Nat) :
    (s.submit u).chan k = s.chan k := rfl

@[simp] theorem State.half_submit (s : State) (u : Word) (k : Nat) (e : Dir) :
    (s.submit u).half k e = s.half k e := rfl

@[simp] theorem State.loop_submit (s : State) (u : Word) (k : Nat) :
    (s.submit u).loop k = s.loop k := rfl

@[simp] theorem State.nCh_stopChannel (s : State) (ifid : IfId) :
    (s.stopChannel ifid).nCh = s.nCh := rfl

@[simp] theorem State.chan_stopChannel (s : State) (ifid : IfId) (k : Nat) :
    (s.stopChannel ifid).chan k = s.chan k := rfl

@[simp] theorem State.half_stopChannel (s : State) (ifid : IfId) (k : Nat) (e : Dir) :
    (s.stopChannel ifid).half k e = s.half k e := rfl

@[simp] theorem State.loop_stopChannel (s : State) (ifid : IfId) (k : Nat) :
    (s.stopChannel ifid).loop k = s.loop k := rfl

@[simp] theorem State.nCh_notify (s : State) (c : Nat) (d : Dir) :
    (s.notify c d).nCh = s.nCh := rfl

@[simp] theorem State.chan_notify (s : State) (c : Nat) (d : Dir) (k : Nat) :
    (s.notify c d).chan k = s.chan k := rfl

@[simp] theorem State.half_notify (s : State) (c : Nat) (d : Dir) (k : Nat) (e : Dir) :
    (s.notify c d).half k e = s.half k e := rfl

@[simp] theorem State.loop_notify (s : State) (c : Nat) (d : Dir) (k : Nat) :
    (s.notify c d).loop k = s.loop k := rfl

@[simp] theorem State.unitOf_setChan (s : State) (c : Nat) (ch : Channel) (v : Word) :
    (s.setChan c ch).unitOf v = s.unitOf v := rfl

@[simp] theorem State.unitOf_setHalf (s : State) (c : Nat) (d : Dir) (h : Half) (v : Word) :
    (s.setHalf c d h).unitOf v = s.unitOf v := rfl

@[simp] theorem State.unitOf_setLoop (s : State) (c : Nat) (l : Loop) (v : Word) :
    (s.setLoop c l).unitOf v = s.unitOf v := rfl

@[simp] theorem State.unitOf_emit (s : State) (o : Out) (v : Word) :
    (s.emit o).unitOf v = s.unitOf v := rfl

@[simp] theorem State.unitOf_put (s : State) (u : Word) (v : Word) :
    (s.put u).unitOf v = s.unitOf v := rfl

@[simp] theorem State.unitOf_submit (s : State) (u : Word) (v : Word) :
    (s.submit u).unitOf v = s.unitOf v := rfl

@[simp] theorem State.unitOf_stopChannel (s : State) (ifid : IfId) (v : Word) :
    (s.stopChannel ifid).unitOf v = s.unitOf v := rfl

@[simp] theorem State.unitOf_notify (s : State) (c : Nat) (d : Dir) (v : Word) :
    (s.notify c d).unitOf v = s.unitOf v := rfl

end Sys2Proof.Machine
end

