-- ==== Sys2Proof/Laws/Memory.lean ====
section
/-! SUPPORT. The laws of byte memories and of the list of units: a read after a write gives the value
written, a write leaves every other offset alone, and every operation keeps the canonical form. -/

namespace Sys2Proof.Machine

/-! ## Bytes -/

theorem Memory.find_write (m : Memory) (o o' : Nat) (b : Byte) :
    (m.write o b).find o' = if o' = o then some b else m.find o' := by
  induction m with
  | nil => by_cases h : o' = o <;> simp [Memory.write, Memory.find, h, Ne.symm]
  | cons cell m ih =>
    obtain ⟨x, v⟩ := cell
    unfold Memory.write
    by_cases h1 : o < x
    · rw [if_pos h1]
      by_cases h : o' = o <;> simp [Memory.find, h, Ne.symm]
    · rw [if_neg h1]
      by_cases h2 : o = x
      · rw [if_pos h2]
        subst h2
        by_cases h : o' = o <;> simp [Memory.find, h, Ne.symm]
      · rw [if_neg h2]
        simp only [Memory.find, ih]
        by_cases h3 : x = o'
        · subst h3
          simp [Ne.symm h2]
        · simp [h3]

theorem Memory.find_writeBytes (m : Memory) (o : Nat) (bs : List Byte) (o' : Nat) :
    (m.writeBytes o bs).find o' =
      if o ≤ o' ∧ o' < o + bs.length then bs[o' - o]? else m.find o' := by
  induction bs generalizing m o with
  | nil =>
    have h : ¬ (o ≤ o' ∧ o' < o + ([] : List Byte).length) := by
      simp only [List.length_nil]; omega
    rw [if_neg h]
    rfl
  | cons b bs ih =>
    rw [Memory.writeBytes, ih, Memory.find_write]
    by_cases h1 : o' = o
    · subst h1
      have h2 : ¬ (o' + 1 ≤ o' ∧ o' < o' + 1 + bs.length) := by omega
      rw [if_neg h2]
      simp
    · by_cases h2 : o + 1 ≤ o' ∧ o' < o + 1 + bs.length
      · have h3 : o ≤ o' ∧ o' < o + (b :: bs).length := by simp only [List.length_cons]; omega
        rw [if_pos h2, if_pos h3]
        obtain ⟨k, hk⟩ : ∃ k, o' - o = k + 1 := ⟨o' - o - 1, by omega⟩
        rw [hk, List.getElem?_cons_succ]
        congr 1
        omega
      · have h3 : ¬ (o ≤ o' ∧ o' < o + (b :: bs).length) := by
          simp only [List.length_cons]; omega
        rw [if_neg h2, if_neg h3, if_neg h1]

theorem Memory.read_writeBytes_inside (sp : Space) (m : Memory) (o k : Nat) (bs : List Byte)
    (hk : k < bs.length) : (m.writeBytes o bs).read sp (o + k) = bs[k] := by
  unfold Memory.read
  rw [Memory.find_writeBytes, if_pos ⟨by omega, by omega⟩]
  have : o + k - o = k := by omega
  simp [this, List.getElem?_eq_getElem hk]

theorem Memory.read_writeBytes_outside (sp : Space) (m : Memory) (o o' : Nat) (bs : List Byte)
    (h : ¬ (o ≤ o' ∧ o' < o + bs.length)) :
    (m.writeBytes o bs).read sp o' = m.read sp o' := by
  unfold Memory.read
  rw [Memory.find_writeBytes, if_neg h]

theorem Memory.writeBytes_append (m : Memory) (o : Nat) (bs bs' : List Byte) :
    m.writeBytes o (bs ++ bs') = (m.writeBytes o bs).writeBytes (o + bs.length) bs' := by
  induction bs generalizing m o with
  | nil => simp [Memory.writeBytes]
  | cons b bs ih =>
    simp only [List.cons_append, Memory.writeBytes, ih, List.length_cons]
    congr 1
    omega

theorem Memory.mem_write {m : Memory} {o : Nat} {b : Byte} {cell : Host.Cell}
    (h : cell ∈ m.write o b) : cell = (o, b) ∨ cell ∈ m := by
  induction m with
  | nil => simpa [Memory.write] using h
  | cons y m ih =>
    obtain ⟨x, v⟩ := y
    unfold Memory.write at h
    split at h
    · simpa using h
    · split at h
      · rcases List.mem_cons.1 h with h | h
        · exact .inl h
        · exact .inr (List.mem_cons_of_mem _ h)
      · rcases List.mem_cons.1 h with h | h
        · exact .inr (h ▸ List.mem_cons_self)
        · rcases ih h with h | h
          · exact .inl h
          · exact .inr (List.mem_cons_of_mem _ h)

theorem Memory.mem_writeBytes {m : Memory} {o : Nat} {bs : List Byte} {cell : Host.Cell}
    (h : cell ∈ m.writeBytes o bs) : (o ≤ cell.1 ∧ cell.1 < o + bs.length) ∨ cell ∈ m := by
  induction bs generalizing m o with
  | nil => exact .inr h
  | cons b bs ih =>
    rcases ih h with h | h
    · simp only [List.length_cons]
      exact .inl ⟨by omega, by omega⟩
    · rcases Memory.mem_write h with h | h
      · subst h
        simp only [List.length_cons]
        exact .inl ⟨Nat.le_refl _, by omega⟩
      · exact .inr h

theorem Memory.wf_write {m : Memory} (h : m.wf) (o : Nat) (b : Byte) : (m.write o b).wf := by
  induction m with
  | nil => simp [Memory.write, Memory.wf]
  | cons y m ih =>
    obtain ⟨x, v⟩ := y
    obtain ⟨h1, h2⟩ := List.pairwise_cons.1 h
    unfold Memory.write
    split
    · refine List.pairwise_cons.2 ⟨fun cell hc => ?_, h⟩
      rcases List.mem_cons.1 hc with hc | hc
      · subst hc; assumption
      · exact Nat.lt_trans ‹_› (h1 cell hc)
    · split
      · exact List.pairwise_cons.2 ⟨fun cell hc => ‹o = x› ▸ h1 cell hc, h2⟩
      · refine List.pairwise_cons.2 ⟨fun cell hc => ?_, ih h2⟩
        rcases Memory.mem_write hc with hc | hc
        · subst hc
          show x < o
          omega
        · exact h1 cell hc

theorem Memory.wf_writeBytes {m : Memory} (h : m.wf) (o : Nat) (bs : List Byte) :
    (m.writeBytes o bs).wf := by
  induction bs generalizing m o with
  | nil => exact h
  | cons b bs ih => exact ih (Memory.wf_write h o b) (o + 1)

/-! ## Units -/

theorem find_insertUnit (x : TransferUnit) (l : List TransferUnit) (u : Word) :
    (insertUnit x l).find? (fun y => decide (y.handle = u)) =
      if u = x.handle then some x else l.find? (fun y => decide (y.handle = u)) := by
  induction l with
  | nil => by_cases h : u = x.handle <;> simp [insertUnit, h, eq_comm]
  | cons y l ih =>
    unfold insertUnit
    by_cases h1 : x.handle.toNat < y.handle.toNat
    · rw [if_pos h1]
      by_cases h : u = x.handle <;> simp [List.find?_cons, h, eq_comm]
    · rw [if_neg h1]
      by_cases h2 : x.handle = y.handle
      · rw [if_pos h2]
        by_cases h : u = x.handle
        · subst h; simp
        · have h3 : ¬ x.handle = u := fun e => h e.symm
          have h4 : ¬ y.handle = u := fun e => h (h2 ▸ e.symm)
          simp [h, h3, h4]
      · rw [if_neg h2]
        by_cases h3 : y.handle = u
        · have h4 : ¬ u = x.handle := fun e => h2 (e ▸ h3.symm)
          simp [h3, h4]
        · simp [h3, ih]

theorem State.unitOf_setUnit (s : State) (x : TransferUnit) (u : Word) :
    (s.setUnit x).unitOf u = if u = x.handle then some x else s.unitOf u :=
  find_insertUnit x s.units u

theorem State.unitOf_handle {s : State} {u : Word} {x : TransferUnit} (h : s.unitOf u = some x) :
    x.handle = u := by
  have := List.find?_some h
  simpa using this

theorem State.unitOf_mem {s : State} {u : Word} {x : TransferUnit} (h : s.unitOf u = some x) :
    x ∈ s.units := List.mem_of_find?_eq_some h

theorem mem_insertUnit {x y : TransferUnit} {l : List TransferUnit} (h : y ∈ insertUnit x l) :
    y = x ∨ y ∈ l := by
  induction l with
  | nil => simpa [insertUnit] using h
  | cons z l ih =>
    unfold insertUnit at h
    split at h
    · simpa using h
    · split at h
      · rcases List.mem_cons.1 h with h | h
        · exact .inl h
        · exact .inr (List.mem_cons_of_mem _ h)
      · rcases List.mem_cons.1 h with h | h
        · exact .inr (h ▸ List.mem_cons_self)
        · rcases ih h with h | h
          · exact .inl h
          · exact .inr (List.mem_cons_of_mem _ h)

theorem insertUnit_sorted {x : TransferUnit} {l : List TransferUnit}
    (h : l.Pairwise (fun y z => y.handle.toNat < z.handle.toNat)) :
    (insertUnit x l).Pairwise (fun y z => y.handle.toNat < z.handle.toNat) := by
  induction l with
  | nil => simp [insertUnit]
  | cons y l ih =>
    obtain ⟨h1, h2⟩ := List.pairwise_cons.1 h
    unfold insertUnit
    split
    · refine List.pairwise_cons.2 ⟨fun z hz => ?_, h⟩
      rcases List.mem_cons.1 hz with hz | hz
      · subst hz; assumption
      · exact Nat.lt_trans ‹_› (h1 z hz)
    · split
      · rename_i _ he
        exact List.pairwise_cons.2 ⟨fun z hz => by rw [he]; exact h1 z hz, h2⟩
      · rename_i hlt hne
        refine List.pairwise_cons.2 ⟨fun z hz => ?_, ih h2⟩
        rcases mem_insertUnit hz with hz | hz
        · subst hz
          have : z.handle.toNat ≠ y.handle.toNat := fun e => hne (BitVec.eq_of_toNat_eq e)
          omega
        · exact h1 z hz

/-- The later of two records with one handle stays. -/
theorem insertUnit_insertUnit {x y : TransferUnit} (h : x.handle = y.handle)
    (l : List TransferUnit) : insertUnit x (insertUnit y l) = insertUnit x l := by
  induction l with
  | nil => simp [insertUnit, h]
  | cons z l ih =>
    unfold insertUnit
    by_cases h1 : y.handle.toNat < z.handle.toNat
    · simp [h1, h, insertUnit]
    · by_cases h2 : y.handle = z.handle
      · simp [h2, h, insertUnit]
      · simp [h1, h2, h, insertUnit, ih]

/-! ## Memories by name -/

@[simp] theorem State.mem_emit (s : State) (o : Out) (sp : Space) : (s.emit o).mem sp = s.mem sp := by
  cases sp <;> rfl

@[simp] theorem State.mem_setLoop (s : State) (c : Nat) (l : Loop) (sp : Space) :
    (s.setLoop c l).mem sp = s.mem sp := by
  cases sp with
  | ring c' d => simp [State.mem]
  | unit u => rfl

@[simp] theorem State.readByte_emit (s : State) (o : Out) (sp : Space) (k : Nat) :
    (s.emit o).readByte sp k = s.readByte sp k := by
  simp [State.readByte]

@[simp] theorem State.readByte_setLoop (s : State) (c : Nat) (l : Loop) (sp : Space) (k : Nat) :
    (s.setLoop c l).readByte sp k = s.readByte sp k := by
  simp [State.readByte]

theorem State.mem_setHalf_of_ring (s : State) (c : Nat) (d : Dir) (h : Half)
    (hr : h.ring = (s.half c d).ring) (sp : Space) : (s.setHalf c d h).mem sp = s.mem sp := by
  cases sp with
  | ring c' d' =>
    simp only [State.mem, State.half_setHalf]
    split
    · rename_i he
      rw [hr, he.1, he.2.1]
    · rfl
  | unit u => rfl

theorem State.readByte_setHalf_of_ring (s : State) (c : Nat) (d : Dir) (h : Half)
    (hr : h.ring = (s.half c d).ring) (sp : Space) (k : Nat) :
    (s.setHalf c d h).readByte sp k = s.readByte sp k := by
  rw [State.readByte, State.mem_setHalf_of_ring s c d h hr]
  rfl

/-- A ring that exists is one of a Channel, and has the size of its half's ring. -/
theorem State.memSize_ring {s : State} {c : Nat} {d : Dir} {n : Nat}
    (h : s.memSize (.ring c d) = some n) : c < s.nCh ∧ n = (s.half c d).ringSize := by
  by_cases hc : c < s.nCh
  · simp only [State.memSize, hc, if_true, Option.some.injEq] at h
    exact ⟨hc, h.symm⟩
  · simp [State.memSize, hc] at h

/-- Every memory after one that exists was replaced. -/
theorem State.mem_setMem {s : State} {sp : Space} {n : Nat} (h : s.memSize sp = some n) (m : Memory)
    (sp' : Space) : (s.setMem sp m).mem sp' = if sp' = sp then m else s.mem sp' := by
  cases sp with
  | ring c d =>
    have hc := (State.memSize_ring h).1
    cases sp' with
    | ring c' d' =>
      simp only [State.setMem, State.mem, State.half_setHalf, hc, and_true, Space.ring.injEq]
      by_cases he : c' = c ∧ d' = d
      · rw [if_pos he, if_pos he]
      · rw [if_neg he, if_neg he]
    | unit u => simp [State.setMem, State.mem]
  | unit u =>
    cases hu : s.unitOf u with
    | none => simp [State.memSize, hu] at h
    | some x =>
      have hx := State.unitOf_handle hu
      cases sp' with
      | ring c' d' => simp [State.setMem, State.mem, hu]
      | unit u' =>
        simp only [State.setMem, State.mem, hu, State.unitOf_setUnit, hx, Space.unit.injEq]
        by_cases he : u' = u
        · simp [he]
        · simp [he]

end Sys2Proof.Machine
end

