-- ==== Sys2Proof/Laws/Ops.lean ====
section
/-! SUPPORT. One lemma per shared operation that says everything it can do; the proofs about the
meanings cite these instead of unfolding the operation. -/

namespace Sys2Proof.Machine

/-! ## The codec's byte permutation -/

theorem Codec.group_pos (sel : Codec) : 0 < sel.group := by cases sel <;> decide

/-- Byte `g*k + j` of the destination comes from byte `g*k + (g-1-j)` of the source. -/
theorem Codec.srcIndex_group (sel : Codec) (k j : Nat) (hj : j < sel.group) :
    sel.srcIndex (sel.group * k + j) = sel.group * k + (sel.group - 1 - j) := by
  have hg := sel.group_pos
  unfold Codec.srcIndex
  rw [Nat.mul_add_div hg, Nat.mul_add_mod, Nat.div_eq_of_lt hj, Nat.mod_eq_of_lt hj, Nat.add_zero]

theorem Codec.srcIndex_split (sel : Codec) (i : Nat) :
    ∃ k j, j < sel.group ∧ i = sel.group * k + j :=
  ⟨i / sel.group, i % sel.group, Nat.mod_lt _ sel.group_pos, (Nat.div_add_mod i sel.group).symm⟩

theorem Codec.srcIndex_srcIndex (sel : Codec) (i : Nat) : sel.srcIndex (sel.srcIndex i) = i := by
  obtain ⟨k, j, hj, rfl⟩ := sel.srcIndex_split i
  rw [sel.srcIndex_group k j hj, sel.srcIndex_group k _ (by omega)]
  omega

theorem Codec.srcIndex_lt (sel : Codec) (i n : Nat) (hn : n % sel.group = 0) (hi : i < n) :
    sel.srcIndex i < n := by
  obtain ⟨k, j, hj, rfl⟩ := sel.srcIndex_split i
  rw [sel.srcIndex_group k j hj]
  obtain ⟨q, rfl⟩ := Nat.dvd_of_mod_eq_zero hn
  have hkq : k < q := Nat.lt_of_mul_lt_mul_left (a := sel.group) (by omega)
  have := Nat.mul_le_mul_left sel.group hkq
  rw [Nat.mul_succ] at this
  omega

theorem Codec.srcIndex_add (sel : Codec) (m i : Nat) (hm : m % sel.group = 0) :
    sel.srcIndex (m + i) = m + sel.srcIndex i := by
  obtain ⟨q, rfl⟩ := Nat.dvd_of_mod_eq_zero hm
  obtain ⟨k, j, hj, rfl⟩ := sel.srcIndex_split i
  rw [← Nat.add_assoc, ← Nat.mul_add, sel.srcIndex_group _ j hj, sel.srcIndex_group _ j hj]
  rw [Nat.mul_add, Nat.add_assoc]

/-! ## `Convert` -/

/-- `convert` answers exactly when the byte count is whole groups, and then writes the permuted
bytes. -/
theorem convert_eq_ok {sel : Codec} {dst m : Memory} {dstOff srcOff n : Nat} {src : Nat → Byte} :
    convert sel dst dstOff src srcOff n = .ok m ↔
      n % sel.group = 0 ∧
      m = dst.writeBytes dstOff ((List.range n).map (fun i => src (srcOff + sel.srcIndex i))) := by
  unfold convert
  by_cases h : n % sel.group = 0
  · simp [h, eq_comm]
  · simp [h]

theorem convert_eq_error {sel : Codec} {dst : Memory} {dstOff srcOff n : Nat} {src : Nat → Byte}
    {f : Fault} (h : convert sel dst dstOff src srcOff n = .error f) :
    f = .codecLength ∧ n % sel.group ≠ 0 := by
  unfold convert at h
  split at h
  · injection h with h
    exact ⟨h.symm, ‹_›⟩
  · cases h

/-- Every byte after `convert`. -/
theorem convert_read {sel : Codec} {dst m : Memory} {dstOff srcOff n : Nat} {src : Nat → Byte}
    (h : convert sel dst dstOff src srcOff n = .ok m) (sp : Space) (o : Nat) :
    m.read sp o =
      if dstOff ≤ o ∧ o < dstOff + n then src (srcOff + sel.srcIndex (o - dstOff))
      else dst.read sp o := by
  obtain ⟨-, rfl⟩ := convert_eq_ok.1 h
  split
  · rename_i hin
    have hk : o - dstOff < ((List.range n).map (fun i => src (srcOff + sel.srcIndex i))).length := by
      simp only [List.length_map, List.length_range]
      omega
    have := Memory.read_writeBytes_inside sp dst dstOff (o - dstOff) _ hk
    rw [show dstOff + (o - dstOff) = o by omega] at this
    simpa using this
  · rename_i hout
    exact Memory.read_writeBytes_outside sp dst dstOff o _ (by simpa using hout)

theorem convert_wf {sel : Codec} {dst m : Memory} {dstOff srcOff n : Nat} {src : Nat → Byte}
    (h : convert sel dst dstOff src srcOff n = .ok m) (hd : dst.wf) : m.wf := by
  obtain ⟨-, rfl⟩ := convert_eq_ok.1 h
  exact Memory.wf_writeBytes hd _ _

theorem convert_within {sel : Codec} {dst m : Memory} {dstOff srcOff n cap : Nat} {src : Nat → Byte}
    (h : convert sel dst dstOff src srcOff n = .ok m) (hd : ∀ cell ∈ dst, cell.1 < cap)
    (hn : dstOff + n ≤ cap) : ∀ cell ∈ m, cell.1 < cap := by
  obtain ⟨-, rfl⟩ := convert_eq_ok.1 h
  intro cell hc
  rcases Memory.mem_writeBytes hc with hc | hc
  · simp only [List.length_map, List.length_range] at hc
    omega
  · exact hd cell hc

/-! ## `CopyFrames` -/

theorem copyPremise_iff {h : Half} {x : TransferUnit} {d : Dir} {n : Nat} :
    copyPremise h x d n = true ↔ CopyPremises h x d n := by
  unfold copyPremise
  constructor
  · intro hp
    simp only [Bool.and_eq_true, decide_eq_true_eq] at hp
    obtain ⟨⟨⟨⟨⟨⟨⟨h1, h2, h3, h4⟩, h5, h6⟩, h7⟩, h8⟩, h9⟩, h11⟩, h10⟩ := hp
    refine ⟨h1, h2, h3, h4, h5, h6, h7, h8, h9, h11, fun hd => ?_, fun hd => ?_⟩ <;> subst hd
    · exact (of_decide_eq_true h10).1
    · exact (of_decide_eq_true h10).2
  · intro hp
    simp only [Bool.and_eq_true, decide_eq_true_eq]
    refine ⟨⟨⟨⟨⟨⟨⟨hp.codec_bound, hp.frame_bytes, hp.ring_frames, hp.period_frames⟩,
      hp.in_ring, hp.in_period⟩, hp.le_ring⟩, hp.le_period⟩, hp.in_unit⟩, hp.in_memory⟩, ?_⟩
    cases d with
    | rx => exact decide_eq_true ⟨hp.delivered rfl, hp.len_in_cap rfl⟩
    | tx => rfl

/-- Everything `CopyFrames` can do when it answers. -/
theorem State.copyFrames_eq_ok {s t : State} {c : Nat} {d : Dir} {u : Word} {n : Nat} {b : Bool}
    (h : s.copyFrames c d u n = .ok (t, b)) :
    ∃ x, s.unitOf u = some x ∧ CopyPremises (s.half c d) x d n ∧ b = (s.half c d).crosses n ∧
      ((d = .rx ∧ ∃ m, captureBytes (s.half c .rx) x n = .ok m ∧
          t = s.setHalf c .rx { (s.half c .rx).advance n with ring := m }) ∨
        (d = .tx ∧ ∃ m, playbackBytes c (s.half c .tx) x n = .ok m ∧
          t = (s.setHalf c .tx ((s.half c .tx).advance n)).setUnit { x with bytes := m })) := by
  unfold State.copyFrames at h
  cases hu : s.unitOf u with
  | none => simp [hu] at h
  | some x =>
    simp only [hu] at h
    by_cases hp : copyPremise (s.half c d) x d n = true
    · rw [if_pos hp] at h
      refine ⟨x, rfl, copyPremise_iff.1 hp, ?_⟩
      cases d with
      | rx =>
        simp only at h
        cases hm : captureBytes (s.half c .rx) x n with
        | error f => simp [hm] at h
        | ok m =>
          simp only [hm, Except.ok.injEq, Prod.mk.injEq] at h
          exact ⟨h.2.symm, .inl ⟨rfl, m, rfl, h.1.symm⟩⟩
      | tx =>
        simp only at h
        cases hm : playbackBytes c (s.half c .tx) x n with
        | error f => simp [hm] at h
        | ok m =>
          simp only [hm, Except.ok.injEq, Prod.mk.injEq] at h
          exact ⟨h.2.symm, .inr ⟨rfl, m, rfl, h.1.symm⟩⟩
    · rw [if_neg hp] at h
      cases h

/-- `CopyFrames` answers inside its premises when a frame holds whole groups. -/
theorem State.copyFrames_ok {s : State} {c : Nat} {d : Dir} {u : Word} {n : Nat} {x : TransferUnit}
    (hu : s.unitOf u = some x) (hp : CopyPremises (s.half c d) x d n)
    (hg : (s.half c d).frameBytes.toNat % (s.half c d).codec.group = 0) :
    ∃ t b, s.copyFrames c d u n = .ok (t, b) := by
  have hmul : ∀ k, k * (s.half c d).frameBytes.toNat % (s.half c d).codec.group = 0 := fun k => by
    rw [Nat.mul_mod, hg]; simp
  unfold State.copyFrames
  simp only [hu, if_pos (copyPremise_iff.2 hp)]
  cases d with
  | rx =>
    unfold captureBytes
    simp only [convert, hmul]
    by_cases hr : (s.half c .rx).room < n <;> simp [hr]
  | tx =>
    unfold playbackBytes
    simp only [convert, hmul]
    by_cases hr : (s.half c .tx).room < n <;> simp [hr]

/-- `CopyFrames` outside its premises (rule R96). -/
theorem State.copyFrames_of_broken {s : State} {c : Nat} {d : Dir} {u : Word} {n : Nat}
    {x : TransferUnit} (hu : s.unitOf u = some x) (hp : ¬ CopyPremises (s.half c d) x d n) :
    s.copyFrames c d u n = .error .copyPremise := by
  have hp' : ¬ copyPremise (s.half c d) x d n = true := fun e => hp (copyPremise_iff.1 e)
  simp only [State.copyFrames, hu, if_neg hp']

/-- Everything a failing `CopyFrames` can say. -/
theorem State.copyFrames_eq_error {s : State} {c : Nat} {d : Dir} {u : Word} {n : Nat} {f : Fault}
    (h : s.copyFrames c d u n = .error f) :
    (f = .noMemory ∧ s.unitOf u = none) ∨
    ∃ x, s.unitOf u = some x ∧
      ((f = .copyPremise ∧ ¬ CopyPremises (s.half c d) x d n) ∨
        (CopyPremises (s.half c d) x d n ∧
          (s.half c d).frameBytes.toNat % (s.half c d).codec.group ≠ 0)) := by
  cases hu : s.unitOf u with
  | none =>
    simp only [State.copyFrames, hu, Except.error.injEq] at h
    exact .inl ⟨h.symm, rfl⟩
  | some x =>
    refine .inr ⟨x, rfl, ?_⟩
    by_cases hp : CopyPremises (s.half c d) x d n
    · refine .inr ⟨hp, fun hg => ?_⟩
      obtain ⟨t, b, hok⟩ := State.copyFrames_ok hu hp hg
      rw [hok] at h
      cases h
    · rw [State.copyFrames_of_broken hu hp, Except.error.injEq] at h
      exact .inl ⟨h.symm, hp⟩

/-- A `CVT` on overlapping ranges of one memory is rejected (U4, log entry 29). -/
theorem State.convertOp_of_overlap {s : State} {sel : Codec} {dst src : MemRef} {n : Nat}
    (hg : n % sel.group = 0) (he : dst.space = src.space) (h1 : dst.off < src.off + n)
    (h2 : src.off < dst.off + n) :
    s.convertOp sel dst src n = s.reply .internal .illegalCommand := by
  have h0 : n ≠ 0 := by omega
  simp [State.convertOp, hg, h0, he, rangesOverlap, h1, h2]

/-- The positions and the other registers after a copy (rules R93, R94). -/
theorem Half.advance_moved {h : Half} {x : TransferUnit} {d : Dir} {n : Nat}
    (hp : CopyPremises h x d n) (m : Memory) : Moved h { h.advance n with ring := m } n := by
  have h1 := hp.in_ring
  have h2 := hp.in_period
  have h3 := hp.le_period
  have h4 := h.ringFrames.isLt
  have h5 := h.periodFrames.isLt
  have h6 : (h.bufPos.toNat + n) % h.ringFrames.toNat < h.ringFrames.toNat :=
    Nat.mod_lt _ hp.ring_frames
  refine ⟨?_, ?_, rfl⟩
  · show (BitVec.ofNat 32 _).toNat = _
    rw [BitVec.toNat_ofNat]
    exact Nat.mod_eq_of_lt (by omega)
  · show (BitVec.ofNat 32 _).toNat = _
    rw [BitVec.toNat_ofNat]
    unfold Half.crosses
    by_cases hc : h.periodFrames.toNat ≤ h.perPos.toNat + n
    · simp only [hc, decide_true, if_true]
      exact Nat.mod_eq_of_lt (by omega)
    · simp only [hc, decide_false, Bool.false_eq_true, if_false]
      exact Nat.mod_eq_of_lt (by omega)

/-- "never leaves `buffer_position` ≥ ring buffer size or `period_position` ≥ period size on return"
(rule R95). -/
theorem Half.advance_in_range {h : Half} {x : TransferUnit} {d : Dir} {n : Nat}
    (hp : CopyPremises h x d n) :
    (h.advance n).bufPos.toNat < h.ringFrames.toNat ∧
    (h.advance n).perPos.toNat < h.periodFrames.toNat := by
  have hm := Half.advance_moved hp (h.advance n).ring
  have h2 := hp.in_period
  have h3 := hp.le_period
  refine ⟨?_, ?_⟩
  · have := hm.bufPos
    simp only at this
    rw [this]
    exact Nat.mod_lt _ hp.ring_frames
  · have := hm.perPos
    simp only at this
    rw [this]
    split <;> omega

/-! ## The bytes of a copy -/

/-- Facts about the two parts of a transfer (rule R97), in bytes. -/
theorem CopyPremises.parts {h : Half} {x : TransferUnit} {d : Dir} {n : Nat}
    (hp : CopyPremises h x d n) :
    h.firstPart n * h.frameBytes.toNat + (n - h.firstPart n) * h.frameBytes.toNat =
      n * h.frameBytes.toNat ∧
    h.bufPos.toNat * h.frameBytes.toNat + h.room * h.frameBytes.toNat =
      h.ringFrames.toNat * h.frameBytes.toNat ∧
    h.firstPart n * h.frameBytes.toNat ≤ h.room * h.frameBytes.toNat ∧
    (n - h.room) * h.frameBytes.toNat ≤ h.bufPos.toNat * h.frameBytes.toNat ∧
    (h.room < n → h.firstPart n = h.room) ∧ (¬ h.room < n → h.firstPart n = n) := by
  have h1 := hp.in_ring
  have h2 := hp.le_ring
  have hr : h.room = h.ringFrames.toNat - h.bufPos.toNat := rfl
  have hf : h.firstPart n = min h.room n := rfl
  refine ⟨?_, ?_, Nat.mul_le_mul_right _ ?_, Nat.mul_le_mul_right _ ?_, ?_, ?_⟩
  · rw [← Nat.add_mul]
    congr 1
    omega
  · rw [← Nat.add_mul]
    congr 1
    omega
  all_goals omega

/-- Where byte `j` of a transfer lies in the ring: from `BUFPOS` on before the wrap, from the start of
the ring after it (rule R99 (g)). -/
theorem CopyPremises.ringOffset {h : Half} {x : TransferUnit} {d : Dir} {n : Nat}
    (hp : CopyPremises h x d n) :
    (∀ j, j < h.firstPart n * h.frameBytes.toNat →
      h.ringOffset j = h.bufPos.toNat * h.frameBytes.toNat + j) ∧
    (∀ k, h.room < n → k < (n - h.room) * h.frameBytes.toNat →
      h.ringOffset (h.firstPart n * h.frameBytes.toNat + k) = k) := by
  obtain ⟨-, p2, p3, p4, p5, -⟩ := hp.parts
  unfold Half.ringOffset
  refine ⟨fun j hj => Nat.mod_eq_of_lt (by omega), fun k hw hk => ?_⟩
  rw [p5 hw, ← Nat.add_assoc, p2, Nat.add_mod_left]
  exact Nat.mod_eq_of_lt (by omega)

/-- Every byte of the ring after a capture (rules R91, R99 (g)). -/
theorem captureBytes_read {h : Half} {x : TransferUnit} {n : Nat} {m : Memory}
    (hp : CopyPremises h x .rx n) (hm : captureBytes h x n = .ok m)
    (hg : h.frameBytes.toNat % h.codec.group = 0) (sp : Space) :
    (∀ j, j < n * h.frameBytes.toNat →
      m.read sp (h.ringOffset j) = x.bytes.read (.unit x.handle) (h.codec.srcIndex j)) ∧
    (∀ o, (∀ j, j < n * h.frameBytes.toNat → o ≠ h.ringOffset j) →
      m.read sp o = h.ring.read sp o) := by
  obtain ⟨p1, p2, p3, p4, p5, p6⟩ := hp.parts
  obtain ⟨q1, q2⟩ := hp.ringOffset
  have hmul : h.firstPart n * h.frameBytes.toNat % h.codec.group = 0 := by
    rw [Nat.mul_mod, hg]; simp
  dsimp only [captureBytes] at hm
  split at hm
  · cases hm
  rename_i m1 h1
  have r1 := fun o => convert_read h1 sp o
  split at hm
  · rename_i hw
    have e := p5 hw
    have r2 := fun o => convert_read hm sp o
    refine ⟨fun j hj => ?_, fun o ho => ?_⟩
    · by_cases hlt : j < h.firstPart n * h.frameBytes.toNat
      · rw [q1 j hlt, r2, if_neg (by rw [e]; omega), r1, if_pos (by omega)]
        simp
      · obtain ⟨k, rfl⟩ := Nat.le.dest (Nat.le_of_not_lt hlt)
        rw [e] at p1
        have hk : k < (n - h.room) * h.frameBytes.toNat := by rw [e] at hj; omega
        rw [q2 k hw hk, r2, if_pos (by rw [e]; omega), h.codec.srcIndex_add _ _ hmul]
        simp
    · rw [r2, if_neg, r1, if_neg]
      · rintro ⟨h3, h4⟩
        obtain ⟨k, rfl⟩ := Nat.le.dest h3
        exact ho k (by omega) (q1 k (by omega)).symm
      · rintro ⟨-, h4⟩
        rw [e, Nat.zero_add] at h4
        refine ho (h.firstPart n * h.frameBytes.toNat + o) ?_ (q2 o hw h4).symm
        rw [e] at p1 ⊢
        omega
  · rename_i hw
    have e := p6 hw
    cases hm
    refine ⟨fun j hj => ?_, fun o ho => ?_⟩
    · rw [q1 j (by rw [e]; exact hj), r1, if_pos (by rw [e]; omega)]
      simp
    · rw [r1, if_neg]
      rintro ⟨h3, h4⟩
      obtain ⟨k, rfl⟩ := Nat.le.dest h3
      rw [e] at h4
      exact ho k (by omega) (q1 k (by rw [e]; omega)).symm

/-- A capture leaves every offset beyond the end of the ring alone (rules R97, R177). -/
theorem captureBytes_end {h : Half} {x : TransferUnit} {n : Nat} {m : Memory}
    (hp : CopyPremises h x .rx n) (hm : captureBytes h x n = .ok m) (sp : Space) {o : Nat}
    (ho : h.ringSize ≤ o) : m.read sp o = h.ring.read sp o := by
  obtain ⟨p1, p2, p3, p4, p5, -⟩ := hp.parts
  have h7 := hp.in_memory
  dsimp only [captureBytes] at hm
  split at hm
  · cases hm
  rename_i m1 h1
  have r1 : m1.read sp o = h.ring.read sp o := by
    rw [convert_read h1, if_neg (by omega)]
  split at hm
  · rename_i hw
    rw [convert_read hm, if_neg (by rw [p5 hw]; omega), r1]
  · cases hm
    exact r1

/-- P7 is never what stops a copy on a streaming half: the ring holds exactly the bytes that the
registers name (rule R177). -/
theorem Half.Negotiated.in_memory {h : Half} (hn : h.Negotiated) (hs : h.lstate.streaming) :
    h.ringSize = h.ringFrames.toNat * h.frameBytes.toNat := by
  rw [Half.ringSize, hn.streaming_frame hs]

/-- Every byte of the unit after a playback (rules R92, R99 (g)). -/
theorem playbackBytes_read {c : Nat} {h : Half} {x : TransferUnit} {n : Nat} {m : Memory}
    (hp : CopyPremises h x .tx n) (hm : playbackBytes c h x n = .ok m)
    (hg : h.frameBytes.toNat % h.codec.group = 0) (sp : Space) :
    (∀ j, j < n * h.frameBytes.toNat →
      m.read sp j = h.ring.read (.ring c .tx) (h.ringOffset (h.codec.srcIndex j))) ∧
    (∀ o, n * h.frameBytes.toNat ≤ o → m.read sp o = x.bytes.read sp o) := by
  obtain ⟨p1, p2, p3, p4, p5, p6⟩ := hp.parts
  obtain ⟨q1, q2⟩ := hp.ringOffset
  have hmul : ∀ k, k * h.frameBytes.toNat % h.codec.group = 0 := fun k => by
    rw [Nat.mul_mod, hg]; simp
  dsimp only [playbackBytes] at hm
  split at hm
  · cases hm
  rename_i m1 h1
  have r1 := fun o => convert_read h1 sp o
  split at hm
  · rename_i hw
    have e := p5 hw
    have r2 := fun o => convert_read hm sp o
    refine ⟨fun j hj => ?_, fun o ho => ?_⟩
    · by_cases hlt : j < h.firstPart n * h.frameBytes.toNat
      · have := h.codec.srcIndex_lt j _ (hmul _) hlt
        rw [q1 _ this, r2, if_neg (by omega), r1, if_pos (by omega)]
        simp
      · obtain ⟨k, rfl⟩ := Nat.le.dest (Nat.le_of_not_lt hlt)
        have hk : k < (n - h.firstPart n) * h.frameBytes.toNat := by omega
        have := h.codec.srcIndex_lt k _ (hmul _) hk
        rw [h.codec.srcIndex_add _ _ (hmul _), q2 _ hw (by rw [e] at this; exact this), r2,
          if_pos (by omega)]
        simp
    · rw [r2, if_neg (by omega), r1, if_neg (by omega)]
  · rename_i hw
    have e := p6 hw
    cases hm
    refine ⟨fun j hj => ?_, fun o ho => ?_⟩
    · have := h.codec.srcIndex_lt j _ (hmul _) hj
      rw [q1 _ (by rw [e]; exact this), r1, if_pos (by rw [e]; omega)]
      simp
    · rw [r1, if_neg (by rw [e]; omega)]

/-! ## Units and pools -/

/-- Everything `ACQUIRE` can do when it answers a unit. -/
theorem State.acquire_eq_some {s t : State} {ifid : IfId} {u : Word}
    (h : s.acquire ifid = some (u, t)) :
    (∃ us, s.poolOf ifid = u :: us) ∧
    t = { s with pool := s.pool.erase u }.emit (.acquire ifid u) := by
  unfold State.acquire at h
  cases hp : s.poolOf ifid with
  | nil => simp [hp] at h
  | cons v vs =>
    simp only [hp, Option.some.injEq, Prod.mk.injEq] at h
    obtain ⟨rfl, rfl⟩ := h
    exact ⟨⟨vs, rfl⟩, rfl⟩

theorem State.acquire_eq_none {s : State} {ifid : IfId} :
    s.acquire ifid = none ↔ s.poolOf ifid = [] := by
  unfold State.acquire
  cases s.poolOf ifid <;> simp

/-- The answer of `START_CHANNEL`, and the state it leaves. -/
theorem State.startChannel_eq (s : State) (ifid : IfId) (ppx : Word) :
    s.startChannel ifid ppx =
      (s.nextStartAnswer,
        s.afterStartAnswer.emit (.startChannel ifid ppx s.nextStartAnswer)) := by
  unfold State.startChannel State.nextStartAnswer State.afterStartAnswer
  cases s.startAnswers <;> rfl

@[simp] theorem State.chans_afterStartAnswer (s : State) : s.afterStartAnswer.chans = s.chans := by
  unfold State.afterStartAnswer
  cases s.startAnswers <;> rfl

@[simp] theorem State.units_afterStartAnswer (s : State) : s.afterStartAnswer.units = s.units := by
  unfold State.afterStartAnswer
  cases s.startAnswers <;> rfl

@[simp] theorem State.pool_afterStartAnswer (s : State) : s.afterStartAnswer.pool = s.pool := by
  unfold State.afterStartAnswer
  cases s.startAnswers <;> rfl

@[simp] theorem State.out_afterStartAnswer (s : State) : s.afterStartAnswer.out = s.out := by
  unfold State.afterStartAnswer
  cases s.startAnswers <;> rfl

@[simp] theorem State.periodMax_afterStartAnswer (s : State) :
    s.afterStartAnswer.periodMax = s.periodMax := by
  unfold State.afterStartAnswer
  cases s.startAnswers <;> rfl

@[simp] theorem State.agenda_afterStartAnswer (s : State) :
    s.afterStartAnswer.agenda = s.agenda := by
  unfold State.afterStartAnswer
  cases s.startAnswers <;> rfl

/-- `Lookup` finds a half that is bound to the pair, or there is none (rule R135). -/
theorem State.lookup_eq_some {s : State} {d : Dir} {ifid : IfId} {c : Nat}
    (h : s.lookup d ifid = some c) : s.BoundTo d ifid c := by
  unfold State.lookup at h
  have h1 := List.mem_of_find?_eq_some h
  have h2 := List.find?_some h
  simp only [Bool.and_eq_true, decide_eq_true_eq] at h2
  exact ⟨List.mem_range.1 h1, h2.1, h2.2⟩

theorem State.lookup_eq_none {s : State} {d : Dir} {ifid : IfId} :
    s.lookup d ifid = none ↔ ∀ c, ¬ s.BoundTo d ifid c := by
  unfold State.lookup
  rw [List.find?_eq_none]
  constructor
  · intro h c hc
    have := h c (List.mem_range.2 hc.1)
    simp [hc.2.1, hc.2.2] at this
  · intro h c hc hb
    simp only [Bool.and_eq_true, decide_eq_true_eq] at hb
    exact h c ⟨List.mem_range.1 hc, hb.1, hb.2⟩

/-- With unique bindings `Lookup` finds every bound half. -/
theorem State.lookup_of_bound {s : State} {d : Dir} {ifid : IfId} {c : Nat}
    (hu : s.BindingsUnique) (h : s.BoundTo d ifid c) : s.lookup d ifid = some c := by
  cases hl : s.lookup d ifid with
  | none => exact absurd h (State.lookup_eq_none.1 hl c)
  | some c' =>
    have h' := State.lookup_eq_some hl
    rw [hu d c c' h.2.1 h'.2.1 (h.2.2.trans h'.2.2.symm)]

/-- What silence and padding do to a live unit. -/
theorem State.zeroUnit_eq {s : State} {u : Word} {x : TransferUnit} (hu : s.unitOf u = some x)
    (o n : Nat) :
    s.zeroUnit u o n = s.setUnit { x with bytes := x.bytes.writeBytes o (List.replicate n 0) } := by
  simp [State.zeroUnit, State.setMem, State.mem, hu]

end Sys2Proof.Machine
end

