-- ==== Sys2Proof/Laws/Frames.lean ====
section
/-! SUPPORT. The frames of the shared updates: what setting a half, setting a loop and sending a message
change, in the terms of Safety.lean. -/

namespace Sys2Proof.Machine

theorem keepsRest_refl (s : State) : KeepsRest s s := ⟨rfl, rfl, rfl, rfl, rfl, rfl⟩

/-- Sending messages changes nothing else. -/
theorem onlySent_emit (s : State) (o : Out) : OnlySent s (s.emit o) [o] where
  halves := fun _ _ _ => rfl
  loops := fun _ _ => rfl
  tunables := fun _ => ⟨rfl, rfl⟩
  units := ⟨rfl, rfl⟩
  bytes := fun sp k => s.readByte_emit o sp k
  rest := ⟨rfl, rfl, rfl, rfl, rfl, rfl⟩
  sent := rfl

/-- Setting a half but for its ring, and its Supply Loop, and nothing else. -/
theorem onlyChannel_setHalf_setLoop (s : State) (c : Nat) (d : Dir) (h : Half) (lp : Loop)
    (hc : c < s.nCh) (hr : h.ring = (s.half c d).ring) :
    OnlyChannel s ((s.setLoop c lp).setHalf c d h) c d h lp [] where
  half := by simp [hc]
  halves := fun c' d' hn => by simp [State.half_setHalf_of_ne, hn]
  loop := by simp [hc]
  loops := fun c' hn => by simp [State.loop_setLoop_of_ne, hn]
  tunables := fun c' => by simp
  units := ⟨rfl, rfl⟩
  bytes := fun sp k => by
    rw [State.readByte_setHalf_of_ring _ c d h (by simpa using hr), State.readByte_setLoop]
  rest := ⟨by simp, rfl, rfl, rfl, rfl, rfl⟩
  sent := by simp [Sent]

/-- Setting a half but for its ring. -/
theorem onlyHalf_setHalf (s : State) (c : Nat) (d : Dir) (h : Half) (hc : c < s.nCh)
    (hr : h.ring = (s.half c d).ring) : OnlyHalf s (s.setHalf c d h) c d h [] where
  half := by simp [hc]
  halves := fun c' d' hn => by simp [State.half_setHalf_of_ne, hn]
  loop := by simp
  loops := fun c' _ => by simp
  tunables := fun c' => by simp
  units := ⟨rfl, rfl⟩
  bytes := fun sp k => State.readByte_setHalf_of_ring _ c d h hr sp k
  rest := ⟨by simp, rfl, rfl, rfl, rfl, rfl⟩
  sent := by simp [Sent]

/-- Setting a Supply Loop. -/
theorem onlyLoop_setLoop (s : State) (c : Nat) (lp : Loop) (hc : c < s.nCh) :
    OnlyLoop s (s.setLoop c lp) c lp [] where
  half := by simp
  halves := fun c' d' _ => by simp
  loop := by simp [hc]
  loops := fun c' hn => by simp [State.loop_setLoop_of_ne, hn]
  tunables := fun c' => by simp
  units := ⟨rfl, rfl⟩
  bytes := fun sp k => State.readByte_setLoop s c lp sp k
  rest := ⟨by simp, rfl, rfl, rfl, rfl, rfl⟩
  sent := by simp [Sent]

/-- One more message after a change of a half and its loop. -/
theorem OnlyChannel.emit {s t : State} {c : Nat} {d : Dir} {h : Half} {lp : Loop} {l : List Out}
    (hf : OnlyChannel s t c d h lp l) (o : Out) : OnlyChannel s (t.emit o) c d h lp (l ++ [o]) where
  half := hf.half
  halves := hf.halves
  loop := hf.loop
  loops := hf.loops
  tunables := hf.tunables
  units := hf.units
  bytes := fun sp k => (t.readByte_emit o sp k).trans (hf.bytes sp k)
  rest := ⟨hf.rest.nCh, hf.rest.periodMax, hf.rest.agenda, hf.rest.startAnswers,
    hf.rest.startDraws, hf.rest.copyElapsed⟩
  sent := by
    have := hf.sent
    simp only [Sent] at this ⊢
    simp [this]

end Sys2Proof.Machine
end

