-- ==== Sys2Proof/Laws/Steps.lean ====
section
/-! SUPPORT. Once and for all, what an instruction can do to a Channel: `ChanStep` lists every change,
with the guards under which it happens, and `exec_chan` says that there is no other. Invariants and
whole-machine rules are case splits on it. -/

namespace Sys2Proof.Machine

/-- The Supply Loop of a Channel is replaced. -/
def Channel.setLoop (ch : Channel) (l : Loop) : Channel := { ch with loop := l }

@[simp] theorem Channel.half_setLoop (ch : Channel) (l : Loop) (d : Dir) :
    (ch.setLoop l).half d = ch.half d := by cases d <;> rfl

@[simp] theorem Channel.loop_setLoop (ch : Channel) (l : Loop) : (ch.setLoop l).loop = l := rfl

@[simp] theorem Channel.ppx_setLoop (ch : Channel) (l : Loop) : (ch.setLoop l).ppx = ch.ppx := rfl

@[simp] theorem Channel.bufsz_setLoop (ch : Channel) (l : Loop) :
    (ch.setLoop l).bufsz = ch.bufsz := rfl

/-- The loop that `PREPARE` leaves, at phase `p` for a TX half (rules R104, R125). -/
def Loop.prepared (l : Loop) (p : LPhase) : Dir → Loop
  | .rx => l
  | .tx => { l with pe := false, lunit := 0, phase := p }

/-- The loop that an accepted `CLOSE` leaves (rule R107). -/
def Loop.closed (l : Loop) : Dir → Loop
  | .rx => l
  | .tx => if l.phase ≠ .idle then { l with stopReq := true } else l

/-- The loop that the close completion leaves (rule R108). -/
def Loop.finished (l : Loop) : Dir → Loop
  | .rx => l
  | .tx => { l with stopReq := false }

/-- A half whose binding is cleared (rule R132). -/
def Half.unbound (h : Half) : Half :=
  { h with bound := false, bind := ⟨0, 0⟩, cfgRate := 0, cfgCh := ⟨0, 0⟩ }

/-- Every change an instruction makes to Channel `c`: from `s.chan c` to the last argument. -/
inductive ChanStep (s : State) (c : Nat) : Instr → Channel → Prop where
  | same (i : Instr) : ChanStep s c i (s.chan c)
  | opened (d : Dir) (hl : (s.half c d).lstate = .closed) (hb : (s.half c d).bound = true) :
    ChanStep s c (.openHalf c d) ((s.chan c).setHalf d
      { s.half c d with
        envRate := (s.half c d).cfgRate
        envCh := (s.half c d).cfgCh
        envSizeMax := s.sizeLimit c
        lstate := .opened })
  | hwParams (d : Dir) (fmt : Fmt) (rf pf rh : Word) (hl : (s.half c d).lstate = .opened)
    (hz : ¬ (fmt.channels = 0 ∨ rf = 0 ∨ pf = 0)) :
    ChanStep s c (.hwParams c d fmt rf pf rh) ((s.chan c).setHalf d
      { s.half c d with
        negFmt := fmt
        ringFrames := rf
        periodFrames := pf
        ringHandle := rh
        ringAlloc := true })
  | hwFree (d : Dir) (hl : (s.half c d).lstate = .opened) :
    ChanStep s c (.hwFree c d) ((s.chan c).setHalf d { s.half c d with ringAlloc := false })
  | prepareUnsupported (d : Dir) (hl : (s.half c d).lstate = .opened)
    (ha : (s.half c d).ringAlloc = true) :
    ChanStep s c (.prepare c d) ((s.chan c).setHalf d
      { s.half c d with codec := .copy, codecValid := false })
  | prepareFailed (d : Dir) (sel : Codec) (hl : (s.half c d).lstate = .opened)
    (ha : (s.half c d).ringAlloc = true)
    (hs : selectCodec (s.half c d).negFmt.width (s.half c d).negFmt.endian = some sel) :
    ChanStep s c (.prepare c d) (((s.chan c).setHalf d ((s.half c d).prepared sel)).setLoop
      ((s.loop c).prepared .idle d))
  | prepared (d : Dir) (sel : Codec) (hl : (s.half c d).lstate = .opened)
    (ha : (s.half c d).ringAlloc = true)
    (hs : selectCodec (s.half c d).negFmt.width (s.half c d).negFmt.endian = some sel) :
    ChanStep s c (.prepare c d) (((s.chan c).setHalf d
      { (s.half c d).prepared sel with started := true, lstate := .prepared }).setLoop
      ((s.loop c).prepared .wait d))
  | triggerStart (d : Dir) (hl : (s.half c d).lstate = .prepared ∨ (s.half c d).lstate = .stopped)
    (hb : (s.half c d).bound = true) :
    ChanStep s c (.triggerStart c d) ((s.chan c).setHalf d
      { s.half c d with running := true, lstate := .running })
  | triggerStop (d : Dir) (hl : (s.half c d).lstate = .running) :
    ChanStep s c (.triggerStop c d) ((s.chan c).setHalf d
      { s.half c d with running := false, lstate := .stopped })
  | close (d : Dir)
    (hl : (s.half c d).lstate = .opened ∨ (s.half c d).lstate = .prepared ∨
      (s.half c d).lstate = .stopped) :
    ChanStep s c (.closeHalf c d) (((s.chan c).setHalf d
      { s.half c d with lstate := .closing }).setLoop ((s.loop c).closed d))
  | finish (d : Dir) (hl : (s.half c d).lstate = .closing)
    (hp : d = .tx → (s.loop c).phase = .idle) :
    ChanStep s c (.clFinish c d) (((s.chan c).setHalf d
      { s.half c d with started := false, ringAlloc := false, lstate := .closed }).setLoop
      ((s.loop c).finished d))
  | wrPpx (v : Word) : ChanStep s c (.wrPpx c v) { s.chan c with ppx := v }
  | wrBufsz (v : Word) : ChanStep s c (.wrBufsz c v) { s.chan c with bufsz := v }
  | connect (ifid : IfId) (cfg : BusCfg) (args : List Byte) (hb : (s.half c cfg.dir).bound = false)
    (hl : s.lookup cfg.dir ifid = none) :
    ChanStep s c (.connect ifid cfg args) ((s.chan c).setHalf cfg.dir
      { s.half c cfg.dir with bind := ifid, cfgRate := cfg.rate, cfgCh := cfg.ch, bound := true })
  | disconnect (ifid : IfId) (rx tx : Half)
    (hr : rx = s.half c .rx ∨ (s.BoundTo .rx ifid c ∧ rx = (s.half c .rx).unbound))
    (ht : tx = s.half c .tx ∨ (s.BoundTo .tx ifid c ∧ tx = (s.half c .tx).unbound)) :
    ChanStep s c (.disconnect ifid) (((s.chan c).setHalf .rx rx).setHalf .tx tx)
  | capture (u : Word) (x : TransferUnit) (m : Memory) (hx : s.unitOf u = some x)
    (hb : s.BoundTo .rx x.ifid c) (hr : (s.half c .rx).running = true)
    (hp : CopyPremises (s.half c .rx) x .rx ((s.half c .rx).frameCount x.len))
    (hm : captureBytes (s.half c .rx) x ((s.half c .rx).frameCount x.len) = .ok m) :
    ChanStep s c (.rxComplete u) ((s.chan c).setHalf .rx
      { (s.half c .rx).advance ((s.half c .rx).frameCount x.len) with ring := m })
  | copyRx (u n : Word) (x : TransferUnit) (m : Memory) (hx : s.unitOf u = some x)
    (hp : CopyPremises (s.half c .rx) x .rx n.toNat)
    (hm : captureBytes (s.half c .rx) x n.toNat = .ok m) :
    ChanStep s c (.copyFrames c .rx u n) ((s.chan c).setHalf .rx
      { (s.half c .rx).advance n.toNat with ring := m })
  | copyTx (u n : Word) (x : TransferUnit) (hx : s.unitOf u = some x)
    (hp : CopyPremises (s.half c .tx) x .tx n.toNat) :
    ChanStep s c (.copyFrames c .tx u n) ((s.chan c).setHalf .tx
      ((s.half c .tx).advance n.toNat))
  | convert (i : Instr) (d : Dir) (m : Memory)
    (hi : (∃ dst src n, i = .cvtCopy dst src n) ∨ (∃ dst src n, i = .cvtSwap16 dst src n) ∨
      (∃ dst src n, i = .cvtSwap24 dst src n) ∨ (∃ dst src n, i = .cvtSwap32 dst src n))
    (hm : (s.half c d).ring.wf → m.wf)
    (he : ∀ sp o, (s.half c d).ringSize ≤ o → m.read sp o = (s.half c d).ring.read sp o) :
    ChanStep s c i ((s.chan c).setHalf d { s.half c d with ring := m })
  | waitStop (hp : (s.loop c).phase = .wait) (hq : (s.loop c).stopReq = true) :
    ChanStep s c (.slWait c) ((s.chan c).setLoop { s.loop c with phase := .idle })
  | waitAcquire (u : Word) (hp : (s.loop c).phase = .wait) (hq : (s.loop c).stopReq = false)
    (hr : (s.half c .tx).running = true) :
    ChanStep s c (.slWait c) ((s.chan c).setLoop { s.loop c with lunit := u, phase := .fill })
  | fill (x : TransferUnit) (hp : (s.loop c).phase = .fill)
    (hx : s.unitOf (s.loop c).lunit = some x) (hr : (s.half c .tx).running = true)
    (hc : CopyPremises (s.half c .tx) x .tx ((s.half c .tx).frameCount x.cap)) :
    ChanStep s c (.slFill c) (((s.chan c).setHalf .tx
      ((s.half c .tx).advance ((s.half c .tx).frameCount x.cap))).setLoop
      { s.loop c with
        pe := (s.half c .tx).crosses ((s.half c .tx).frameCount x.cap)
        phase := .submit })
  | silence (hp : (s.loop c).phase = .fill) (hr : (s.half c .tx).running = false) :
    ChanStep s c (.slFill c) ((s.chan c).setLoop { s.loop c with pe := false, phase := .submit })
  | submit (hp : (s.loop c).phase = .submit) :
    ChanStep s c (.slSubmit c) ((s.chan c).setLoop { s.loop c with lunit := 0, phase := .notify })
  | notify (hp : (s.loop c).phase = .notify) :
    ChanStep s c (.slNotify c) ((s.chan c).setLoop { s.loop c with pe := false, phase := .wait })

/-! ## The updates, seen from one Channel -/

/-- A Channel after an update of some Channel: as before, or the updated one. -/
theorem State.chan_setHalf_cases (s : State) (c : Nat) (d : Dir) (h : Half) (c' : Nat) :
    (s.setHalf c d h).chan c' = s.chan c' ∨
    (c' = c ∧ (s.setHalf c d h).chan c' = (s.chan c).setHalf d h) := by
  rw [State.chan_setHalf]
  by_cases h1 : c' = c ∧ c < s.nCh
  · exact .inr ⟨h1.1, if_pos h1⟩
  · exact .inl (if_neg h1)

theorem State.chan_setLoop_cases (s : State) (c : Nat) (l : Loop) (c' : Nat) :
    (s.setLoop c l).chan c' = s.chan c' ∨
    (c' = c ∧ (s.setLoop c l).chan c' = (s.chan c).setLoop l) := by
  rw [State.chan_setLoop]
  by_cases h1 : c' = c ∧ c < s.nCh
  · exact .inr ⟨h1.1, if_pos h1⟩
  · exact .inl (if_neg h1)

theorem State.chan_setHalf_setLoop_cases (s : State) (c : Nat) (d : Dir) (h : Half) (l : Loop)
    (c' : Nat) :
    ((s.setLoop c l).setHalf c d h).chan c' = s.chan c' ∨
    (c' = c ∧ ((s.setLoop c l).setHalf c d h).chan c' = ((s.chan c).setHalf d h).setLoop l) := by
  rw [State.chan_setHalf, State.chan_setLoop, State.chan_setLoop, State.nCh_setLoop]
  by_cases h1 : c' = c ∧ c < s.nCh
  · refine .inr ⟨h1.1, ?_⟩
    rw [if_pos h1, if_pos ⟨rfl, h1.2⟩]
    cases d <;> rfl
  · exact .inl (by rw [if_neg h1, if_neg h1])

theorem State.setLoop_setHalf_comm (s : State) (c : Nat) (d : Dir) (h : Half) (l : Loop) :
    (s.setHalf c d h).setLoop c l = (s.setLoop c l).setHalf c d h := by
  unfold State.setLoop State.setHalf State.setChan State.chan
  simp only [List.getD_eq_getElem?_getD, List.getElem?_set, List.set_set]
  by_cases hc : c < s.chans.length
  · simp only [hc, if_true, Option.getD_some]
    cases d <;> rfl
  · simp only [List.set_eq_of_length_le (Nat.le_of_not_lt hc)]

/-- A Channel after an update of one half, given what the update means for its own Channel. -/
theorem ChanStep.of_setHalf {s t : State} {i : Instr} {c : Nat} {d : Dir} {h : Half}
    (ht : t.chans = (s.setHalf c d h).chans) (hs : ChanStep s c i ((s.chan c).setHalf d h))
    (c' : Nat) : ChanStep s c' i (t.chan c') := by
  have e : t.chan c' = (s.setHalf c d h).chan c' := by simp only [State.chan, ht]
  rw [e]
  rcases s.chan_setHalf_cases c d h c' with h1 | ⟨rfl, h1⟩
  · exact h1 ▸ .same i
  · exact h1 ▸ hs

theorem ChanStep.of_setLoop {s t : State} {i : Instr} {c : Nat} {l : Loop}
    (ht : t.chans = (s.setLoop c l).chans) (hs : ChanStep s c i ((s.chan c).setLoop l))
    (c' : Nat) : ChanStep s c' i (t.chan c') := by
  have e : t.chan c' = (s.setLoop c l).chan c' := by simp only [State.chan, ht]
  rw [e]
  rcases s.chan_setLoop_cases c l c' with h1 | ⟨rfl, h1⟩
  · exact h1 ▸ .same i
  · exact h1 ▸ hs

theorem ChanStep.of_setHalf_setLoop {s t : State} {i : Instr} {c : Nat} {d : Dir} {h : Half}
    {l : Loop} (ht : t.chans = ((s.setLoop c l).setHalf c d h).chans)
    (hs : ChanStep s c i (((s.chan c).setHalf d h).setLoop l)) (c' : Nat) :
    ChanStep s c' i (t.chan c') := by
  have e : t.chan c' = ((s.setLoop c l).setHalf c d h).chan c' := by simp only [State.chan, ht]
  rw [e]
  rcases s.chan_setHalf_setLoop_cases c d h l c' with h1 | ⟨rfl, h1⟩
  · exact h1 ▸ .same i
  · exact h1 ▸ hs

/-- A Channel that no update touched. -/
theorem ChanStep.of_chans {s t : State} (i : Instr) (ht : t.chans = s.chans) (c' : Nat) :
    ChanStep s c' i (t.chan c') := by
  have e : t.chan c' = s.chan c' := by simp only [State.chan, ht]
  exact e ▸ .same i

/-! ## The client commands -/

theorem execOpen_chan {c : Nat} {d : Dir} {s t : State} (h : execOpen c d s = .next t) (c' : Nat) :
    ChanStep s c' (.openHalf c d) (t.chan c') := by
  dsimp only [execOpen] at h
  split at h
  · cases h; exact .of_chans _ rfl c'
  split at h
  · cases h; exact .of_chans _ rfl c'
  · rename_i hl hb
    cases h
    exact .of_setHalf rfl (.opened d (Decidable.not_not.1 hl) (by simpa using hb)) c'

theorem execHwParams_chan {c : Nat} {d : Dir} {fmt : Fmt} {rf pf rh : Word} {s t : State}
    (h : execHwParams c d fmt rf pf rh s = .next t) (c' : Nat) :
    ChanStep s c' (.hwParams c d fmt rf pf rh) (t.chan c') := by
  dsimp only [execHwParams] at h
  split at h
  · cases h; exact .of_chans _ rfl c'
  split at h
  · cases h; exact .of_chans _ rfl c'
  split at h
  · cases h; exact .of_chans _ rfl c'
  · rename_i hl _ hz
    cases h
    exact .of_setHalf rfl (.hwParams d fmt rf pf rh (Decidable.not_not.1 hl) hz) c'

theorem execHwFree_chan {c : Nat} {d : Dir} {s t : State} (h : execHwFree c d s = .next t)
    (c' : Nat) : ChanStep s c' (.hwFree c d) (t.chan c') := by
  dsimp only [execHwFree] at h
  split at h
  · cases h; exact .of_chans _ rfl c'
  · rename_i hl
    cases h
    exact .of_setHalf rfl (.hwFree d (Decidable.not_not.1 hl)) c'

theorem execTriggerStart_chan {c : Nat} {d : Dir} {s t : State}
    (h : execTriggerStart c d s = .next t) (c' : Nat) :
    ChanStep s c' (.triggerStart c d) (t.chan c') := by
  dsimp only [execTriggerStart] at h
  split at h
  · cases h; exact .of_chans _ rfl c'
  split at h
  · cases h; exact .of_chans _ rfl c'
  · rename_i hl hb
    cases h
    exact .of_setHalf rfl (.triggerStart d
      ((Decidable.not_and_iff_not_or_not.1 hl).imp Decidable.not_not.1 Decidable.not_not.1)
      (by simpa using hb)) c'

theorem execTriggerStop_chan {c : Nat} {d : Dir} {s t : State}
    (h : execTriggerStop c d s = .next t) (c' : Nat) :
    ChanStep s c' (.triggerStop c d) (t.chan c') := by
  dsimp only [execTriggerStop] at h
  split at h
  · cases h; exact .of_chans _ rfl c'
  · rename_i hl
    cases h
    exact .of_setHalf rfl (.triggerStop d (Decidable.not_not.1 hl)) c'

/-- Setting a loop to what it was changes nothing. -/
theorem State.setLoop_self (s : State) (c : Nat) : s.setLoop c (s.loop c) = s := by
  unfold State.setLoop State.setChan State.loop State.chan
  simp only [List.getD_eq_getElem?_getD]
  by_cases hc : c < s.chans.length
  · simp only [List.getElem?_eq_getElem hc, Option.getD_some]
    exact congrArg (fun l => { s with chans := l }) (List.set_getElem_self hc)
  · simp [List.set_eq_of_length_le (Nat.le_of_not_lt hc)]

/-- The stop signal of `CLOSE`, as an update of the loop. -/
theorem State.requestStop_eq (s : State) (c : Nat) (d : Dir) :
    s.requestStop c d = s.setLoop c ((s.loop c).closed d) := by
  cases d with
  | rx => exact (s.setLoop_self c).symm
  | tx =>
    unfold State.requestStop Loop.closed
    by_cases hp : (s.loop c).phase ≠ .idle
    · simp only [if_pos hp]
    · simp only [if_neg hp, s.setLoop_self]

theorem execClose_chan {c : Nat} {d : Dir} {s t : State} (h : execClose c d s = .next t)
    (c' : Nat) : ChanStep s c' (.closeHalf c d) (t.chan c') := by
  dsimp only [execClose] at h
  split at h
  · cases h; exact .of_chans _ rfl c'
  · rename_i hl
    cases h
    refine .of_setHalf_setLoop (by rw [s.requestStop_eq]) (.close d ?_) c'
    rcases hd : (s.half c d).lstate <;> simp [hd] at hl ⊢

theorem State.clearStop_eq (s : State) (c : Nat) (d : Dir) :
    s.clearStop c d = s.setLoop c ((s.loop c).finished d) := by
  cases d with
  | rx => exact (s.setLoop_self c).symm
  | tx => rfl

/-- `STOP_CHANNEL` changes nothing but what was sent. -/
@[simp] theorem State.chans_stopBound (s : State) (c : Nat) (d : Dir) :
    (s.stopBound c d).chans = s.chans := by
  unfold State.stopBound
  split <;> rfl

theorem State.half_congr {s t : State} (h : t.chans = s.chans) (c : Nat) (d : Dir) :
    t.half c d = s.half c d := by
  simp only [State.half, State.chan, h]

theorem State.setHalf_chans_congr {s t : State} (h : t.chans = s.chans) (c : Nat) (d : Dir)
    (x : Half) : (t.setHalf c d x).chans = (s.setHalf c d x).chans := by
  simp only [State.setHalf, State.setChan, State.chan, h]

theorem State.setLoop_chans_congr {s t : State} (h : t.chans = s.chans) (c : Nat) (l : Loop) :
    (t.setLoop c l).chans = (s.setLoop c l).chans := by
  simp only [State.setLoop, State.setChan, State.chan, h]

theorem State.finishEnabled_iff {s : State} {c : Nat} {d : Dir} :
    s.finishEnabled c d = true ↔
      (s.half c d).lstate = .closing ∧ (d = .tx → (s.loop c).phase = .idle) := by
  unfold State.finishEnabled
  cases d <;> simp

theorem execClFinish_chan {c : Nat} {d : Dir} {s t : State} (h : execClFinish c d s = .next t)
    (c' : Nat) : ChanStep s c' (.clFinish c d) (t.chan c') := by
  dsimp only [execClFinish] at h
  split at h
  · cases h; exact .of_chans _ rfl c'
  · rename_i hf
    obtain ⟨hl, hp⟩ := State.finishEnabled_iff.1 (by simpa using hf)
    have e : ((s.clearStop c d).stopBound c d).chans = (s.setLoop c ((s.loop c).finished d)).chans := by
      rw [State.chans_stopBound, s.clearStop_eq]
    have eh : ((s.clearStop c d).stopBound c d).half c d = s.half c d := by
      rw [State.half_congr e, State.half_setLoop]
    rw [eh] at h
    cases h
    exact .of_setHalf_setLoop (State.setHalf_chans_congr e c d _) (.finish d hl hp) c'

/-! ## `PREPARE` -/

theorem State.startLoop_eq (s : State) (c : Nat) (d : Dir) :
    s.startLoop c d = s.setLoop c ((s.loop c).prepared .wait d) := by
  cases d with
  | rx => exact (s.setLoop_self c).symm
  | tx => rfl

@[simp] theorem State.chans_startBound (s : State) (c : Nat) (d : Dir) :
    (s.startBound c d).2.chans = s.chans := by
  unfold State.startBound
  split
  · rw [State.startChannel_eq]
    simp
  · rfl

theorem State.loop_congr {s t : State} (h : t.chans = s.chans) (c : Nat) :
    t.loop c = s.loop c := by
  simp only [State.loop, State.chan, h]

/-- Stopping again the loop that `PREPARE` has just started. -/
theorem State.rollBackLoop_chans (s s2 : State) (c : Nat) (d : Dir) (x : Half)
    (e : s2.chans = ((s.setLoop c ((s.loop c).prepared .wait d)).setHalf c d x).chans) :
    (s2.rollBackLoop c d).chans =
      ((s.setLoop c ((s.loop c).prepared .idle d)).setHalf c d x).chans := by
  cases d with
  | rx => exact e
  | tx =>
    unfold State.rollBackLoop
    simp only
    rw [State.setLoop_chans_congr e, State.loop_congr e]
    unfold State.setLoop State.setHalf State.setChan State.loop State.chan
    simp only [List.getD_eq_getElem?_getD, List.getElem?_set, List.set_set]
    by_cases hc : c < s.chans.length
    · simp only [hc, if_true, Option.getD_some]
      rfl
    · simp only [List.set_eq_of_length_le (Nat.le_of_not_lt hc)]

theorem execPrepare_chan {c : Nat} {d : Dir} {s t : State} (h : execPrepare c d s = .next t)
    (c' : Nat) : ChanStep s c' (.prepare c d) (t.chan c') := by
  dsimp only [execPrepare] at h
  split at h
  · cases h; exact .of_chans _ rfl c'
  · rename_i hl
    have hl1 : (s.half c d).lstate = .opened := by
      cases hd : (s.half c d).lstate <;> simp [hd] at hl ⊢
    have ha : (s.half c d).ringAlloc = true := by
      cases hd : (s.half c d).ringAlloc <;> simp [hd] at hl ⊢
    split at h
    · cases h
      exact .of_setHalf rfl (.prepareUnsupported d hl1 ha) c'
    · rename_i sel hs
      have e1 : ((s.setHalf c d ((s.half c d).prepared sel)).startLoop c d).chans =
          ((s.setLoop c ((s.loop c).prepared .wait d)).setHalf c d
            ((s.half c d).prepared sel)).chans := by
        rw [State.startLoop_eq, State.setLoop_setHalf_comm, State.loop_setHalf]
      have e2 := State.chans_startBound
        ((s.setHalf c d ((s.half c d).prepared sel)).startLoop c d) c d
      split at h
      · rename_i s2 hb
        rw [hb] at e2
        have e3 := e2.trans e1
        cases h
        by_cases hc : c < s.nCh
        · have eh : s2.half c d = (s.half c d).prepared sel := by
            rw [State.half_congr e3, State.half_setHalf_self _ _ _ _ (by simpa using hc)]
          refine .of_setHalf_setLoop (c := c) (d := d) (l := (s.loop c).prepared .wait d) ?_
            (.prepared d sel hl1 ha hs) c'
          show (s2.setHalf c d _).chans = _
          rw [State.setHalf_chans_congr e3, eh]
          unfold State.setHalf State.setChan
          simp only [List.set_set]
          congr 1
          unfold State.chan
          simp only [List.getD_eq_getElem?_getD, List.getElem?_set]
          have : c < (s.setLoop c ((s.loop c).prepared .wait d)).chans.length := by
            simpa [State.nCh, State.setLoop, State.setChan] using hc
          simp only [this, if_true, Option.getD_some]
          cases d <;> rfl
        · exfalso
          rw [State.half_of_ge s c d (Nat.le_of_not_lt hc)] at hl1
          cases hl1
      · rename_i s2 hb
        rw [hb] at e2
        cases h
        exact .of_setHalf_setLoop (State.rollBackLoop_chans s s2 c d _ (e2.trans e1))
          (.prepareFailed d sel hl1 ha hs) c'

/-! ## The tunables -/

theorem ChanStep.of_setChan {s t : State} {i : Instr} {c : Nat} {ch : Channel}
    (ht : t.chans = (s.setChan c ch).chans) (hs : ChanStep s c i ch) (c' : Nat) :
    ChanStep s c' i (t.chan c') := by
  have e : t.chan c' = (s.setChan c ch).chan c' := by simp only [State.chan, ht]
  rw [e, State.chan_setChan]
  by_cases h1 : c' = c ∧ c < s.nCh
  · rw [if_pos h1]
    exact h1.1 ▸ hs
  · rw [if_neg h1]
    exact .same i

theorem execWrPpx_chan {c : Nat} {v : Word} {s t : State} (h : execWrPpx c v s = .next t)
    (c' : Nat) : ChanStep s c' (.wrPpx c v) (t.chan c') := by
  cases h
  exact .of_setChan rfl (.wrPpx v) c'

theorem execWrBufsz_chan {c : Nat} {v : Word} {s t : State} (h : execWrBufsz c v s = .next t)
    (c' : Nat) : ChanStep s c' (.wrBufsz c v) (t.chan c') := by
  cases h
  exact .of_setChan rfl (.wrBufsz v) c'

/-! ## The bus events -/

theorem execConnect_chan {ifid : IfId} {cfg : BusCfg} {args : List Byte} {s t : State}
    (h : execConnect ifid cfg args s = .next t) (c' : Nat) :
    ChanStep s c' (.connect ifid cfg args) (t.chan c') := by
  dsimp only [execConnect] at h
  split at h
  · cases h; exact .of_chans _ rfl c'
  · rename_i c _
    split at h
    · cases h; exact .of_chans _ rfl c'
    split at h
    · cases h; exact .of_chans _ rfl c'
    split at h
    · cases h; exact .of_chans _ rfl c'
    · rename_i hb hl
      cases h
      exact .of_setHalf rfl (.connect ifid cfg args (by simpa using hb) (by simpa using hl)) c'

/-- One direction of `DISCONNECT`: some Channel bound to the pair loses its binding, if any is. -/
theorem State.unbind_half (s : State) (d : Dir) (ifid : IfId) (c : Nat) (e : Dir) :
    (s.unbind d ifid).half c e = s.half c e ∨
    (e = d ∧ s.BoundTo d ifid c ∧ (s.unbind d ifid).half c e = (s.half c e).unbound) := by
  unfold State.unbind
  split
  · exact .inl rfl
  · rename_i k hk
    rw [State.half_setHalf]
    split
    · rename_i he
      obtain ⟨rfl, rfl, -⟩ := he
      exact .inr ⟨rfl, State.lookup_eq_some hk, rfl⟩
    · exact .inl rfl

/-- `DISCONNECT` touches halves only. -/
theorem State.unbind_chan (s : State) (d : Dir) (ifid : IfId) (c : Nat) :
    (s.unbind d ifid).chan c = (s.chan c).setHalf d ((s.unbind d ifid).half c d) := by
  unfold State.unbind
  split
  · cases d <;> rfl
  · rename_i k hk
    rw [State.half_setHalf, State.chan_setHalf]
    by_cases h1 : c = k ∧ k < s.nCh
    · obtain ⟨rfl, h2⟩ := h1
      simp only [h2, and_self, if_true]
    · rw [if_neg h1, if_neg (fun h2 => h1 ⟨h2.1, h2.2.2⟩)]
      cases d <;> rfl

@[simp] theorem State.nCh_unbind (s : State) (d : Dir) (ifid : IfId) :
    (s.unbind d ifid).nCh = s.nCh := by
  unfold State.unbind
  split <;> simp

theorem execDisconnect_chan {ifid : IfId} {s t : State} (h : execDisconnect ifid s = .next t)
    (c : Nat) : ChanStep s c (.disconnect ifid) (t.chan c) := by
  cases h
  show ChanStep s c _ (((s.unbind .rx ifid).unbind .tx ifid).chan c)
  have keep : (s.unbind .rx ifid).half c .tx = s.half c .tx := by
    rcases s.unbind_half .rx ifid c .tx with h1 | ⟨h1, -⟩
    · exact h1
    · cases h1
  rw [State.unbind_chan (s.unbind .rx ifid), State.unbind_chan s]
  refine .disconnect ifid _ _ ?_ ?_
  · rcases s.unbind_half .rx ifid c .rx with h1 | ⟨-, h2, h3⟩
    · exact .inl h1
    · exact .inr ⟨h2, h3⟩
  · rcases (s.unbind .rx ifid).unbind_half .tx ifid c .tx with h1 | ⟨-, h2, h3⟩
    · exact .inl (h1.trans keep)
    · refine .inr ⟨⟨by simpa using h2.1, ?_, ?_⟩, by rw [h3, keep]⟩
      · rw [← keep]; exact h2.2.1
      · rw [← keep]; exact h2.2.2

theorem execRxComplete_chan {u : Word} {s t : State} (h : execRxComplete u s = .next t) (c' : Nat) :
    ChanStep s c' (.rxComplete u) (t.chan c') := by
  dsimp only [execRxComplete] at h
  split at h
  · cases h; exact .of_chans _ rfl c'
  · rename_i x hx
    split at h
    · cases h; exact .of_chans _ rfl c'
    · rename_i c hc
      split at h
      · rename_i hr
        split at h
        · cases h
        · rename_i s1 crossed hk
          obtain ⟨x', hx', hp, -, ⟨-, m, hm, rfl⟩ | ⟨hd, -⟩⟩ := State.copyFrames_eq_ok hk
          · rw [hx] at hx'
            cases hx'
            refine .of_setHalf (c := c) (d := .rx) ?_
              (.capture u x m hx (State.lookup_eq_some hc) hr hp hm) c'
            split at h <;> cases h <;> rfl
          · cases hd
      · cases h; exact .of_chans _ rfl c'

theorem execTxSlotFree_chan {ifid : IfId} {s t : State} (h : execTxSlotFree ifid s = .next t)
    (c : Nat) : ChanStep s c (.txSlotFree ifid) (t.chan c) := by
  dsimp only [execTxSlotFree] at h
  split at h <;> cases h <;> exact .of_chans _ rfl c

/-! ## The micro-operations -/

theorem State.setUnit_chans (s : State) (x : TransferUnit) : (s.setUnit x).chans = s.chans := rfl

theorem execCopyFrames_chan {c : Nat} {d : Dir} {u n : Word} {s t : State}
    (h : execCopyFrames c d u n s = .next t) (c' : Nat) :
    ChanStep s c' (.copyFrames c d u n) (t.chan c') := by
  dsimp only [execCopyFrames] at h
  split at h
  · cases h
  · rename_i s1 b hk
    obtain ⟨x, hx, hp, -, ⟨rfl, m, hm, rfl⟩ | ⟨rfl, m, hm, rfl⟩⟩ := State.copyFrames_eq_ok hk
    · cases h
      exact .of_setHalf rfl (.copyRx u n x m hx hp hm) c'
    · cases h
      exact .of_setHalf rfl (.copyTx u n x hx hp) c'

/-- Everything a codec micro-operation can do when it answers. -/
theorem State.convertOp_eq_next {s t : State} {sel : Codec} {dst src : MemRef} {n : Nat}
    (h : s.convertOp sel dst src n = .next t) :
    n % sel.group = 0 ∧
    ((n = 0 ∧ t = s) ∨
      s.reply .internal .illegalCommand = .next t ∨
      ∃ nd ns m, s.memSize dst.space = some nd ∧ s.memSize src.space = some ns ∧
        dst.off + n ≤ nd ∧ src.off + n ≤ ns ∧
        convert sel (s.mem dst.space) dst.off (s.readByte src.space) src.off n = .ok m ∧
        t = s.setMem dst.space m) := by
  unfold State.convertOp at h
  split at h
  · cases h
  rename_i hg
  refine ⟨Decidable.not_not.1 hg, ?_⟩
  split at h
  · rename_i h0
    cases h
    exact .inl ⟨h0, rfl⟩
  split at h
  · exact .inr (.inl h)
  split at h
  · rename_i nd ns hd hs
    split at h
    · rename_i hr
      split at h
      · rename_i m hm
        cases h
        exact .inr (.inr ⟨nd, ns, m, hd, hs, hr.1, hr.2, hm, rfl⟩)
      · cases h
    · cases h
  · cases h

theorem convertOp_chan {sel : Codec} {dst src : MemRef} {n : Nat} {s t : State}
    (h : s.convertOp sel dst src n = .next t) (i : Instr)
    (hi : (∃ dst src n, i = .cvtCopy dst src n) ∨ (∃ dst src n, i = .cvtSwap16 dst src n) ∨
      (∃ dst src n, i = .cvtSwap24 dst src n) ∨ (∃ dst src n, i = .cvtSwap32 dst src n))
    (c' : Nat) : ChanStep s c' i (t.chan c') := by
  obtain ⟨-, ⟨-, rfl⟩ | hr | ⟨nd, ns, m, hd, -, hn, -, hm, rfl⟩⟩ := State.convertOp_eq_next h
  · exact .same i
  · cases hr; exact .same i
  · cases hsp : dst.space with
    | ring c d =>
      rw [hsp] at hm hd
      have hz := (State.memSize_ring hd).2
      exact .of_setHalf rfl (.convert i d m hi (fun hw => convert_wf hm hw)
        (fun sp o ho => (convert_read hm sp o).trans (if_neg (by omega)))) c'
    | unit u =>
      refine .of_chans i ?_ c'
      unfold State.setMem
      simp only
      split <;> rfl

/-! ## The steps of the Supply Loop -/

@[simp] theorem State.chans_setMem_unit (s : State) (u : Word) (m : Memory) :
    (s.setMem (.unit u) m).chans = s.chans := by
  unfold State.setMem
  simp only
  split <;> rfl

@[simp] theorem State.chans_zeroUnit (s : State) (u : Word) (o n : Nat) :
    (s.zeroUnit u o n).chans = s.chans := State.chans_setMem_unit _ _ _

theorem execSlWait_chan {c : Nat} {s t : State} (h : execSlWait c s = .next t) (c' : Nat) :
    ChanStep s c' (.slWait c) (t.chan c') := by
  dsimp only [execSlWait] at h
  split at h
  · cases h; exact .same _
  rename_i hp
  have hp' := Decidable.not_not.1 hp
  split at h
  · rename_i hq
    cases h
    exact .of_setLoop rfl (.waitStop hp' hq) c'
  rename_i hq
  split at h
  · rename_i hr
    split at h
    · cases h; exact .same _
    · rename_i u s1 ha
      obtain ⟨-, rfl⟩ := State.acquire_eq_some ha
      cases h
      refine .of_setLoop rfl (.waitAcquire u hp' (by simpa using hq) ?_) c'
      simp only [Bool.and_eq_true] at hr
      exact hr.1
  · cases h; exact .same _

theorem execSlFill_chan {c : Nat} {s t : State} (h : execSlFill c s = .next t) (c' : Nat) :
    ChanStep s c' (.slFill c) (t.chan c') := by
  dsimp only [execSlFill] at h
  split at h
  · cases h; exact .same _
  rename_i hp
  have hp' := Decidable.not_not.1 hp
  split at h
  · cases h
  rename_i x hx
  split at h
  · rename_i hr
    split at h
    · cases h
    · rename_i s1 b hk
      obtain ⟨x', hx', hprem, hb, ⟨hd, -⟩ | ⟨-, m, hm, rfl⟩⟩ := State.copyFrames_eq_ok hk
      · cases hd
      · rw [hx] at hx'
        cases hx'
        subst hb
        cases h
        refine .of_setHalf_setLoop ?_ (.fill x hp' hx hr hprem) c'
        rw [← State.setLoop_setHalf_comm]
        refine State.setLoop_chans_congr ?_ c _
        rw [State.chans_zeroUnit]
        rfl
  · rename_i hr
    cases h
    exact .of_setLoop (State.setLoop_chans_congr (State.chans_zeroUnit _ _ _ _) c _)
      (.silence hp' (by simpa using hr)) c'

theorem execSlSubmit_chan {c : Nat} {s t : State} (h : execSlSubmit c s = .next t) (c' : Nat) :
    ChanStep s c' (.slSubmit c) (t.chan c') := by
  dsimp only [execSlSubmit] at h
  split at h
  · cases h; exact .same _
  · rename_i hp
    cases h
    exact .of_setLoop rfl (.submit (Decidable.not_not.1 hp)) c'

theorem execSlNotify_chan {c : Nat} {s t : State} (h : execSlNotify c s = .next t) (c' : Nat) :
    ChanStep s c' (.slNotify c) (t.chan c') := by
  dsimp only [execSlNotify] at h
  split at h
  · cases h; exact .same _
  · rename_i hp
    cases h
    refine .of_setLoop (State.setLoop_chans_congr ?_ c _) (.notify (Decidable.not_not.1 hp)) c'
    split <;> rfl

/-- Every change an instruction makes to a Channel is one of `ChanStep`. -/
theorem exec_chan {i : Instr} {s t : State} (h : exec i s = .next t) (c : Nat) :
    ChanStep s c i (t.chan c) := by
  cases i with
  | openHalf c' d => exact execOpen_chan h c
  | hwParams c' d fmt rf pf rh => exact execHwParams_chan h c
  | hwFree c' d => exact execHwFree_chan h c
  | prepare c' d => exact execPrepare_chan h c
  | triggerStart c' d => exact execTriggerStart_chan h c
  | triggerStop c' d => exact execTriggerStop_chan h c
  | closeHalf c' d => exact execClose_chan h c
  | pointer c' d => cases h; exact .of_chans _ rfl c
  | rdreg c' d r => cases h; exact .of_chans _ rfl c
  | rdPpx c' => cases h; exact .of_chans _ rfl c
  | wrPpx c' v => exact execWrPpx_chan h c
  | rdBufsz c' => cases h; exact .of_chans _ rfl c
  | wrBufsz c' v => exact execWrBufsz_chan h c
  | connect ifid cfg args => exact execConnect_chan h c
  | disconnect ifid => exact execDisconnect_chan h c
  | rxComplete u => exact execRxComplete_chan h c
  | txSlotFree ifid => exact execTxSlotFree_chan h c
  | copyFrames c' d u n => exact execCopyFrames_chan h c
  | cvtCopy dst src n => exact convertOp_chan h _ (.inl ⟨dst, src, n, rfl⟩) c
  | cvtSwap16 dst src n => exact convertOp_chan h _ (.inr (.inl ⟨dst, src, n, rfl⟩)) c
  | cvtSwap24 dst src n => exact convertOp_chan h _ (.inr (.inr (.inl ⟨dst, src, n, rfl⟩))) c
  | cvtSwap32 dst src n => exact convertOp_chan h _ (.inr (.inr (.inr ⟨dst, src, n, rfl⟩))) c
  | slWait c' => exact execSlWait_chan h c
  | slFill c' => exact execSlFill_chan h c
  | slSubmit c' => exact execSlSubmit_chan h c
  | slNotify c' => exact execSlNotify_chan h c
  | clFinish c' d => exact execClFinish_chan h c

/-! ## The transfer units -/

/-- What an instruction can do to the transfer units: nothing, or other bytes for one of them, in
canonical form if they were so before. -/
inductive UnitStep (s : State) : List TransferUnit → Prop where
  | same : UnitStep s s.units
  | bytes (x : TransferUnit) (m : Memory) (hx : s.unitOf x.handle = some x)
    (hm : x.Canonical → TransferUnit.Canonical { x with bytes := m }) :
    UnitStep s (insertUnit { x with bytes := m } s.units)

/-- The bytes a playback writes are canonical and lie within the unit. -/
theorem playbackBytes_canonical {c n : Nat} {h : Half} {x : TransferUnit} {m : Memory}
    (hp : CopyPremises h x .tx n) (hm : playbackBytes c h x n = .ok m) (hx : x.Canonical) :
    TransferUnit.Canonical { x with bytes := m } := by
  have h1 := hp.in_unit
  have hle : h.firstPart n * h.frameBytes.toNat ≤ n * h.frameBytes.toNat :=
    Nat.mul_le_mul_right _ (Nat.min_le_right _ _)
  have hsum : h.firstPart n * h.frameBytes.toNat + (n - h.firstPart n) * h.frameBytes.toNat =
      n * h.frameBytes.toNat := by
    rw [← Nat.add_mul]
    congr 1
    have : h.firstPart n ≤ n := Nat.min_le_right _ _
    omega
  dsimp only [playbackBytes] at hm
  split at hm
  · cases hm
  · rename_i m1 h2
    split at hm
    · exact ⟨convert_wf hm (convert_wf h2 hx.wf),
        convert_within (cap := x.cap) hm (convert_within h2 hx.within (by omega)) (by omega)⟩
    · cases hm
      exact ⟨convert_wf h2 hx.wf, convert_within (cap := x.cap) h2 hx.within (by omega)⟩

/-- Zero bytes within a unit keep it canonical. -/
theorem zeroBytes_canonical {x : TransferUnit} (hx : x.Canonical) {o n : Nat} (hn : o + n ≤ x.cap) :
    TransferUnit.Canonical { x with bytes := x.bytes.writeBytes o (List.replicate n 0) } where
  wf := Memory.wf_writeBytes hx.wf _ _
  within := by
    intro cell hc
    rcases Memory.mem_writeBytes hc with h1 | h1
    · simp only [List.length_replicate] at h1
      show cell.1 < x.cap
      omega
    · exact hx.within cell h1

/-- The units after `CopyFrames`. -/
theorem State.copyFrames_units {s t : State} {c : Nat} {d : Dir} {u : Word} {n : Nat} {b : Bool}
    (h : s.copyFrames c d u n = .ok (t, b)) : UnitStep s t.units := by
  obtain ⟨x, hx, hp, _, ⟨_, _, _, rfl⟩ | ⟨rfl, m, hm, rfl⟩⟩ := State.copyFrames_eq_ok h
  · exact .same
  · have := State.unitOf_handle hx
    exact .bytes x m (this ▸ hx) (playbackBytes_canonical hp hm)

theorem convertOp_units {sel : Codec} {dst src : MemRef} {n : Nat} {s t : State}
    (h : s.convertOp sel dst src n = .next t) : UnitStep s t.units := by
  obtain ⟨-, ⟨-, rfl⟩ | ha | ⟨nd, ns, m, hd, -, hr, -, hm, rfl⟩⟩ := State.convertOp_eq_next h
  · exact .same
  · cases ha; exact .same
  · cases hsp : dst.space with
    | ring c d => exact .same
    | unit u =>
      rw [hsp] at hd hm
      cases hu : s.unitOf u with
      | none => simp [State.memSize, hu] at hd
      | some x =>
        simp only [State.memSize, hu, Option.some.injEq] at hd
        subst hd
        have hx := State.unitOf_handle hu
        simp only [State.mem, hu] at hm
        simp only [State.setMem, hu]
        exact .bytes x m (hx ▸ hu)
          (fun hc => ⟨convert_wf hm hc.wf, convert_within hm hc.within hr⟩)

theorem execSlFill_units {c : Nat} {s t : State} (h : execSlFill c s = .next t) :
    UnitStep s t.units := by
  dsimp only [execSlFill] at h
  split at h
  · cases h; exact .same
  split at h
  · cases h
  rename_i x hx
  have hh := State.unitOf_handle hx
  split at h
  · split at h
    · cases h
    · rename_i s1 b hk
      obtain ⟨x', hx', hp, -, ⟨hd, -⟩ | ⟨-, m, hm, rfl⟩⟩ := State.copyFrames_eq_ok hk
      · cases hd
      · rw [hx] at hx'
        cases hx'
        have hu1 : ((s.setHalf c .tx ((s.half c .tx).advance
            ((s.half c .tx).frameCount x.cap))).setUnit { x with bytes := m }).unitOf
            (s.loop c).lunit = some { x with bytes := m } := by
          rw [State.unitOf_setUnit, if_pos hh.symm]
        rw [State.zeroUnit_eq hu1] at h
        cases h
        show UnitStep s (insertUnit _ (insertUnit _ s.units))
        rw [insertUnit_insertUnit (by rfl)]
        refine .bytes x _ (hh ▸ hx) (fun hc => ?_)
        have hle : (s.half c .tx).frameCount x.cap * (s.half c .tx).frameBytes.toNat ≤ x.cap :=
          Nat.div_mul_le_self _ _
        exact zeroBytes_canonical (playbackBytes_canonical hp hm hc)
          (by show _ + (x.cap - _) ≤ x.cap; omega)
  · rw [State.zeroUnit_eq hx] at h
    cases h
    exact .bytes x _ (hh ▸ hx) (fun hc => zeroBytes_canonical hc (by omega))

@[simp] theorem State.units_startLoop (s : State) (c : Nat) (d : Dir) :
    (s.startLoop c d).units = s.units := by cases d <;> rfl

@[simp] theorem State.units_rollBackLoop (s : State) (c : Nat) (d : Dir) :
    (s.rollBackLoop c d).units = s.units := by cases d <;> rfl

@[simp] theorem State.units_clearStop (s : State) (c : Nat) (d : Dir) :
    (s.clearStop c d).units = s.units := by cases d <;> rfl

@[simp] theorem State.units_requestStop (s : State) (c : Nat) (d : Dir) :
    (s.requestStop c d).units = s.units := by
  rw [State.requestStop_eq]
  rfl

@[simp] theorem State.units_unbind (s : State) (d : Dir) (ifid : IfId) :
    (s.unbind d ifid).units = s.units := by
  unfold State.unbind
  split <;> rfl

@[simp] theorem State.units_stopBound (s : State) (c : Nat) (d : Dir) :
    (s.stopBound c d).units = s.units := by
  unfold State.stopBound
  split <;> rfl

@[simp] theorem State.units_startBound (s : State) (c : Nat) (d : Dir) :
    (s.startBound c d).2.units = s.units := by
  unfold State.startBound
  split
  · rw [State.startChannel_eq]
    simp
  · rfl

theorem UnitStep.of_units {s t : State} (h : t.units = s.units) : UnitStep s t.units :=
  h ▸ .same

theorem UnitStep.of_reply {s s1 t : State} {port : Port} {r : Result} {v : Word}
    (h : s1.reply port r v = .next t) (hu : s1.units = s.units) : UnitStep s t.units := by
  cases h
  exact .of_units hu

theorem execPrepare_units {c : Nat} {d : Dir} {s t : State} (h : execPrepare c d s = .next t) :
    UnitStep s t.units := by
  dsimp only [execPrepare] at h
  split at h
  · exact .of_reply h rfl
  · split at h
    · exact .of_reply h rfl
    · rename_i sel _
      have e := State.units_startBound
        ((s.setHalf c d ((s.half c d).prepared sel)).startLoop c d) c d
      rw [State.units_startLoop] at e
      split at h
      · rename_i hb
        rw [hb] at e
        exact .of_reply h e
      · rename_i hb
        rw [hb] at e
        exact .of_reply h (by rw [State.units_rollBackLoop]; exact e)

/-- Everything an instruction can do to the transfer units. -/
theorem exec_units {i : Instr} {s t : State} (h : exec i s = .next t) : UnitStep s t.units := by
  cases i with
  | openHalf c d =>
    simp only [exec, execOpen] at h
    repeat' split at h
    all_goals exact UnitStep.of_reply h rfl
  | hwParams c d fmt rf pf rh =>
    simp only [exec, execHwParams] at h
    repeat' split at h
    all_goals exact UnitStep.of_reply h rfl
  | hwFree c d =>
    simp only [exec, execHwFree] at h
    repeat' split at h
    all_goals exact UnitStep.of_reply h rfl
  | prepare c d => exact execPrepare_units h
  | triggerStart c d =>
    simp only [exec, execTriggerStart] at h
    repeat' split at h
    all_goals exact UnitStep.of_reply h rfl
  | triggerStop c d =>
    simp only [exec, execTriggerStop] at h
    repeat' split at h
    all_goals exact UnitStep.of_reply h rfl
  | closeHalf c d =>
    simp only [exec, execClose] at h
    split at h
    · exact .of_reply h rfl
    · cases h; exact .of_units (by simp)
  | pointer c d => exact .of_reply h rfl
  | rdreg c d r => exact .of_reply h rfl
  | rdPpx c => exact .of_reply h rfl
  | wrPpx c v => exact .of_reply h rfl
  | rdBufsz c => exact .of_reply h rfl
  | wrBufsz c v => exact .of_reply h rfl
  | connect ifid cfg args =>
    simp only [exec, execConnect] at h
    repeat' split at h
    all_goals exact UnitStep.of_reply h rfl
  | disconnect ifid => exact .of_reply h (by simp)
  | rxComplete u =>
    simp only [exec, execRxComplete] at h
    split at h
    · exact .of_reply h rfl
    split at h
    · exact .of_reply h rfl
    split at h
    · split at h
      · cases h
      · rename_i hk
        obtain ⟨_, _, _, _, ⟨_, _, _, rfl⟩ | ⟨hd, _⟩⟩ := State.copyFrames_eq_ok hk
        · split at h
          all_goals exact UnitStep.of_reply h rfl
        · cases hd
    · exact .of_reply h rfl
  | txSlotFree ifid =>
    simp only [exec, execTxSlotFree] at h
    split at h
    all_goals exact UnitStep.of_reply h rfl
  | copyFrames c d u n =>
    simp only [exec, execCopyFrames] at h
    split at h
    · cases h
    · rename_i hk
      have := State.copyFrames_units hk
      cases h
      exact this
  | cvtCopy dst src n => exact convertOp_units h
  | cvtSwap16 dst src n => exact convertOp_units h
  | cvtSwap24 dst src n => exact convertOp_units h
  | cvtSwap32 dst src n => exact convertOp_units h
  | slWait c =>
    simp only [exec, execSlWait] at h
    split at h
    · cases h; exact .same
    split at h
    · cases h; exact .same
    split at h
    · split at h
      · cases h; exact .same
      · rename_i ha
        obtain ⟨-, rfl⟩ := State.acquire_eq_some ha
        cases h
        exact .same
    · cases h; exact .same
  | slFill c => exact execSlFill_units h
  | slSubmit c =>
    simp only [exec, execSlSubmit] at h
    split at h <;> cases h <;> exact .same
  | slNotify c =>
    simp only [exec, execSlNotify] at h
    split at h
    · cases h; exact .same
    · cases h
      refine .of_units ?_
      rw [State.units_setLoop]
      split <;> rfl
  | clFinish c d =>
    simp only [exec, execClFinish] at h
    split at h
    · cases h; exact .same
    · cases h
      exact .of_units (by simp)

/-! ## One step of the machine -/

/-- Everything a step can be: nothing, the rejection of an illegal packet, an action of the
environment, or an operation, in each case with the inputs that are left. -/
theorem step_cases {s t : State} (h : step s = .next t) :
    ∃ l, t = { s with agenda := l } ∨
      (∃ port, t = State.emit { s with agenda := l }
        (.answer (.packet port) Result.illegalCommand.toWord 0)) ∨
      (∃ a, execEnv a { s with agenda := l } = .next t) ∨
      ∃ i, exec i { s with agenda := l } = .next t := by
  have code : ∀ (l : List Input) (x : Code),
      (match decode s.nCh x with
        | .ok i => exec i { s with agenda := l }
        | .error _ => rejected x { s with agenda := l }) = .next t →
      t = { s with agenda := l } ∨
      (∃ port, t = State.emit { s with agenda := l }
        (.answer (.packet port) Result.illegalCommand.toWord 0)) ∨
      (∃ a, execEnv a { s with agenda := l } = .next t) ∨
      ∃ i, exec i { s with agenda := l } = .next t := by
    intro l x hx
    split at hx
    · exact .inr (.inr (.inr ⟨_, hx⟩))
    · cases x with
      | packet port p => cases hx; exact .inr (.inl ⟨port, rfl⟩)
      | lphase c v => cases hx; exact .inl rfl
      | lstate c d v => cases hx; exact .inl rfl
  unfold step fetch at h
  cases ha : s.agenda with
  | nil =>
    have hs : { s with agenda := [] } = s := by rw [← ha]
    simp only [ha] at h
    cases hf : s.firstEnabled with
    | none =>
      simp only [hf] at h
      cases h
      exact ⟨[], .inl hs.symm⟩
    | some x =>
      simp only [hf] at h
      exact ⟨[], code [] x (by rw [hs]; exact h)⟩
  | cons inp rest =>
    simp only [ha] at h
    cases inp with
    | packet port p => exact ⟨rest, code rest _ h⟩
    | loop c => exact ⟨rest, code rest _ h⟩
    | finish c d => exact ⟨rest, code rest _ h⟩
    | env a => exact ⟨rest, .inr (.inr (.inl ⟨a, h⟩))⟩

/-- Everything an action of the environment does to a Channel: at most ring bytes are stored, none of
them beyond the end of the ring (rule R177). -/
theorem execEnv_chan {a : EnvAct} {s t : State} (h : execEnv a s = .next t) (c : Nat) :
    t.chan c = s.chan c ∨
    ∃ d o bs, (∀ k, k < bs.length → o + k < (s.half c d).ringSize) ∧ t.chan c =
      (s.chan c).setHalf d { s.half c d with ring := (s.half c d).ring.writeBytes o bs } := by
  cases a with
  | ringWrite c' d o bs =>
    cases h
    rcases s.chan_setHalf_cases c' d _ c with h1 | ⟨rfl, h1⟩
    · exact .inl h1
    · refine .inr ⟨d, o, bs.take ((s.half c d).ringSize - o), fun k hk => ?_, h1⟩
      rw [List.length_take] at hk
      omega
  | unitMake u ifid cap len bs => cases h; exact .inl rfl
  | unitWrite u o bs len =>
    dsimp only [execEnv] at h
    split at h <;> cases h <;> exact .inl rfl
  | unitDrop u => cases h; exact .inl rfl
  | poolInsert pos u => cases h; exact .inl rfl
  | poolRemove u => cases h; exact .inl rfl
  | startAnswer ok => cases h; exact .inl rfl

/-! ## The end of the ring memory -/

/-- An update of one half that leaves what lies beyond the end of its own ring leaves what lies beyond the
end of every ring of the Channel. -/
theorem Channel.ring_end_setHalf {ch : Channel} {d d' : Dir} {h : Half} {sp : Space} {o : Nat}
    (hr : (ch.half d).ringSize ≤ o → h.ring.read sp o = (ch.half d).ring.read sp o)
    (ho : (ch.half d').ringSize ≤ o) :
    ((ch.setHalf d h).half d').ring.read sp o = (ch.half d').ring.read sp o := by
  rw [Channel.half_setHalf]
  split
  · rename_i he
    rw [he] at ho ⊢
    exact hr ho
  · rfl

/-- No instruction changes what lies beyond the end of a ring memory (rule R177). -/
theorem ChanStep.ring_end {s : State} {c : Nat} {i : Instr} {ch : Channel} (h : ChanStep s c i ch)
    (d : Dir) (sp : Space) {o : Nat} (ho : (s.half c d).ringSize ≤ o) :
    (ch.half d).ring.read sp o = (s.half c d).ring.read sp o := by
  cases h with
  | disconnect ifid rx tx hr ht =>
    cases d with
    | rx => rcases hr with rfl | ⟨-, rfl⟩ <;> rfl
    | tx => rcases ht with rfl | ⟨-, rfl⟩ <;> rfl
  | capture u x m hx hb hr hp hm => exact Channel.ring_end_setHalf (captureBytes_end hp hm sp) ho
  | copyRx u n x m hx hp hm => exact Channel.ring_end_setHalf (captureBytes_end hp hm sp) ho
  | convert i d' m hi hm he => exact Channel.ring_end_setHalf (he sp o) ho
  | _ => first | rfl | exact Channel.ring_end_setHalf (fun _ => rfl) ho

/-- No step changes what lies beyond the end of a ring memory: an access beyond it cannot be expressed
(rule R177). -/
theorem step_ring_end {s t : State} (h : step s = .next t) (c : Nat) (d : Dir) (sp : Space) {o : Nat}
    (ho : (s.half c d).ringSize ≤ o) :
    (t.half c d).ring.read sp o = (s.half c d).ring.read sp o := by
  obtain ⟨l, rfl | ⟨port, rfl⟩ | ⟨a, ha⟩ | ⟨i, hi⟩⟩ := step_cases h
  · rfl
  · rfl
  · rcases execEnv_chan ha c with e | ⟨d', o', bs, hb, e⟩
    · exact congrArg (fun ch => (ch.half d).ring.read sp o) e
    · refine (congrArg (fun ch => (ch.half d).ring.read sp o) e).trans
        (Channel.ring_end_setHalf (fun ho' => ?_) ho)
      refine Memory.read_writeBytes_outside sp _ o' o bs (fun hin => ?_)
      have := hb (o - o') (by omega)
      have : (s.half c d').ringSize ≤ o := ho'
      have : (State.half { s with agenda := l } c d').ringSize = (s.half c d').ringSize := rfl
      omega
  · exact (exec_chan hi c).ring_end d sp ho

end Sys2Proof.Machine
end

