-- ==== Sys2Proof/Laws/Messages.lean ====
section
/-! SUPPORT. Once and for all, what an instruction can send: `MessageStep` lists every sequence of
messages, and `exec_out` says that an instruction appends one of them to the history and no other. -/

namespace Sys2Proof.Machine

/-- The messages an instruction sends from state `s` (rules R33, R51, R69, R159). -/
inductive MessageStep (s : State) : Instr → List Out → Prop where
  | silent (i : Instr) : MessageStep s i []
  | answer (i : Instr) (port : Port) (r : Result) (v : Word) :
    MessageStep s i [.answer (.packet port) r.toWord v]
  | started (c : Nat) (d : Dir) (ok : Bool) (r : Result) (hb : (s.half c d).bound = true) :
    MessageStep s (.prepare c d)
      [.startChannel (s.half c d).bind (s.chan c).ppx ok, .answer (.packet .client) r.toWord 0]
  | stopped (c : Nat) (d : Dir) (hl : (s.half c d).lstate = .closing)
    (hp : d = .tx → (s.loop c).phase = .idle) (hs : (s.half c d).started = true)
    (hb : (s.half c d).bound = true) :
    MessageStep s (.clFinish c d)
      [.stopChannel (s.half c d).bind, .answer (.close c d) Result.ok.toWord 0]
  | finished (c : Nat) (d : Dir) :
    MessageStep s (.clFinish c d) [.answer (.close c d) Result.ok.toWord 0]
  | put (u : Word) (r : Result) :
    MessageStep s (.rxComplete u) [.put u, .answer (.packet .bus) r.toWord 0]
  | captured (u : Word) (c : Nat) (hr : (s.half c .rx).running = true) :
    MessageStep s (.rxComplete u)
      [.put u, .periodElapsed c .rx, .answer (.packet .bus) Result.ok.toWord 0]
  | acquired (c : Nat) (u : Word) :
    MessageStep s (.slWait c) [.acquire (s.half c .tx).bind u]
  | submitted (c : Nat) : MessageStep s (.slSubmit c) [.submit (s.loop c).lunit]
  | period (c : Nat) (hp : (s.loop c).phase = .notify) (hpe : (s.loop c).pe = true) :
    MessageStep s (.slNotify c) [.periodElapsed c .tx]

/-- An operation that answered at once. -/
theorem MessageStep.of_reply {s s1 t : State} {i : Instr} {port : Port} {r : Result} {v : Word}
    (h : s1.reply port r v = .next t) (ho : s1.out = s.out) :
    ∃ l, t.out = s.out ++ l ∧ MessageStep s i l := by
  cases h
  exact ⟨_, by rw [State.out_emit, ho], .answer i port r v⟩

/-- An operation that sent nothing. -/
theorem MessageStep.of_out {s t : State} {i : Instr} (ho : t.out = s.out) :
    ∃ l, t.out = s.out ++ l ∧ MessageStep s i l :=
  ⟨[], by rw [ho, List.append_nil], .silent i⟩

@[simp] theorem State.out_startLoop (s : State) (c : Nat) (d : Dir) :
    (s.startLoop c d).out = s.out := by cases d <;> rfl

@[simp] theorem State.out_rollBackLoop (s : State) (c : Nat) (d : Dir) :
    (s.rollBackLoop c d).out = s.out := by cases d <;> rfl

@[simp] theorem State.out_clearStop (s : State) (c : Nat) (d : Dir) :
    (s.clearStop c d).out = s.out := by cases d <;> rfl

@[simp] theorem State.out_requestStop (s : State) (c : Nat) (d : Dir) :
    (s.requestStop c d).out = s.out := by
  cases d with
  | rx => rfl
  | tx => unfold State.requestStop; simp only; split <;> rfl

@[simp] theorem State.out_unbind (s : State) (d : Dir) (ifid : IfId) :
    (s.unbind d ifid).out = s.out := by
  unfold State.unbind
  split <;> rfl

@[simp] theorem State.out_setMem (s : State) (sp : Space) (m : Memory) :
    (s.setMem sp m).out = s.out := by
  cases sp with
  | ring c d => rfl
  | unit u => unfold State.setMem; simp only; split <;> rfl

@[simp] theorem State.out_zeroUnit (s : State) (u : Word) (o n : Nat) :
    (s.zeroUnit u o n).out = s.out := State.out_setMem _ _ _

theorem State.out_copyFrames {s t : State} {c : Nat} {d : Dir} {u : Word} {n : Nat} {b : Bool}
    (h : s.copyFrames c d u n = .ok (t, b)) : t.out = s.out := by
  obtain ⟨_, _, _, _, ⟨_, _, _, rfl⟩ | ⟨_, _, _, rfl⟩⟩ := State.copyFrames_eq_ok h <;> rfl

theorem execPrepare_out {c : Nat} {d : Dir} {s t : State} (h : execPrepare c d s = .next t) :
    ∃ l, t.out = s.out ++ l ∧ MessageStep s (.prepare c d) l := by
  dsimp only [execPrepare] at h
  split at h
  · exact MessageStep.of_reply h rfl
  · rename_i hl
    split at h
    · exact MessageStep.of_reply h rfl
    · rename_i sel hs
      have hc : c < s.nCh := by
        refine Decidable.byContradiction fun hn => ?_
        simp [State.half_of_ge s c d (Nat.le_of_not_lt hn), Half.reset] at hl
      have eh : ((s.setHalf c d ((s.half c d).prepared sel)).startLoop c d).half c d =
          (s.half c d).prepared sel := by
        rw [State.startLoop_eq, State.half_setLoop, State.half_setHalf_self _ _ _ _ hc]
      have ep : (((s.setHalf c d ((s.half c d).prepared sel)).startLoop c d).chan c).ppx =
          (s.chan c).ppx := by
        rw [State.startLoop_eq, State.ppx_setLoop, State.ppx_setHalf]
      have eb : ((s.half c d).prepared sel).bound = (s.half c d).bound := rfl
      have ei : ((s.half c d).prepared sel).bind = (s.half c d).bind := rfl
      unfold State.startBound at h
      simp only [eh, ep, eb, ei, State.startChannel_eq] at h
      cases hb : (s.half c d).bound with
      | false =>
        simp only [hb, Bool.false_eq_true, if_false] at h
        exact MessageStep.of_reply h (by simp)
      | true =>
        simp only [hb, if_true] at h
        split at h
        · rename_i s2 he
          simp only [Prod.mk.injEq] at he
          obtain ⟨-, rfl⟩ := he
          cases h
          refine ⟨_, ?_, .started c d ((s.setHalf c d ((s.half c d).prepared sel)).startLoop c d).nextStartAnswer
            .ok hb⟩
          simp only [State.out_emit, State.out_setHalf, State.out_afterStartAnswer, State.out_startLoop,
            List.append_assoc, List.singleton_append]
        · rename_i s2 he
          simp only [Prod.mk.injEq] at he
          obtain ⟨-, rfl⟩ := he
          cases h
          refine ⟨_, ?_, .started c d ((s.setHalf c d ((s.half c d).prepared sel)).startLoop c d).nextStartAnswer
            .deviceBusy hb⟩
          simp only [State.out_emit, State.out_rollBackLoop, State.out_setHalf, State.out_afterStartAnswer, State.out_startLoop,
            List.append_assoc, List.singleton_append]

theorem execClFinish_out {c : Nat} {d : Dir} {s t : State} (h : execClFinish c d s = .next t) :
    ∃ l, t.out = s.out ++ l ∧ MessageStep s (.clFinish c d) l := by
  dsimp only [execClFinish] at h
  split at h
  · cases h; exact MessageStep.of_out rfl
  · rename_i hf
    obtain ⟨hl, hp⟩ := State.finishEnabled_iff.1 (by simpa using hf)
    have eh : (s.clearStop c d).half c d = s.half c d := by
      rw [s.clearStop_eq, State.half_setLoop]
    cases h
    unfold State.stopBound
    simp only [eh]
    split
    · rename_i hs
      simp only [Bool.and_eq_true] at hs
      exact ⟨_, by simp, .stopped c d hl hp hs.1 hs.2⟩
    · exact ⟨_, by simp, .finished c d⟩

theorem execRxComplete_out {u : Word} {s t : State} (h : execRxComplete u s = .next t) :
    ∃ l, t.out = s.out ++ l ∧ MessageStep s (.rxComplete u) l := by
  dsimp only [execRxComplete] at h
  split at h
  · exact MessageStep.of_reply h rfl
  · split at h
    · cases h
      exact ⟨_, by simp, .put u .invalidChannel⟩
    · rename_i c hc
      split at h
      · rename_i hr
        split at h
        · cases h
        · rename_i s1 crossed hk
          have ho := State.out_copyFrames hk
          cases crossed with
          | true =>
            cases h
            exact ⟨_, by simp [ho], .captured u c hr⟩
          | false =>
            cases h
            exact ⟨_, by simp [ho], .put u .ok⟩
      · cases h
        exact ⟨_, by simp, .put u .ok⟩

theorem execSlWait_out {c : Nat} {s t : State} (h : execSlWait c s = .next t) :
    ∃ l, t.out = s.out ++ l ∧ MessageStep s (.slWait c) l := by
  dsimp only [execSlWait] at h
  split at h
  · cases h; exact MessageStep.of_out rfl
  split at h
  · cases h; exact MessageStep.of_out rfl
  split at h
  · split at h
    · cases h; exact MessageStep.of_out rfl
    · rename_i u s1 ha
      obtain ⟨-, rfl⟩ := State.acquire_eq_some ha
      cases h
      exact ⟨_, rfl, .acquired c u⟩
  · cases h; exact MessageStep.of_out rfl

theorem execSlFill_out {c : Nat} {s t : State} (h : execSlFill c s = .next t) :
    ∃ l, t.out = s.out ++ l ∧ MessageStep s (.slFill c) l := by
  dsimp only [execSlFill] at h
  split at h
  · cases h; exact MessageStep.of_out rfl
  split at h
  · cases h
  split at h
  · split at h
    · cases h
    · rename_i hk
      have ho := State.out_copyFrames hk
      cases h
      exact MessageStep.of_out (by simp [ho])
  · cases h; exact MessageStep.of_out (by simp)

theorem execSlNotify_out {c : Nat} {s t : State} (h : execSlNotify c s = .next t) :
    ∃ l, t.out = s.out ++ l ∧ MessageStep s (.slNotify c) l := by
  dsimp only [execSlNotify] at h
  split at h
  · cases h; exact MessageStep.of_out rfl
  · rename_i hp
    cases hpe : (s.loop c).pe with
    | true =>
      simp only [hpe, if_true] at h
      cases h
      exact ⟨_, rfl, .period c (Decidable.not_not.1 hp) hpe⟩
    | false =>
      simp only [hpe, Bool.false_eq_true, if_false] at h
      cases h
      exact MessageStep.of_out rfl

theorem convertOp_out {sel : Codec} {dst src : MemRef} {n : Nat} {s t : State}
    (h : s.convertOp sel dst src n = .next t) (i : Instr) :
    ∃ l, t.out = s.out ++ l ∧ MessageStep s i l := by
  obtain ⟨-, ⟨-, rfl⟩ | hr | ⟨_, _, _, -, -, -, -, -, rfl⟩⟩ := State.convertOp_eq_next h
  · exact MessageStep.of_out rfl
  · exact MessageStep.of_reply hr rfl
  · exact MessageStep.of_out (by simp)

/-- Everything an instruction can send. -/
theorem exec_out {i : Instr} {s t : State} (h : exec i s = .next t) :
    ∃ l, t.out = s.out ++ l ∧ MessageStep s i l := by
  cases i with
  | openHalf c d =>
    simp only [exec, execOpen] at h
    repeat' split at h
    all_goals exact MessageStep.of_reply h rfl
  | hwParams c d fmt rf pf rh =>
    simp only [exec, execHwParams] at h
    repeat' split at h
    all_goals exact MessageStep.of_reply h rfl
  | hwFree c d =>
    simp only [exec, execHwFree] at h
    repeat' split at h
    all_goals exact MessageStep.of_reply h rfl
  | prepare c d => exact execPrepare_out h
  | triggerStart c d =>
    simp only [exec, execTriggerStart] at h
    repeat' split at h
    all_goals exact MessageStep.of_reply h rfl
  | triggerStop c d =>
    simp only [exec, execTriggerStop] at h
    repeat' split at h
    all_goals exact MessageStep.of_reply h rfl
  | closeHalf c d =>
    simp only [exec, execClose] at h
    split at h
    · exact MessageStep.of_reply h rfl
    · cases h; exact MessageStep.of_out (by simp)
  | pointer c d => exact MessageStep.of_reply h rfl
  | rdreg c d r => exact MessageStep.of_reply h rfl
  | rdPpx c => exact MessageStep.of_reply h rfl
  | wrPpx c v => exact MessageStep.of_reply h rfl
  | rdBufsz c => exact MessageStep.of_reply h rfl
  | wrBufsz c v => exact MessageStep.of_reply h rfl
  | connect ifid cfg args =>
    simp only [exec, execConnect] at h
    repeat' split at h
    all_goals exact MessageStep.of_reply h rfl
  | disconnect ifid => exact MessageStep.of_reply h (by simp)
  | rxComplete u => exact execRxComplete_out h
  | txSlotFree ifid =>
    simp only [exec, execTxSlotFree] at h
    split at h
    all_goals exact MessageStep.of_reply h rfl
  | copyFrames c d u n =>
    simp only [exec, execCopyFrames] at h
    split at h
    · cases h
    · rename_i hk
      have ho := State.out_copyFrames hk
      cases h
      exact MessageStep.of_out ho
  | cvtCopy dst src n => exact convertOp_out h _
  | cvtSwap16 dst src n => exact convertOp_out h _
  | cvtSwap24 dst src n => exact convertOp_out h _
  | cvtSwap32 dst src n => exact convertOp_out h _
  | slWait c => exact execSlWait_out h
  | slFill c => exact execSlFill_out h
  | slSubmit c =>
    simp only [exec, execSlSubmit] at h
    split at h
    · cases h; exact MessageStep.of_out rfl
    · cases h; exact ⟨_, rfl, .submitted c⟩
  | slNotify c => exact execSlNotify_out h
  | clFinish c d => exact execClFinish_out h

end Sys2Proof.Machine
end

