-- ==== Sys2Proof/Laws/PerInstr.lean ====
section
/-! SUPPORT. Statements for all instructions, one lemma per constructor. `TableRow`: the coded form of
every instruction has, under the `mask` of its row of `spec/opcode_table.json`, the row's `match`
(rules R62, R64, R65, R67, R68, R76). -/

namespace Sys2Proof.Laws.TableRow

/-- `match` and `mask` of the row of an instruction, copied from `spec/opcode_table.json`. -/
def row : Instr → Word × Word
  | .openHalf _ _ => (0x01000000, 0xFF007FFF)
  | .hwParams _ _ _ _ _ _ => (0x02000000, 0xFF007FFF)
  | .hwFree _ _ => (0x03000000, 0xFF007FFF)
  | .prepare _ _ => (0x04000000, 0xFF007FFF)
  | .triggerStart _ _ => (0x05000000, 0xFF007FFF)
  | .triggerStop _ _ => (0x06000000, 0xFF007FFF)
  | .closeHalf _ _ => (0x07000000, 0xFF007FFF)
  | .pointer _ _ => (0x08000000, 0xFF007FFF)
  | .rdreg _ _ _ => (0x09000000, 0xFF007F00)
  | .rdPpx _ => (0x10000000, 0xFF00FFFF)
  | .wrPpx _ _ => (0x11000000, 0xFF00FFFF)
  | .rdBufsz _ => (0x12000000, 0xFF00FFFF)
  | .wrBufsz _ _ => (0x13000000, 0xFF00FFFF)
  | .connect _ _ _ => (0x20000000, 0xFFFFFFFF)
  | .disconnect _ => (0x21000000, 0xFFFFFFFF)
  | .rxComplete _ => (0x22000000, 0xFFFFFFFF)
  | .txSlotFree _ => (0x23000000, 0xFFFFFFFF)
  | .copyFrames _ _ _ _ => (0x40000000, 0xFF007FFF)
  | .cvtCopy _ _ _ => (0x50000000, 0xFFFFFFFF)
  | .cvtSwap16 _ _ _ => (0x51000000, 0xFFFFFFFF)
  | .cvtSwap24 _ _ _ => (0x52000000, 0xFFFFFFFF)
  | .cvtSwap32 _ _ _ => (0x53000000, 0xFFFFFFFF)
  | .slWait _ => (0x1, 0x7)
  | .slFill _ => (0x2, 0x7)
  | .slSubmit _ => (0x3, 0x7)
  | .slNotify _ => (0x4, 0x7)
  | .clFinish _ _ => (0x5, 0x7)

/-- The word a row's mask applies to: the header of a packet, or the selector register (rule R76). -/
def selector : Code → Option Word
  | .packet _ p => p.words.head?
  | .lphase _ v => some v
  | .lstate _ _ v => some v

/-- The coded form of `i` is one of its row's. -/
def Statement (i : Instr) : Prop :=
  ∃ w, selector (encode i) = some w ∧ w &&& (row i).2 = (row i).1

theorem openHalf (c : Nat) (d : Dir) :
    Statement (.openHalf c d) :=
  ⟨_, rfl, header_and_mask .openHalf c d 0 nofun nofun (fun _ => rfl)⟩

theorem hwParams (c : Nat) (d : Dir) (f : Fmt) (rf : Word) (pf : Word) (rh : Word) :
    Statement (.hwParams c d f rf pf rh) :=
  ⟨_, rfl, header_and_mask .hwParams c d 0 nofun nofun (fun _ => rfl)⟩

theorem hwFree (c : Nat) (d : Dir) :
    Statement (.hwFree c d) :=
  ⟨_, rfl, header_and_mask .hwFree c d 0 nofun nofun (fun _ => rfl)⟩

theorem prepare (c : Nat) (d : Dir) :
    Statement (.prepare c d) :=
  ⟨_, rfl, header_and_mask .prepare c d 0 nofun nofun (fun _ => rfl)⟩

theorem triggerStart (c : Nat) (d : Dir) :
    Statement (.triggerStart c d) :=
  ⟨_, rfl, header_and_mask .triggerStart c d 0 nofun nofun (fun _ => rfl)⟩

theorem triggerStop (c : Nat) (d : Dir) :
    Statement (.triggerStop c d) :=
  ⟨_, rfl, header_and_mask .triggerStop c d 0 nofun nofun (fun _ => rfl)⟩

theorem closeHalf (c : Nat) (d : Dir) :
    Statement (.closeHalf c d) :=
  ⟨_, rfl, header_and_mask .closeHalf c d 0 nofun nofun (fun _ => rfl)⟩

theorem pointer (c : Nat) (d : Dir) :
    Statement (.pointer c d) :=
  ⟨_, rfl, header_and_mask .pointer c d 0 nofun nofun (fun _ => rfl)⟩

theorem rdreg (c : Nat) (d : Dir) (r : Reg) :
    Statement (.rdreg c d r) :=
  ⟨_, rfl, header_and_mask .rdreg c d r.idx nofun nofun nofun⟩

theorem rdPpx (c : Nat) :
    Statement (.rdPpx c) :=
  ⟨_, rfl, header_and_mask .rdPpx c .rx 0 nofun (fun _ => rfl) (fun _ => rfl)⟩

theorem wrPpx (c : Nat) (v : Word) :
    Statement (.wrPpx c v) :=
  ⟨_, rfl, header_and_mask .wrPpx c .rx 0 nofun (fun _ => rfl) (fun _ => rfl)⟩

theorem rdBufsz (c : Nat) :
    Statement (.rdBufsz c) :=
  ⟨_, rfl, header_and_mask .rdBufsz c .rx 0 nofun (fun _ => rfl) (fun _ => rfl)⟩

theorem wrBufsz (c : Nat) (v : Word) :
    Statement (.wrBufsz c v) :=
  ⟨_, rfl, header_and_mask .wrBufsz c .rx 0 nofun (fun _ => rfl) (fun _ => rfl)⟩

theorem connect (x : IfId) (g : BusCfg) (a : List Byte) :
    Statement (.connect x g a) :=
  ⟨_, rfl, header_and_mask .connect 0 .rx 0 (fun _ => rfl) (fun _ => rfl) (fun _ => rfl)⟩

theorem disconnect (x : IfId) :
    Statement (.disconnect x) :=
  ⟨_, rfl, header_and_mask .disconnect 0 .rx 0 (fun _ => rfl) (fun _ => rfl) (fun _ => rfl)⟩

theorem rxComplete (u : Word) :
    Statement (.rxComplete u) :=
  ⟨_, rfl, header_and_mask .rxComplete 0 .rx 0 (fun _ => rfl) (fun _ => rfl) (fun _ => rfl)⟩

theorem txSlotFree (x : IfId) :
    Statement (.txSlotFree x) :=
  ⟨_, rfl, header_and_mask .txSlotFree 0 .rx 0 (fun _ => rfl) (fun _ => rfl) (fun _ => rfl)⟩

theorem copyFrames (c : Nat) (d : Dir) (u : Word) (n : Word) :
    Statement (.copyFrames c d u n) :=
  ⟨_, rfl, header_and_mask .copyFrames c d 0 nofun nofun (fun _ => rfl)⟩

theorem cvtCopy (p : MemRef) (q : MemRef) (n : Nat) :
    Statement (.cvtCopy p q n) :=
  ⟨_, rfl, header_and_mask .cvtCopy 0 .rx 0 (fun _ => rfl) (fun _ => rfl) (fun _ => rfl)⟩

theorem cvtSwap16 (p : MemRef) (q : MemRef) (n : Nat) :
    Statement (.cvtSwap16 p q n) :=
  ⟨_, rfl, header_and_mask .cvtSwap16 0 .rx 0 (fun _ => rfl) (fun _ => rfl) (fun _ => rfl)⟩

theorem cvtSwap24 (p : MemRef) (q : MemRef) (n : Nat) :
    Statement (.cvtSwap24 p q n) :=
  ⟨_, rfl, header_and_mask .cvtSwap24 0 .rx 0 (fun _ => rfl) (fun _ => rfl) (fun _ => rfl)⟩

theorem cvtSwap32 (p : MemRef) (q : MemRef) (n : Nat) :
    Statement (.cvtSwap32 p q n) :=
  ⟨_, rfl, header_and_mask .cvtSwap32 0 .rx 0 (fun _ => rfl) (fun _ => rfl) (fun _ => rfl)⟩

theorem slWait (c : Nat) :
    Statement (.slWait c) :=
  ⟨_, rfl, (by decide : (1 : Word) &&& 0x7 = 1)⟩

theorem slFill (c : Nat) :
    Statement (.slFill c) :=
  ⟨_, rfl, (by decide : (2 : Word) &&& 0x7 = 2)⟩

theorem slSubmit (c : Nat) :
    Statement (.slSubmit c) :=
  ⟨_, rfl, (by decide : (3 : Word) &&& 0x7 = 3)⟩

theorem slNotify (c : Nat) :
    Statement (.slNotify c) :=
  ⟨_, rfl, (by decide : (4 : Word) &&& 0x7 = 4)⟩

theorem clFinish (c : Nat) (d : Dir) :
    Statement (.clFinish c d) :=
  ⟨_, rfl, (by decide : (5 : Word) &&& 0x7 = 5)⟩

end Sys2Proof.Laws.TableRow
end

