-- ==== Sys2Proof/Tests/Slice0.lean ====
section
/-! SUPPORT. Tests. Expected values come from the tables of 95_test_vectors.md and from the encoding
tables of 30_encoding.md. The first part refuses ill-formed terms, the second decodes words, the third
runs single steps, the fourth gives every statement with hypotheses a state that meets them. -/

namespace Sys2Proof.Tests

open Sys2Proof Sys2Proof.Machine

/-! ## Well-formedness: each check refuses -/

/-- A ring operand of Channel `c` and a unit operand. -/
def ringRef (c : Nat) : MemRef := ⟨.ring c .rx, 0⟩

def unitRef : MemRef := ⟨.unit 0xB1, 0⟩

theorem test_wf_lifecycle_channel :
    (Instr.openHalf 2 .rx).wf 2 = false ∧ (Instr.hwFree 2 .tx).wf 2 = false ∧
    (Instr.hwParams 2 .rx ⟨2, 16, .little⟩ 4 4 0).wf 2 = false ∧
    (Instr.prepare 2 .rx).wf 2 = false ∧ (Instr.triggerStart 2 .rx).wf 2 = false ∧
    (Instr.triggerStop 2 .rx).wf 2 = false ∧ (Instr.closeHalf 2 .rx).wf 2 = false ∧
    (Instr.pointer 2 .rx).wf 2 = false ∧ (Instr.rdreg 2 .rx .flags).wf 2 = false := by decide

theorem test_wf_other_channel :
    (Instr.rdPpx 2).wf 2 = false ∧ (Instr.wrPpx 2 0).wf 2 = false ∧
    (Instr.rdBufsz 2).wf 2 = false ∧ (Instr.wrBufsz 2 0).wf 2 = false ∧
    (Instr.copyFrames 2 .rx 0 0).wf 2 = false ∧ (Instr.slWait 2).wf 2 = false ∧
    (Instr.slFill 2).wf 2 = false ∧ (Instr.slSubmit 2).wf 2 = false ∧
    (Instr.slNotify 2).wf 2 = false ∧ (Instr.clFinish 2 .tx).wf 2 = false := by decide

theorem test_wf_args_length :
    (Instr.connect ⟨1, 7⟩ ⟨.rx, 0, ⟨1, 1⟩⟩ (List.replicate 256 0x30)).wf 2 = false := by
  simp only [Instr.wf, List.length_replicate]
  decide

theorem test_wf_cvt_two_rings : (Instr.cvtCopy (ringRef 0) (ringRef 1) 1).wf 2 = false := by decide

theorem test_wf_cvt_two_units : (Instr.cvtSwap16 unitRef ⟨.unit 0xB2, 0⟩ 2).wf 2 = false := by decide

theorem test_wf_cvt_ring_channel :
    (Instr.cvtSwap24 (ringRef 2) unitRef 3).wf 2 = false ∧
    (Instr.cvtSwap32 unitRef (ringRef 2) 4).wf 2 = false := by decide

/-! ## Decoding of words written out from the tables of 30_encoding.md -/

def decodes (x : Code) : Option Instr :=
  match decode 2 x with
  | .ok i => some i
  | .error _ => none

def rejects (x : Code) : Option DecodeError :=
  match decode 2 x with
  | .ok _ => none
  | .error e => some e

def onClient (ws : List Word) : Code := .packet .client ⟨ws, none⟩

def onBus (ws : List Word) : Code := .packet .bus ⟨ws, none⟩

/-- The header of a micro-operation of R67, with operands. -/
def onInternal (h : Word) (ps : List Word) (r : Option CvtRefs) : Code := .packet .internal ⟨h :: ps, r⟩

theorem test_decode_open : decodes (onClient [0x01018000]) = some (.openHalf 1 .tx) := by decide

/-- The second `HW_PARAMS` row of V-ENC. -/
theorem test_decode_hw_params :
    decodes (onClient [0x02000000, 0x01200001, 4, 4, 0x5000]) =
      some (.hwParams 0 .rx ⟨1, 32, .big⟩ 4 4 0x5000) := by decide

theorem test_decode_hw_free : decodes (onClient [0x03008000]) = some (.hwFree 0 .tx) := by decide

theorem test_decode_prepare : decodes (onClient [0x04010000]) = some (.prepare 1 .rx) := by decide

theorem test_decode_trigger_start :
    decodes (onClient [0x05008000]) = some (.triggerStart 0 .tx) := by decide

theorem test_decode_trigger_stop :
    decodes (onClient [0x06000000]) = some (.triggerStop 0 .rx) := by decide

theorem test_decode_close : decodes (onClient [0x07018000]) = some (.closeHalf 1 .tx) := by decide

theorem test_decode_pointer : decodes (onClient [0x08010000]) = some (.pointer 1 .rx) := by decide

theorem test_decode_rdreg :
    decodes (onClient [0x09000004]) = some (.rdreg 0 .rx .bufPos) ∧
    decodes (onClient [0x09018011]) = some (.rdreg 1 .tx .cfgCh) := by decide

theorem test_decode_rd_ppx : decodes (onClient [0x10010000]) = some (.rdPpx 1) := by decide

theorem test_decode_wr_ppx : decodes (onClient [0x11010000, 0x80]) = some (.wrPpx 1 128) := by decide

theorem test_decode_rd_bufsz : decodes (onClient [0x12000000]) = some (.rdBufsz 0) := by decide

theorem test_decode_wr_bufsz :
    decodes (onClient [0x13000000, 0x1000]) = some (.wrBufsz 0 4096) := by decide

/-- The second `CONNECT` row of V-ENC: `"sync 00 rx"`. -/
theorem test_decode_connect :
    decodes (onBus
      [0x20000000, 0x00030001, 0, 0xBB80, 0x00080001, 0xA, 0x636E7973, 0x20303020, 0x00007872]) =
      some (.connect ⟨3, 1⟩ ⟨.rx, 48000, ⟨1, 8⟩⟩
        [0x73, 0x79, 0x6E, 0x63, 0x20, 0x30, 0x30, 0x20, 0x72, 0x78]) := by decide

theorem test_decode_disconnect :
    decodes (onBus [0x21000000, 0x00010007]) = some (.disconnect ⟨1, 7⟩) := by decide

theorem test_decode_rx_complete : decodes (onBus [0x22000000, 0xB1]) = some (.rxComplete 0xB1) := by
  decide

theorem test_decode_tx_slot_free :
    decodes (onBus [0x23000000, 0x00010007]) = some (.txSlotFree ⟨1, 7⟩) := by decide

theorem test_decode_copy_frames :
    decodes (onInternal 0x40018000 [0xA1, 2] none) = some (.copyFrames 1 .tx 0xA1 2) := by decide

theorem test_decode_cvt :
    decodes (onInternal 0x50000000 [] (some ⟨unitRef, ringRef 1, 3⟩)) =
      some (.cvtCopy unitRef (ringRef 1) 3) ∧
    decodes (onInternal 0x51000000 [] (some ⟨unitRef, ringRef 1, 4⟩)) =
      some (.cvtSwap16 unitRef (ringRef 1) 4) ∧
    decodes (onInternal 0x52000000 [] (some ⟨ringRef 0, unitRef, 6⟩)) =
      some (.cvtSwap24 (ringRef 0) unitRef 6) ∧
    decodes (onInternal 0x53000000 [] (some ⟨ringRef 0, unitRef, 8⟩)) =
      some (.cvtSwap32 (ringRef 0) unitRef 8) := by decide

theorem test_decode_supply_loop :
    decodes (.lphase 1 1) = some (.slWait 1) ∧ decodes (.lphase 1 2) = some (.slFill 1) ∧
    decodes (.lphase 1 3) = some (.slSubmit 1) ∧ decodes (.lphase 1 4) = some (.slNotify 1) ∧
    rejects (.lphase 1 0) = some .noStep ∧ rejects (.lphase 1 5) = some .noStep := by decide

theorem test_decode_finish :
    decodes (.lstate 1 .tx 5) = some (.clFinish 1 .tx) ∧
    rejects (.lstate 1 .tx 4) = some .noStep := by decide

/-- The illegal packets of V-ENC, each refused by name. -/
theorem test_decode_illegal_headers :
    rejects (onClient [0x00000000]) = some .reservedOpcode ∧
    rejects (onClient [0x0A000000]) = some .reservedOpcode ∧
    rejects (onClient [0x01000100]) = some .headerBits ∧
    rejects (onClient [0x01000001]) = some .headerBits ∧
    rejects (onClient [0x01020000]) = some .noChannel ∧
    rejects (onClient [0x09000012]) = some .noRegister ∧
    rejects (onClient [0x10008000]) = some .headerBits ∧
    rejects (onClient [0x22000000, 0xB1]) = some .wrongPort ∧
    rejects (onBus [0x01000000]) = some .wrongPort ∧
    rejects (onBus [0x20010000, 0x00010007, 0, 0, 0, 0]) = some .headerBits ∧
    rejects (onClient [0x40000000, 0, 0]) = some .wrongPort := by decide

theorem test_decode_illegal_operands :
    rejects (onClient [0x02000000, 0x02100002, 8, 4, 0x1000]) = some .operandBits ∧
    rejects (onBus [0x20000000, 0x00010007, 2, 0, 0, 0]) = some .operandBits ∧
    rejects (onBus [0x20000000, 0x00010007, 0, 0xBB80, 0x00060001, 3, 0x41306863]) =
      some .operandBits ∧
    rejects (onClient [0x11000000]) = some .packetLength := by decide

/-- Rows of the opcode table, numbered as the table numbers its bits. -/
theorem test_decode_table_words :
    decodeTableWord 32 0x01018000 = some (.openHalf 1 .tx) ∧
    decodeTableWord 8 3 = some (.slSubmit 0) ∧ decodeTableWord 8 5 = some (.clFinish 0 .rx) ∧
    decodeTableWord 64 0x000000801101_0000 = some (.wrPpx 1 128) := by decide

/-! ## Single steps on small states -/

/-- The next state, if there is one. -/
def nextOf : Outcome → Option State
  | .next t => some t
  | .fault _ => none
  | .refused _ => none

def faultOf : Outcome → Option Fault
  | .fault f => some f
  | .next _ => none
  | .refused _ => none

/-- What holds of the next state; false when there is none. -/
def after (i : Instr) (s : State) (p : State → Bool) : Bool :=
  match nextOf (exec i s) with
  | some t => p t
  | none => false

/-- A state whose Channel 0 is `ch`, with these units. -/
def stateWith (ch : Channel) (units : List TransferUnit) : State :=
  { State.reset with chans := [ch, Channel.reset], units := units }

/-- The bytes `a, a + 1, ...`, `n` of them. -/
def rising (a n : Nat) : List Byte := (List.range n).map (fun k => BitVec.ofNat 8 (a + k))

/-- A half bound to (1, 7), with 2 channels of 16-bit little-endian samples. -/
def boundHalf (l : LState) : Half :=
  { Half.reset with
    lstate := l
    running := decide (l = .running)
    started := decide (l = .prepared ∨ l = .running ∨ l = .stopped ∨ l = .closing)
    bound := true
    bind := ⟨1, 7⟩
    ringAlloc := decide (l ≠ .closed)
    codecValid := decide (l ≠ .closed ∧ l ≠ .opened)
    codec := if l = .closed ∨ l = .opened then .copy else .swap16
    frameBytes := if l = .closed ∨ l = .opened then 0 else 4
    ringFrames := 8
    periodFrames := 4
    negFmt := ⟨2, 16, .little⟩
    envCh := ⟨1, 6⟩
    cfgRate := 0xBB80
    cfgCh := ⟨1, 6⟩ }

/-- The capture half of V-DATA: `RF = 8`, `PF = 4`, `FB = 4`, `SWAP16`, `bp = 6`, `pp = 2`. -/
def captureHalf : Half :=
  { boundHalf .running with
    bufPos := 6
    perPos := 2
    ring := Memory.writeBytes [] 0 (List.replicate 32 0xEE) }

/-- The unit of V-DATA's capture: bytes `30 31 .. 3F`. -/
def captureUnit : TransferUnit := ⟨0xB1, ⟨1, 7⟩, 16, 16, Memory.writeBytes [] 0 (rising 0x30 16)⟩

/-- The playback half of V-DATA: `RF = 4`, `PF = 2`, `FB = 3`, `SWAP24`, `bp = 3`, `pp = 1`. -/
def playbackHalf : Half :=
  { boundHalf .running with
    codec := .swap24
    frameBytes := 3
    ringFrames := 4
    periodFrames := 2
    negFmt := ⟨1, 24, .little⟩
    bufPos := 3
    perPos := 1
    ring := Memory.writeBytes [] 0 (rising 0xA0 12) }

/-- The unit of V-DATA's playback: capacity 7. -/
def playbackUnit : TransferUnit := ⟨0xA1, ⟨1, 7⟩, 7, 0, []⟩

def captureState : State := stateWith { Channel.reset with rx := captureHalf } [captureUnit]

/-- A Channel whose TX half plays back, with its Supply Loop in a phase, holding `u`. -/
def playbackState (p : LPhase) (u : Word) : State :=
  stateWith { Channel.reset with tx := playbackHalf, loop := ⟨p, u, false, false⟩ } [playbackUnit]

/-- A state whose Channel 0 has two equal halves in state `l`, with its Supply Loop as `lp`. -/
def halvesState (l : LState) (lp : Loop) : State :=
  stateWith ⟨boundHalf l, boundHalf l, lp, 255, 0xFFFFFFFF⟩ []

def bytesAt (s : State) (sp : Space) (o n : Nat) : List Byte :=
  (List.range n).map (fun k => s.readByte sp (o + k))

/-- The last message sent. -/
def lastSent (s : State) : Option Out := s.out.getLast?

/-- `FLAGS` as software reads it. -/
def flags (s : State) (d : Dir) : Word := s.regValue 0 d .flags

/-- V-DATA and step 9 of program P1. -/
theorem test_copy_frames_captures :
    after (.copyFrames 0 .rx 0xB1 4) captureState (fun t =>
      decide (bytesAt t (.ring 0 .rx) 24 8 = [0x31, 0x30, 0x33, 0x32, 0x35, 0x34, 0x37, 0x36] ∧
        bytesAt t (.ring 0 .rx) 0 9 = [0x39, 0x38, 0x3B, 0x3A, 0x3D, 0x3C, 0x3F, 0x3E, 0xEE] ∧
        (t.half 0 .rx).bufPos = 2 ∧ (t.half 0 .rx).perPos = 2 ∧ t.copyElapsed = true)) = true := by
  decide

/-- V-COPY: `n > PF` breaks premise P5; U20: so does `u.len > u.cap`, though one frame fits. -/
theorem test_copy_frames_premise :
    faultOf (exec (.copyFrames 0 .rx 0xB1 5) captureState) = some .copyPremise ∧
    faultOf (exec (.copyFrames 0 .rx 0xB2 1) captureState) = some .noMemory ∧
    faultOf (exec (.copyFrames 0 .rx 0xB1 1)
      { captureState with units := [{ captureUnit with len := 17 }] }) = some .copyPremise := by decide

/-- V-DATA: a capture through `RX_COMPLETE` puts the unit back, then reports, then answers. -/
theorem test_rx_complete_captures :
    after (.rxComplete 0xB1) captureState (fun t =>
      decide (t.out = [.put 0xB1, .periodElapsed 0 .rx, .answer (.packet .bus) 0 0] ∧
        bytesAt t (.ring 0 .rx) 24 2 = [0x31, 0x30] ∧ t.pool = [0xB1])) = true := by decide

/-- V-DATA: the playback bytes, the padding byte, and the positions. -/
theorem test_sl_fill_playback :
    after (.slFill 0) (playbackState .fill 0xA1) (fun t =>
      decide (bytesAt t (.unit 0xA1) 0 7 = [0xAB, 0xAA, 0xA9, 0xA2, 0xA1, 0xA0, 0] ∧
        (t.half 0 .tx).bufPos = 1 ∧ (t.half 0 .tx).perPos = 1 ∧
        t.loop 0 = ⟨.submit, 0xA1, false, true⟩)) = true := by decide

/-- V-LOOP: with `RUNNING = 0` the unit is silence and the positions stay. -/
theorem test_sl_fill_silence :
    after (.slFill 0)
      (stateWith
        { Channel.reset with
          tx := { playbackHalf with running := false, lstate := .stopped }
          loop := ⟨.fill, 0xA1, false, true⟩ } [playbackUnit])
      (fun t => decide (bytesAt t (.unit 0xA1) 0 7 = List.replicate 7 0 ∧
        (t.half 0 .tx).bufPos = 3 ∧ t.loop 0 = ⟨.submit, 0xA1, false, false⟩)) = true := by decide

/-- V-LOOP: not enabled with an empty pool; enabled with a unit. -/
theorem test_sl_wait_unit :
    after (.slWait 0) (playbackState .wait 0)
      (fun t => decide (t = playbackState .wait 0)) = true ∧
    after (.slWait 0) { playbackState .wait 0 with pool := [0xA1] } (fun t =>
      decide (t.loop 0 = ⟨.fill, 0xA1, false, false⟩ ∧ t.pool = [] ∧
        t.out = [.acquire ⟨1, 7⟩ 0xA1])) = true := by decide

/-- V-LOOP: a stop request wins and no unit is taken. -/
theorem test_sl_wait_stop :
    after (.slWait 0) { halvesState .closing ⟨.wait, 0, true, false⟩ with
        units := [playbackUnit]
        pool := [0xA1] }
      (fun t => decide (t.loop 0 = ⟨.idle, 0, true, false⟩ ∧ t.pool = [0xA1] ∧ t.out = [])) =
        true := by decide

theorem test_sl_submit :
    after (.slSubmit 0) (playbackState .submit 0xA1) (fun t =>
      decide (t.loop 0 = ⟨.notify, 0, false, false⟩ ∧ t.out = [.submit 0xA1])) = true := by decide

/-- V-LOOP: one message with `PE = 1`, none with `PE = 0`. -/
theorem test_sl_notify :
    after (.slNotify 0) (halvesState .running ⟨.notify, 0, false, true⟩) (fun t =>
      decide (t.out = [.periodElapsed 0 .tx] ∧ t.loop 0 = ⟨.wait, 0, false, false⟩)) = true ∧
    after (.slNotify 0) (halvesState .running ⟨.notify, 0, false, false⟩) (fun t =>
      decide (t.out = [])) = true := by decide

/-- V-FLAGS: the word in its typical states. -/
theorem test_flags_word :
    flags State.reset .rx = 0x00 ∧ flags (halvesState .closed Loop.reset) .rx = 0x04 ∧
    flags (halvesState .opened Loop.reset) .rx = 0x1C ∧
    flags (halvesState .prepared Loop.reset) .rx = 0x3E ∧
    flags (halvesState .running Loop.reset) .rx = 0x3F ∧
    flags (halvesState .closing ⟨.fill, 0xA3, true, false⟩) .tx = 0x7E := by decide

/-- V-FLAGS: opened; V-ATTR: the envelope from an unset `BUFSZ`. -/
theorem test_open :
    after (.openHalf 0 .rx)
      (stateWith { Channel.reset with rx := { boundHalf .closed with ringAlloc := false } } [])
      (fun t => decide (flags t .rx = 0x14 ∧ (t.half 0 .rx).envSizeMax = 0x10000 ∧
        (t.half 0 .rx).envRate = 0xBB80)) = true := by decide

/-- V-LIFE: unbound. -/
theorem test_open_not_connected :
    after (.openHalf 0 .rx) State.reset (fun t =>
      decide (lastSent t = some (.answer (.packet .client) 0xFFFFFFFF 0))) = true := by decide

/-- S8: 8 channels where the maximum is 6. -/
theorem test_hw_params_envelope :
    after (.hwParams 0 .rx ⟨8, 16, .little⟩ 512 128 0x3000) (halvesState .opened Loop.reset)
      (fun t => decide (lastSent t = some (.answer (.packet .client) 0xFFFFFFFE 0) ∧
        (t.half 0 .rx).ringFrames = 8)) = true ∧
    after (.hwParams 0 .rx ⟨6, 16, .little⟩ 512 128 0x3000) (halvesState .opened Loop.reset)
      (fun t => decide ((t.half 0 .rx).ringFrames = 512 ∧
        t.regValue 0 .rx .negFmt = 0x00100006)) = true := by decide

theorem test_hw_free :
    after (.hwFree 0 .tx) (halvesState .opened Loop.reset) (fun t =>
      decide ((t.half 0 .tx).ringAlloc = false ∧ (t.half 0 .rx).ringAlloc = true)) = true := by
  decide

/-- P2 step 5: the codec, the frame size, the loop, the request. -/
theorem test_prepare_ok :
    after (.prepare 0 .tx) { halvesState .opened Loop.reset with startAnswers := [true] } (fun t =>
      decide ((t.half 0 .tx).codec = .swap16 ∧ (t.half 0 .tx).frameBytes = 4 ∧
        (t.loop 0).phase = .wait ∧ (t.half 0 .tx).lstate = .prepared ∧
        t.out = [.startChannel ⟨1, 7⟩ 255 true, .answer (.packet .client) 0 0])) = true := by decide

/-- V-LIFE: the bus layer answers `error`. -/
theorem test_prepare_error :
    after (.prepare 0 .tx) { halvesState .opened Loop.reset with startAnswers := [false] } (fun t =>
      decide (lastSent t = some (.answer (.packet .client) 0xFFFFFFFD 0) ∧
        (t.loop 0).phase = .idle ∧ (t.half 0 .tx).lstate = .opened ∧
        (t.half 0 .tx).frameBytes = 4)) = true := by decide

/-- V-LIFE: `STOPPED` to `RUNNING`, positions kept; S9: unbound. -/
theorem test_trigger_start :
    after (.triggerStart 0 .rx) (halvesState .stopped Loop.reset) (fun t =>
      decide (flags t .rx = 0x3F ∧ (t.half 0 .rx).lstate = .running)) = true ∧
    after (.triggerStart 0 .rx)
      (stateWith { Channel.reset with rx := { boundHalf .prepared with bound := false } } [])
      (fun t => decide (lastSent t = some (.answer (.packet .client) 0xFFFFFFFF 0) ∧
        (t.half 0 .rx).lstate = .prepared)) = true := by decide

theorem test_trigger_stop :
    after (.triggerStop 0 .rx) captureState (fun t =>
      decide (flags t .rx = 0x3E ∧ (t.half 0 .rx).bufPos = 6)) = true := by decide

/-- P2 step 14; V-LIFE: `RUNNING` is refused. -/
theorem test_close :
    after (.closeHalf 0 .tx) (halvesState .stopped ⟨.fill, 0xA3, false, false⟩) (fun t =>
      decide (flags t .tx = 0x7E ∧ (t.half 0 .tx).lstate = .closing ∧ t.out = [])) = true ∧
    after (.closeHalf 0 .tx) (halvesState .running ⟨.wait, 0, false, false⟩) (fun t =>
      decide (lastSent t = some (.answer (.packet .client) 0xFFFFFFF9 0))) = true := by decide

/-- V-FLAGS: closed again; P2 step 14: not enabled while the loop exists. -/
theorem test_cl_finish :
    after (.clFinish 0 .tx) (halvesState .closing ⟨.idle, 0, true, false⟩) (fun t =>
      decide (flags t .tx = 0x24 ∧
        t.out = [.stopChannel ⟨1, 7⟩, .answer (.close 0 .tx) 0 0])) = true ∧
    after (.clFinish 0 .tx) (halvesState .closing ⟨.fill, 0xA3, true, false⟩) (fun t =>
      decide ((t.half 0 .tx).lstate = .closing ∧ t.out = [])) = true := by decide

theorem test_pointer :
    after (.pointer 0 .rx) captureState (fun t =>
      decide (lastSent t = some (.answer (.packet .client) 0 6))) = true := by decide

/-- V-FLAGS (running) through `RDREG`; the packed words of P1. -/
theorem test_rdreg :
    after (.rdreg 0 .rx .flags) captureState (fun t =>
      decide (lastSent t = some (.answer (.packet .client) 0 0x3F))) = true ∧
    after (.rdreg 0 .rx .cfgCh) captureState (fun t =>
      decide (lastSent t = some (.answer (.packet .client) 0 0x00060001))) = true := by decide

/-- V-ATTR. -/
theorem test_ppx :
    after (.rdPpx 1) State.reset (fun t =>
      decide (lastSent t = some (.answer (.packet .client) 0 255))) = true ∧
    after (.wrPpx 0 128) State.reset (fun t =>
      decide ((t.chan 0).ppx = 128 ∧ (t.chan 1).ppx = 255)) = true := by decide

/-- V-ATTR. -/
theorem test_bufsz :
    after (.rdBufsz 1) State.reset (fun t =>
      decide (lastSent t = some (.answer (.packet .client) 0 0xFFFFFFFF))) = true ∧
    after (.wrBufsz 0 4096) State.reset (fun t =>
      decide ((t.chan 0).bufsz = 4096 ∧ (t.chan 0).ppx = 255)) = true := by decide

/-- V-PARSE: `"ch12x3"`, `"-1"`, `" 1 0"`, `""`, `"abc"`. -/
theorem test_parse_id :
    parseId [0x63, 0x68, 0x31, 0x32, 0x78, 0x33] = some 12 ∧ parseId [0x2D, 0x31] = some 1 ∧
    parseId [0x20, 0x31, 0x20, 0x30] = some 1 ∧ parseId [] = none ∧
    parseId [0x61, 0x62, 0x63] = none := by decide

/-- P1 step 1, and P3 step 6: the pair is claimed already. -/
theorem test_connect :
    after (.connect ⟨1, 7⟩ ⟨.rx, 48000, ⟨1, 6⟩⟩ [0x63, 0x68, 0x30]) State.reset (fun t =>
      decide (t.regValue 0 .rx .bind = 0x00010007 ∧ flags t .rx = 0x04 ∧ flags t .tx = 0)) = true ∧
    after (.connect ⟨1, 7⟩ ⟨.rx, 48000, ⟨1, 6⟩⟩ [0x31]) (halvesState .closed Loop.reset) (fun t =>
      decide (lastSent t = some (.answer (.packet .bus) 0xFFFFFFFD 0) ∧
        (t.half 1 .rx).bound = false)) = true := by decide

/-- P5 step 11: both halves; the stream goes on running. -/
theorem test_disconnect :
    after (.disconnect ⟨1, 7⟩) (halvesState .running Loop.reset) (fun t =>
      decide (flags t .rx = 0x3B ∧ flags t .tx = 0x3B ∧ (t.half 0 .tx).cfgCh = ⟨0, 0⟩ ∧
        (t.half 0 .tx).envCh = ⟨1, 6⟩)) = true := by decide

/-- P5 step 12: nothing bound, the unit is put back all the same. -/
theorem test_rx_complete_unbound :
    after (.rxComplete 0xB1) (stateWith Channel.reset [captureUnit]) (fun t =>
      decide (t.out = [.put 0xB1, .answer (.packet .bus) 0xFFFFFFFC 0])) = true := by decide

/-- P4 steps 5 and 8. -/
theorem test_tx_slot_free :
    after (.txSlotFree ⟨1, 7⟩) (halvesState .prepared Loop.reset) (fun t =>
      decide (lastSent t = some (.answer (.packet .bus) 0 0))) = true ∧
    after (.txSlotFree ⟨1, 7⟩) State.reset (fun t =>
      decide (lastSent t = some (.answer (.packet .bus) 0xFFFFFFFC 0))) = true := by decide

/-- The bytes a codec writes to a unit from these ring bytes, from offset 0 on. -/
def converted (i : MemRef → MemRef → Nat → Instr) (bs : List Byte) (n : Nat) : Option (List Byte) :=
  (nextOf (exec (i ⟨.unit 0xB1, 0⟩ ⟨.ring 0 .rx, 0⟩ n)
    (stateWith { Channel.reset with rx := { captureHalf with ring := Memory.writeBytes [] 0 bs } }
      [captureUnit]))).map (fun t => bytesAt t (.unit 0xB1) 0 n)

/-- V-CVT. -/
theorem test_cvt_copy : converted .cvtCopy [0x09, 0x08, 0x07] 3 = some [0x09, 0x08, 0x07] := by decide

/-- U4: ranges that share a byte are rejected with a result code, and no byte changes. -/
theorem test_cvt_copy_overlap :
    after (.cvtCopy ⟨.unit 0xB1, 0⟩ ⟨.unit 0xB1, 2⟩ 3) captureState (fun t =>
      decide (t = { captureState with out := [.answer (.packet .internal) 0xFFFFFFF8 0] })) = true := by
  decide

/-- S2, and V-CVT: `n = 3` is a fault. -/
theorem test_cvt_swap16 :
    converted .cvtSwap16 [0x00, 0x01, 0xFF, 0x00] 4 = some [0x01, 0x00, 0x00, 0xFF] ∧
    converted .cvtSwap16 [0x00, 0x01, 0xFF] 3 = none := by decide

/-- S1. -/
theorem test_cvt_swap24 :
    converted .cvtSwap24 [1, 2, 3, 4, 5, 6] 6 = some [3, 2, 1, 6, 5, 4] := by decide

/-- V-CVT. -/
theorem test_cvt_swap32 :
    converted .cvtSwap32 [1, 2, 3, 4, 0xDE, 0xAD, 0xBE, 0xEF] 8 =
      some [4, 3, 2, 1, 0xEF, 0xBE, 0xAD, 0xDE] := by decide

/-- R177: the ring of `captureHalf` has 8 frames of 4 bytes, so a client write at offset 30 stores two
bytes and no third. -/
theorem test_ring_write_ends :
    (match step { captureState with agenda := [.env (.ringWrite 0 .rx 30 [1, 2, 3])] } with
      | .next t => decide (t.readByte (.ring 0 .rx) 30 = 1 ∧ t.readByte (.ring 0 .rx) 31 = 2) &&
          (t.half 0 .rx).ring.all (fun cell => decide (cell.1 < 32))
      | _ => false) = true := by decide

/-- R177, P7: after another `NEG_FMT` with a larger `FRAME_BYTES` register left behind, the ring is too
short for the copy. -/
theorem test_ring_too_short :
    faultOf (exec (.copyFrames 0 .rx 0xB1 1)
      (stateWith { Channel.reset with rx := { captureHalf with negFmt := ⟨1, 16, .little⟩ } }
        [captureUnit])) = some .copyPremise := by decide

/-! ## Witnesses: concrete states and operands that meet the hypotheses of each statement -/

theorem boundHalf_safe (l : LState) : (boundHalf l).Safe := by
  cases l <;> constructor <;> decide

theorem boundHalf_negotiated (l : LState) : (boundHalf l).Negotiated := by
  cases l <;> constructor <;> decide

theorem channelReset_safe : Channel.reset.Safe :=
  ⟨by constructor <;> decide, by constructor <;> decide, by constructor <;> decide,
    by constructor <;> decide, by constructor <;> decide⟩

theorem captureState_safe : captureState.Safe := by
  intro ch h
  rcases List.mem_cons.1 h with rfl | h
  · exact ⟨by constructor <;> decide, by constructor <;> decide, by constructor <;> decide,
      by constructor <;> decide, by constructor <;> decide⟩
  · rw [List.mem_singleton.1 h]
    exact channelReset_safe

theorem captureState_bindings : captureState.BindingsUnique := by
  have key : ∀ (d : Dir) (c : Nat), (captureState.half c d).bound = true → c = 0 := by
    intro d c h
    match c with
    | 0 => rfl
    | 1 => exact absurd h (by cases d <;> decide)
    | n + 2 => exact absurd h (by cases d <;> simp [State.half, State.chan, captureState, stateWith,
        Channel.half, Channel.reset, Half.reset])
  intro d c c' h h' _
  rw [key d c h, key d c' h']

theorem captureState_canonical : captureState.MemoryCanonical := by
  constructor <;> simp only [captureState, stateWith, List.mem_cons, List.not_mem_nil, or_false]
  · rintro ch (rfl | rfl) <;> decide
  · decide
  · rintro x rfl
    exact ⟨by decide, by decide⟩

/-- `captureState` with one input to come. -/
def captureInput (x : Input) : State := { captureState with agenda := [x] }

theorem witness_DecodeInvertsEncode :
    (validNCh 1 ∧ (Instr.openHalf 0 .tx).wf 1 = true) ∧
    (validNCh 256 ∧ (Instr.rdreg 255 .tx .cfgCh).wf 256 = true) ∧
    (Instr.connect ⟨1, 7⟩ ⟨.rx, 0, ⟨1, 1⟩⟩ [0x30]).wf 1 = true ∧
    (Instr.cvtSwap32 unitRef (ringRef 1) 8).wf 2 = true := by decide

theorem witness_AcceptedPacketsAreEncodings :
    ∃ i, decode 2 (.packet .bus ⟨[0x22000000, 0xB1], none⟩) = .ok i := ⟨_, rfl⟩

theorem witness_PortsAcceptTheirOpcodes :
    (∃ i, decode 2 (.packet .client ⟨[0x13000000, 0], none⟩) = .ok i) ∧
    (∃ i, decode 2 (.packet .bus ⟨[0x23000000, 0], none⟩) = .ok i) ∧
    (∃ i, decode 2 (.packet .internal ⟨[0x53000000], some zeroRefs⟩) = .ok i) :=
  ⟨⟨_, rfl⟩, ⟨_, rfl⟩, ⟨_, rfl⟩⟩

/-- One packet for each line of rule R71. -/
theorem witness_IllegalPacketsAreAnsweredOnly :
    (validNCh (captureInput (.packet .client ⟨[0x01000001], none⟩)).nCh ∧
      (captureInput (.packet .client ⟨[0x01000001], none⟩)).agenda =
        .packet .client ⟨0x01000001 :: [], none⟩ :: []) ∧
    IllegalPacket 2 .client 0x00000000 [] ∧ IllegalPacket 2 .bus 0x01000000 [] ∧
    IllegalPacket 2 .client 0x22000000 [0xB1] ∧ IllegalPacket 2 .client 0x40000000 [] ∧
    IllegalPacket 2 .client 0x01000001 [] ∧ IllegalPacket 2 .client 0x09000100 [] ∧
    IllegalPacket 2 .client 0x10008000 [] ∧ IllegalPacket 2 .bus 0x20010000 [] ∧
    IllegalPacket 2 .client 0x01020000 [] ∧ IllegalPacket 2 .client 0x09000012 [] ∧
    IllegalPacket 2 .client 0x02000000 [0x02100002, 8, 4, 0x1000] ∧
    IllegalPacket 2 .bus 0x20000000 [0x00010007, 2, 0, 0, 0] ∧
    IllegalPacket 2 .bus 0x20000000 [0x00010007, 0, 0, 0, 0x100] ∧
    IllegalPacket 2 .bus 0x20000000 [0x00010007, 0, 0xBB80, 0x00060001, 3, 0x41306863] := by
  refine ⟨by decide, ?_, ?_, ?_, ?_, ?_, ?_, ?_, ?_, ?_, ?_, ?_, ?_, ?_, ?_⟩
  case refine_14 =>
    unfold IllegalPacket
    iterate 13 apply Or.inr
    exact ⟨by decide, 3, 0x41306863, 3, by decide, by decide, by decide, by decide⟩
  all_goals simp [IllegalPacket]

theorem witness_StepRunsDecodedPacket :
    (captureInput (.packet .bus ⟨[0x22000000, 0xB1], none⟩)).agenda =
        .packet .bus ⟨[0x22000000, 0xB1], none⟩ :: [] ∧
      decodes (onBus [0x22000000, 0xB1]) = some (.rxComplete 0xB1) := by decide

/-- Each value of `LPHASE`, and of `LSTATE` 5 and another. -/
theorem witness_SelectorRegistersSelectSteps :
    (0 < (captureInput (.loop 0)).nCh ∧ (captureInput (.loop 0)).agenda = .loop 0 :: []) ∧
    (captureInput (.loop 0)).regValue 0 .tx .lphase = 0 ∧
    (playbackState .wait 0).regValue 0 .tx .lphase = 1 ∧
    (playbackState .fill 0xA1).regValue 0 .tx .lphase = 2 ∧
    (playbackState .submit 0xA1).regValue 0 .tx .lphase = 3 ∧
    (playbackState .notify 0).regValue 0 .tx .lphase = 4 ∧
    (halvesState .closing Loop.reset).regValue 0 .rx .lstate = 5 ∧
    (halvesState .stopped Loop.reset).regValue 0 .rx .lstate ≠ 5 := by decide

/-- Nothing enabled, a loop enabled, a close completion enabled. -/
theorem witness_CoreRunsOnWithoutInput :
    (State.reset.agenda = [] ∧ State.reset.firstEnabled = none) ∧
    ((playbackState .submit 0xA1).agenda = [] ∧
      (playbackState .submit 0xA1).firstEnabled = some (.lphase 0 3)) ∧
    ((halvesState .closing Loop.reset).agenda = [] ∧
      (halvesState .closing Loop.reset).firstEnabled = some (.lstate 0 .rx 5)) := by decide

theorem witness_ResetLeavesItsValues : 0 < 1 ∧ 255 < 256 := by decide

theorem witness_StepKeepsStreamsSafe :
    (captureInput (.packet .client ⟨[0x06000000], none⟩)).Safe ∧
      ∃ t, step (captureInput (.packet .client ⟨[0x06000000], none⟩)) = .next t :=
  ⟨captureState_safe, _, rfl⟩

theorem witness_StepKeepsBindingsUnique :
    (captureInput (.packet .bus ⟨[0x21000000, 0x00010007], none⟩)).BindingsUnique ∧
      ∃ t, step (captureInput (.packet .bus ⟨[0x21000000, 0x00010007], none⟩)) = .next t :=
  ⟨captureState_bindings, _, rfl⟩

theorem witness_StepKeepsMemoryCanonical :
    (captureInput (.env (.ringWrite 0 .rx 30 [1, 2, 3]))).MemoryCanonical ∧
      ∃ t, step (captureInput (.env (.ringWrite 0 .rx 30 [1, 2, 3]))) = .next t :=
  ⟨⟨captureState_canonical.rings, captureState_canonical.units, captureState_canonical.bytes⟩, _, rfl⟩

theorem witness_StepKeepsChannelsAndHistory :
    ∃ t, step (captureInput (.packet .client ⟨[0x08000000], none⟩)) = .next t ∧ t.out.length = 1 :=
  ⟨_, rfl, rfl⟩

/-- Operands at the end of both memories: the unit has 16 bytes, the ring 32. -/
theorem witness_CvtCopyCopiesBytes :
    (⟨.unit 0xB1, 1⟩ : MemRef).space ≠ (⟨.ring 0 .rx, 17⟩ : MemRef).space ∧
    captureState.memSize (.unit 0xB1) = some 16 ∧ 1 + 15 ≤ 16 ∧
    captureState.memSize (.ring 0 .rx) = some 32 ∧ 17 + 15 ≤ 32 := by decide

theorem witness_CvtSwap16SwapsPairs :
    (⟨.unit 0xB1, 2⟩ : MemRef).space ≠ (⟨.ring 0 .rx, 18⟩ : MemRef).space ∧ 14 % 2 = 0 ∧
    captureState.memSize (.unit 0xB1) = some 16 ∧ 2 + 14 ≤ 16 ∧
    captureState.memSize (.ring 0 .rx) = some 32 ∧ 18 + 14 ≤ 32 := by decide

theorem witness_CvtSwap24ReversesTriples :
    (⟨.ring 0 .rx, 17⟩ : MemRef).space ≠ (⟨.unit 0xB1, 1⟩ : MemRef).space ∧ 15 % 3 = 0 ∧
    captureState.memSize (.ring 0 .rx) = some 32 ∧ 17 + 15 ≤ 32 ∧
    captureState.memSize (.unit 0xB1) = some 16 ∧ 1 + 15 ≤ 16 := by decide

theorem witness_CvtSwap32ReversesWords :
    (⟨.ring 0 .rx, 16⟩ : MemRef).space ≠ (⟨.unit 0xB1, 0⟩ : MemRef).space ∧ 16 % 4 = 0 ∧
    captureState.memSize (.ring 0 .rx) = some 32 ∧ 16 + 16 ≤ 32 ∧
    captureState.memSize (.unit 0xB1) = some 16 ∧ 0 + 16 ≤ 16 := by decide

/-- Each clause; the overlapping ranges share one byte, and `n = 12` fits every group. -/
theorem witness_CvtStopsOutsideItsContract :
    3 % 2 ≠ 0 ∧ 4 % 3 ≠ 0 ∧ 6 % 4 ≠ 0 ∧
    (⟨.ring 0 .rx, 0⟩ : MemRef).space = (⟨.ring 0 .rx, 11⟩ : MemRef).space ∧
    0 < 11 + 12 ∧ 11 < 0 + 12 ∧ 12 % 2 = 0 ∧ 12 % 3 = 0 ∧ 12 % 4 = 0 := by decide

theorem witness_CodecsAreInvolutions :
    (⟨.unit 0xB1, 4⟩ : MemRef).space ≠ (⟨.ring 0 .rx, 20⟩ : MemRef).space ∧
    (∀ sel ∈ [Codec.copy, .swap16, .swap24, .swap32], 12 % sel.group = 0) ∧
    captureState.memSize (.unit 0xB1) = some 16 ∧ 4 + 12 ≤ 16 ∧
    captureState.memSize (.ring 0 .rx) = some 32 ∧ 20 + 12 ≤ 32 := by decide

theorem witness_ConvertSplitsAtGroups :
    3 % Codec.swap24.group = 0 ∧ 0 % Codec.swap32.group = 0 := by decide

/-- `n = PERIOD_FRAMES` and the unit exactly full. -/
theorem witness_CopyFramesCapturesIntoRing :
    0 < captureState.nCh ∧ captureState.unitOf 0xB1 = some captureUnit ∧
    CopyPremises (captureState.half 0 .rx) captureUnit .rx (4 : Word).toNat ∧
    (captureState.half 0 .rx).frameBytes.toNat % (captureState.half 0 .rx).codec.group = 0 :=
  ⟨by decide, by decide, copyPremise_iff.1 (by decide), by decide⟩

theorem witness_CopyFramesPlaysBackFromRing :
    0 < (playbackState .idle 0).nCh ∧ (playbackState .idle 0).unitOf 0xA1 = some playbackUnit ∧
    CopyPremises ((playbackState .idle 0).half 0 .tx) playbackUnit .tx (2 : Word).toNat ∧
    ((playbackState .idle 0).half 0 .tx).frameBytes.toNat %
      ((playbackState .idle 0).half 0 .tx).codec.group = 0 :=
  ⟨by decide, by decide, copyPremise_iff.1 (by decide), by decide⟩

/-- A unit delivered with `u.len > u.cap` (U20). -/
def overlongUnit : TransferUnit := { captureUnit with len := 17 }

/-- A unit of 9 bytes, three frames of `playbackHalf`, one more than its period has. -/
def longUnit : TransferUnit := { playbackUnit with cap := 9 }

/-- V-COPY: `n > PF`; a fill of more frames than a period; a delivery with `u.len > u.cap`. -/
theorem witness_BrokenCopyPremiseFaults :
    (captureState.unitOf 0xB1 = some captureUnit ∧
      ¬ CopyPremises (captureState.half 0 .rx) captureUnit .rx (5 : Word).toNat) ∧
    (let s := { playbackState .fill 0xA1 with units := [longUnit] }
     (s.loop 0).phase = .fill ∧ s.unitOf (s.loop 0).lunit = some longUnit ∧
     (s.half 0 .tx).running = true ∧
     ¬ CopyPremises (s.half 0 .tx) longUnit .tx (longUnit.cap / (s.half 0 .tx).frameBytes.toNat)) ∧
    (let s := { captureState with units := [overlongUnit] }
     s.BindingsUnique ∧ s.unitOf 0xB1 = some overlongUnit ∧ s.BoundTo .rx overlongUnit.ifid 0 ∧
     (s.half 0 .rx).running = true ∧
     ¬ CopyPremises (s.half 0 .rx) overlongUnit .rx
       (overlongUnit.len / (s.half 0 .rx).frameBytes.toNat)) :=
  ⟨⟨by decide, fun h => absurd h.le_period (by decide)⟩,
    ⟨by decide, by decide, by decide, fun h => absurd h.le_period (by decide)⟩,
    captureState_bindings, by decide, ⟨by decide, by decide, by decide⟩, by decide,
    fun h => absurd (h.len_in_cap rfl) (by decide)⟩

/-- `captureState` from the start of a period. -/
def periodState : State :=
  stateWith { Channel.reset with rx := { captureHalf with perPos := 0 } } [captureUnit]

/-- Chunks of 3, 4 and 1 frames: two periods, with a wrap. -/
theorem witness_PeriodsDoNotDependOnChunking :
    0 < periodState.nCh ∧ (periodState.half 0 .rx).perPos = 0 ∧
    (periodState.half 0 .rx).bufPos.toNat < (periodState.half 0 .rx).ringFrames.toNat ∧
    ∃ t, copyRun 0 .rx [(0xB1, 3), (0xB1, 4), (0xB1, 1)] periodState = .ok (t, 2) :=
  ⟨by decide, by decide, by decide, _, rfl⟩

theorem witness_SequencerKeepsCodecContract : captureState.Safe := captureState_safe

/-- The three clauses. -/
theorem witness_OpenCapturesEnvelope :
    (0 < captureState.nCh ∧ (captureState.half 0 .rx).lstate ≠ .closed) ∧
    ((State.reset.half 1 .tx).lstate = .closed ∧ (State.reset.half 1 .tx).bound = false) ∧
    ((halvesState .closed Loop.reset).half 0 .tx).lstate = .closed ∧
    ((halvesState .closed Loop.reset).half 0 .tx).bound = true := by decide

/-- The three clauses: a wrong state, a count outside the envelope, the greatest count inside it. -/
theorem witness_HwParamsLatchesParameters :
    (captureState.half 0 .rx).lstate ≠ .opened ∧
    (((halvesState .opened Loop.reset).half 0 .rx).lstate = .opened ∧
      ¬ ((7 : BitVec 16) ≤ ((halvesState .opened Loop.reset).half 0 .rx).envCh.hi)) ∧
    (((halvesState .opened Loop.reset).half 0 .rx).envCh.lo ≤ (6 : BitVec 16) ∧
      (6 : BitVec 16) ≤ ((halvesState .opened Loop.reset).half 0 .rx).envCh.hi ∧
      (6 : BitVec 16) ≠ 0 ∧ (8 : Word) ≠ 0 ∧ (4 : Word) ≠ 0) := by decide

theorem witness_HwFreeReleasesRing :
    (captureState.half 0 .rx).lstate ≠ .opened ∧
    ((halvesState .opened Loop.reset).half 0 .tx).lstate = .opened := by decide

/-- An opened half with a ring and 20-bit samples. -/
def oddWidthState : State :=
  stateWith { Channel.reset with rx := { boundHalf .opened with negFmt := ⟨2, 20, .little⟩ } } []

theorem witness_PrepareRejectsAndUnbindsCodec :
    (captureState.half 0 .rx).lstate ≠ .opened ∧ (State.reset.half 0 .rx).ringAlloc = false ∧
    (oddWidthState.half 0 .rx).lstate = .opened ∧ (oddWidthState.half 0 .rx).ringAlloc = true ∧
    (oddWidthState.half 0 .rx).negFmt.width ≠ 8 ∧ (oddWidthState.half 0 .rx).negFmt.width ≠ 16 ∧
    (oddWidthState.half 0 .rx).negFmt.width ≠ 24 ∧
    (oddWidthState.half 0 .rx).negFmt.width ≠ 32 := by decide

/-- The three clauses: unbound, the answer `error`, the answer `ok`. -/
theorem witness_PrepareStartsStream :
    let s := halvesState .opened Loop.reset
    let unbound := stateWith { Channel.reset with tx := { boundHalf .opened with bound := false } } []
    ((unbound.half 0 .tx).lstate = .opened ∧ (unbound.half 0 .tx).ringAlloc = true ∧
      selectCodec (unbound.half 0 .tx).negFmt.width (unbound.half 0 .tx).negFmt.endian =
        some .swap16 ∧ (unbound.half 0 .tx).bound = false) ∧
    ((s.half 0 .tx).lstate = .opened ∧ (s.half 0 .tx).ringAlloc = true ∧
      selectCodec (s.half 0 .tx).negFmt.width (s.half 0 .tx).negFmt.endian = some .swap16 ∧
      (s.half 0 .tx).bound = true) ∧
    State.nextStartAnswer { s with startAnswers := [false] } = false ∧
    State.nextStartAnswer { s with startAnswers := [true] } = true := by decide

/-- Both accepting states, bound and unbound, and a refusing one. -/
theorem witness_TriggerStartRuns :
    let unbound := stateWith { Channel.reset with rx := { boundHalf .stopped with bound := false } } []
    ((halvesState .prepared Loop.reset).half 0 .rx).lstate = .prepared ∧
    ((halvesState .prepared Loop.reset).half 0 .rx).bound = true ∧
    (unbound.half 0 .rx).lstate = .stopped ∧ (unbound.half 0 .rx).bound = false ∧
    (captureState.half 0 .rx).lstate ≠ .prepared ∧
    (captureState.half 0 .rx).lstate ≠ .stopped := by decide

theorem witness_TriggerStopStops :
    (captureState.half 0 .rx).lstate = .running ∧ (captureState.half 0 .tx).lstate ≠ .running := by
  decide

theorem witness_CloseIsAcceptedWithoutAnswer :
    ¬ ((captureState.half 0 .rx).lstate = .opened ∨ (captureState.half 0 .rx).lstate = .prepared ∨
      (captureState.half 0 .rx).lstate = .stopped) ∧
    ((halvesState .stopped ⟨.wait, 0, false, false⟩).half 0 .tx).lstate = .stopped ∧
    ((halvesState .stopped ⟨.wait, 0, false, false⟩).loop 0).phase ≠ .idle := by decide

theorem witness_ClFinishCompletesClose :
    ((halvesState .closing Loop.reset).half 0 .tx).lstate = .closing ∧
    ((halvesState .closing Loop.reset).loop 0).phase = .idle ∧
    (captureState.half 0 .rx).lstate ≠ .closing := by decide

theorem witness_PointerReturnsBufpos : 1 < captureState.nCh := by decide

theorem witness_RdregReturnsRegister : 1 < captureState.nCh := by decide

/-- Every move of the table. -/
theorem witness_LifecycleFollowsTable :
    after (.openHalf 0 .rx) (halvesState .closed Loop.reset)
      (fun t => decide ((t.half 0 .rx).lstate = .opened)) = true ∧
    after (.prepare 0 .rx) { halvesState .opened Loop.reset with startAnswers := [true] }
      (fun t => decide ((t.half 0 .rx).lstate = .prepared)) = true ∧
    after (.triggerStart 0 .rx) (halvesState .prepared Loop.reset)
      (fun t => decide ((t.half 0 .rx).lstate = .running)) = true ∧
    after (.triggerStop 0 .rx) captureState
      (fun t => decide ((t.half 0 .rx).lstate = .stopped)) = true ∧
    after (.closeHalf 0 .rx) (halvesState .prepared Loop.reset)
      (fun t => decide ((t.half 0 .rx).lstate = .closing)) = true ∧
    after (.clFinish 0 .rx) (halvesState .closing Loop.reset)
      (fun t => decide ((t.half 0 .rx).lstate = .closed)) = true := by decide

/-- Stop, acquire, and each reason to stay blocked. -/
theorem witness_SlWaitStopsAcquiresOrBlocks :
    ((halvesState .closing ⟨.wait, 0, true, false⟩).loop 0).stopReq = true ∧
    (let s := { playbackState .wait 0 with pool := [0xA1] }
     0 < s.nCh ∧ (s.loop 0).phase = .wait ∧ (s.loop 0).stopReq = false ∧
     (s.half 0 .tx).running = true ∧ (s.half 0 .tx).bound = true ∧
     s.poolOf (s.half 0 .tx).bind = 0xA1 :: []) ∧
    ((halvesState .prepared ⟨.wait, 0, false, false⟩).half 0 .tx).running = false ∧
    (State.reset.half 0 .tx).bound = false ∧
    (playbackState .wait 0).poolOf ((playbackState .wait 0).half 0 .tx).bind = [] := by decide

/-- A unit of 7 bytes and frames of 3: two frames and one byte of padding. -/
theorem witness_SlFillDrainsRing :
    let s := playbackState .fill 0xA1
    0 < s.nCh ∧ (s.loop 0).phase = .fill ∧ s.unitOf (s.loop 0).lunit = some playbackUnit ∧
    (s.half 0 .tx).running = true ∧
    CopyPremises (s.half 0 .tx) playbackUnit .tx (playbackUnit.cap / (s.half 0 .tx).frameBytes.toNat) ∧
    (s.half 0 .tx).frameBytes.toNat % (s.half 0 .tx).codec.group = 0 :=
  ⟨by decide, by decide, by decide, by decide, copyPremise_iff.1 (by decide), by decide⟩

theorem witness_SlFillWritesSilence :
    let s := { halvesState .stopped ⟨.fill, 0xA1, false, true⟩ with units := [playbackUnit] }
    0 < s.nCh ∧ (s.loop 0).phase = .fill ∧ s.unitOf (s.loop 0).lunit = some playbackUnit ∧
    (s.half 0 .tx).running = false := by decide

theorem witness_SlSubmitHandsUnitBack :
    0 < (playbackState .submit 0xA1).nCh ∧
    ((playbackState .submit 0xA1).loop 0).phase = .submit := by decide

/-- With `PE` set and clear. -/
theorem witness_SlNotifyReportsPeriod :
    ((playbackState .notify 0).loop 0).phase = .notify ∧
    ((playbackState .notify 0).loop 0).pe = false ∧
    ((halvesState .running ⟨.notify, 0, false, true⟩).loop 0).phase = .notify ∧
    ((halvesState .running ⟨.notify, 0, false, true⟩).loop 0).pe = true := by decide

/-- A closing half whose loop holds a live unit. -/
theorem witness_AcceptedCloseIsAnswered :
    let s := stateWith ⟨boundHalf .closed, boundHalf .closing, ⟨.fill, 0xA1, true, false⟩, 255, 0⟩
      [playbackUnit]
    0 < s.nCh ∧ s.Safe ∧ (s.half 0 .tx).lstate = .closing ∧
      (s.unitOf (s.loop 0).lunit).isSome = true := by
  refine ⟨by decide, ?_, by decide, by decide⟩
  intro ch h
  rcases List.mem_cons.1 h with rfl | h
  · exact ⟨boundHalf_safe _, boundHalf_safe _, boundHalf_negotiated _, boundHalf_negotiated _,
      by constructor <;> decide⟩
  · rw [List.mem_singleton.1 h]
    exact channelReset_safe

/-- `"abc"`; and `"a"`, `"09"`, `"/"`, whose bytes stand next to the digits' range. -/
theorem witness_ParseIdReadsFirstDigitRun :
    (∀ b ∈ ([0x61, 0x62, 0x63] : List Byte), ¬ (0x30 ≤ b.toNat ∧ b.toNat ≤ 0x39)) ∧
    (∀ b ∈ ([0x3A] : List Byte), ¬ (0x30 ≤ b.toNat ∧ b.toNat ≤ 0x39)) ∧
    (∀ b ∈ ([0x30, 0x39] : List Byte), 0x30 ≤ b.toNat ∧ b.toNat ≤ 0x39) ∧
    (∀ b ∈ ([0x2F] : List Byte).head?, ¬ (0x30 ≤ b.toNat ∧ b.toNat ≤ 0x39)) := by decide

theorem reset_unbound (d : Dir) (ifid : IfId) (c : Nat) : ¬ State.reset.BoundTo d ifid c := by
  rintro ⟨hc, hb, -⟩
  have h2 : State.reset.nCh = 2 := rfl
  obtain rfl | rfl : c = 0 ∨ c = 1 := by omega
  all_goals cases d <;> exact absurd hb (by decide)

/-- The four clauses: no digit, no such Channel, a bound half, a claimed pair, a free half. -/
theorem witness_ConnectBindsHalf :
    parseId [0x78] = none ∧ (parseId [0x32] = some 2 ∧ State.reset.nCh ≤ 2) ∧
    (parseId [0x30] = some 0 ∧ 0 < captureState.nCh ∧ (captureState.half 0 .rx).bound = true) ∧
    (parseId [0x31] = some 1 ∧ 1 < captureState.nCh ∧ captureState.BoundTo .rx ⟨1, 7⟩ 0) ∧
    (1 < State.reset.nCh ∧ (State.reset.half 1 .tx).bound = false ∧
      ∀ c, ¬ State.reset.BoundTo .tx ⟨1, 7⟩ c) :=
  ⟨by decide, by decide, by decide,
    ⟨by decide, by decide, by decide, by decide, by decide⟩,
    by decide, by decide, reset_unbound _ _⟩

theorem witness_DisconnectClearsBindings :
    captureState.BindingsUnique ∧ captureState.BoundTo .rx ⟨1, 7⟩ 0 :=
  ⟨captureState_bindings, by decide, by decide, by decide⟩

/-- `captureState`, stopped. -/
def stoppedState : State :=
  stateWith { Channel.reset with rx := boundHalf .stopped } [captureUnit]

theorem stoppedState_bindings : stoppedState.BindingsUnique := by
  have key : ∀ (d : Dir) (c : Nat), (stoppedState.half c d).bound = true → c = 0 := by
    intro d c h
    match c with
    | 0 => rfl
    | 1 => exact absurd h (by cases d <;> decide)
    | n + 2 => exact absurd h (by cases d <;> simp [State.half, State.chan, stoppedState, stateWith,
        Channel.half, Channel.reset, Half.reset])
  intro d c c' h h' _
  rw [key d c h, key d c' h']

/-- The three clauses: a dead handle, nothing bound, a stopped half. -/
theorem witness_RxCompletePutsUnitBack :
    captureState.unitOf 0xB2 = none ∧
    (State.unitOf { State.reset with units := [captureUnit] } 0xB1 = some captureUnit ∧
      ∀ c, ¬ State.BoundTo { State.reset with units := [captureUnit] } .rx captureUnit.ifid c) ∧
    (stoppedState.BindingsUnique ∧ stoppedState.unitOf 0xB1 = some captureUnit ∧
      stoppedState.BoundTo .rx captureUnit.ifid 0 ∧ (stoppedState.half 0 .rx).running = false) :=
  ⟨by decide, ⟨by decide, fun c h => reset_unbound _ _ c h⟩,
    stoppedState_bindings, by decide, ⟨by decide, by decide, by decide⟩, by decide⟩

theorem witness_RxCompleteCapturesUnit :
    captureState.BindingsUnique ∧ captureState.unitOf 0xB1 = some captureUnit ∧
    captureState.BoundTo .rx captureUnit.ifid 0 ∧ (captureState.half 0 .rx).running = true ∧
    CopyPremises (captureState.half 0 .rx) captureUnit .rx
      (captureUnit.len / (captureState.half 0 .rx).frameBytes.toNat) ∧
    (captureState.half 0 .rx).frameBytes.toNat % (captureState.half 0 .rx).codec.group = 0 :=
  ⟨captureState_bindings, by decide, ⟨by decide, by decide, by decide⟩, by decide,
    copyPremise_iff.1 (by decide), by decide⟩

theorem witness_TxSlotFreeChangesNothing :
    (playbackState .wait 0).BoundTo .tx ⟨1, 7⟩ 0 ∧ ∀ c, ¬ State.reset.BoundTo .tx ⟨1, 7⟩ c :=
  ⟨⟨by decide, by decide, by decide⟩, reset_unbound _ _⟩

theorem witness_TunablesAreRead : 1 < State.reset.nCh := by decide

theorem witness_TunablesAreWritten : 1 < State.reset.nCh := by decide

/-- A step that changes `RUNNING`, one that changes the binding. -/
theorem witness_RegistersHaveTheirWriters :
    after (.triggerStop 0 .rx) captureState
      (fun t => decide ((t.half 0 .rx).running ≠ (captureState.half 0 .rx).running)) = true ∧
    after (.disconnect ⟨1, 7⟩) captureState
      (fun t => decide ((t.half 0 .rx).bound ≠ (captureState.half 0 .rx).bound)) = true := by decide

theorem witness_PositionsHaveOneMutator :
    after (.rxComplete 0xB1) captureState
      (fun t => decide ((t.half 0 .rx).bufPos ≠ (captureState.half 0 .rx).bufPos)) = true := by decide

theorem witness_TunablesHaveTheirWriters :
    after (.wrPpx 1 7) State.reset (fun t => decide ((t.chan 1).ppx ≠ (State.reset.chan 1).ppx)) =
      true := by decide

theorem witness_StopChannelComesAfterLoop :
    ∃ t l, exec (.clFinish 0 .tx) (halvesState .closing Loop.reset) = .next t ∧
      t.out = (halvesState .closing Loop.reset).out ++ l ∧ .stopChannel ⟨1, 7⟩ ∈ l :=
  ⟨_, [.stopChannel ⟨1, 7⟩, .answer (.close 0 .tx) 0 0], rfl, rfl, by decide⟩

theorem witness_ErrorsChangeNothing :
    ∃ t, exec (.openHalf 0 .rx) State.reset = .next t ∧
      t.out = State.reset.out ++ [.answer (.packet .client) 0xFFFFFFFF 0] ∧
      (0xFFFFFFFF : Word) ≠ 0 ∧ ∀ c d, Instr.openHalf 0 .rx ≠ .prepare c d :=
  ⟨_, rfl, rfl, by decide, fun _ _ h => nomatch h⟩

/-- One message of each direction. -/
theorem witness_PeriodMessagesComeFromCopies :
    (∃ t l, exec (.slNotify 0) (halvesState .running ⟨.notify, 0, false, true⟩) = .next t ∧
      t.out = (halvesState .running ⟨.notify, 0, false, true⟩).out ++ l ∧
      .periodElapsed 0 .tx ∈ l) ∧
    (∃ t l, exec (.rxComplete 0xB1) captureState = .next t ∧
      t.out = captureState.out ++ l ∧ .periodElapsed 0 .rx ∈ l) :=
  ⟨⟨_, [.periodElapsed 0 .tx], rfl, rfl, by decide⟩,
    ⟨_, [.put 0xB1, .periodElapsed 0 .rx, .answer (.packet .bus) 0 0], rfl, rfl, by decide⟩⟩

end Sys2Proof.Tests
end

section
/-! PROOFS. What one step does with the next input (rules R9, R60). -/

namespace Sys2Proof.Machine

/-- A packet at the head of the agenda is what is fetched, and fetching takes it off. -/
theorem fetch_packet {s : State} {port : Port} {p : Packet} {rest : List Input}
    (hs : s.agenda = .packet port p :: rest) :
    fetch s = .code (.packet port p) { s with agenda := rest } := by
  simp only [fetch, hs]

/-- A fetched form that decodes is executed, on the state that fetching leaves. -/
theorem step_eq_exec {s t : State} {x : Code} {i : Instr} (hf : fetch s = .code x t)
    (hd : decode t.nCh x = .ok i) : step s = exec i t := by
  simp only [step, hf, hd]

/-- Settles O6: fetching takes the packet off the agenda and leaves `N_CH`, so the packet decodes after
the fetch to the operation it decodes to before. -/
theorem stepRunsDecodedPacket : Obligations.StepRunsDecodedPacket := by
  intro s port p rest i hs hd
  exact step_eq_exec (fetch_packet hs) hd

end Sys2Proof.Machine
end

section
/-! PROOFS. The invariants of rule R34: what each change of `ChanStep` does to a half and to a Supply
Loop, and so that every step keeps `Channel.Safe`. -/

namespace Sys2Proof.Machine

/-! ## All Channels of a state -/

/-- A property of Channels that reset has holds of the listed Channels exactly when it holds at every
number, listed or not. -/
theorem State.forall_mem_chans {P : Channel → Prop} (hr : P Channel.reset) (s : State) :
    (∀ ch ∈ s.chans, P ch) ↔ ∀ c, P (s.chan c) := by
  constructor
  · intro h c
    by_cases hc : c < s.nCh
    · exact h _ (s.chan_mem c hc)
    · rw [s.chan_of_ge c (Nat.le_of_not_lt hc)]
      exact hr
  · intro h ch hm
    obtain ⟨c, hc, rfl⟩ := List.getElem_of_mem hm
    have e : s.chan c = s.chans[c] := by
      simp [State.chan, List.getD_eq_getElem?_getD, List.getElem?_eq_getElem hc]
    exact e ▸ h c

/-- After reset every number names a Channel at its reset values (rule R171). -/
theorem State.chan_resetWith (n : Nat) (pm : Word) (c : Nat) :
    (State.resetWith n pm).chan c = Channel.reset := by
  simp only [State.chan, State.resetWith, List.getD_eq_getElem?_getD, List.getElem?_replicate]
  split <;> rfl

/-! ## One half -/

/-- The invariants of one half: I1 to I3 of rule R34 with the clauses that make them inductive. -/
structure Half.Sound (h : Half) : Prop where
  safe : h.Safe
  negotiated : h.Negotiated

/-- A half without the registers no invariant speaks of: binding, envelope, handle and ring bytes. -/
def Half.control (h : Half) : Half :=
  { h with
    bound := false, bind := ⟨0, 0⟩, cfgRate := 0, cfgCh := ⟨0, 0⟩
    envRate := 0, envCh := ⟨0, 0⟩, envSizeMax := 0, ringHandle := 0, ring := [] }

theorem Half.sound_control_iff {h : Half} : h.control.Sound ↔ h.Sound :=
  ⟨fun ⟨⟨a, b, c, d, e, f⟩, ⟨g, k, l⟩⟩ => ⟨⟨a, b, c, d, e, f⟩, ⟨g, k, l⟩⟩,
    fun ⟨⟨a, b, c, d, e, f⟩, ⟨g, k, l⟩⟩ => ⟨⟨a, b, c, d, e, f⟩, ⟨g, k, l⟩⟩⟩

/-- A change of nothing but binding, envelope, handle and ring bytes keeps the invariants. -/
theorem Half.Sound.congr {h h' : Half} (hs : h.Sound) (e : h'.control = h.control) : h'.Sound :=
  Half.sound_control_iff.1 (e ▸ Half.sound_control_iff.2 hs)

theorem Half.Sound.running_eq_false {h : Half} (hs : h.Sound) (hl : h.lstate ≠ .running) :
    h.running = false :=
  Bool.eq_false_iff.2 (fun hr => hl (hs.safe.running_iff.1 hr))

theorem Half.Sound.started_eq_false {h : Half} (hs : h.Sound) (hl : ¬ h.lstate.streaming)
    (hc : h.lstate ≠ .closing) : h.started = false :=
  Bool.eq_false_iff.2 (fun hr => (hs.safe.started_only hr).elim hl hc)

theorem Half.Sound.started_eq_false_of_opened {h : Half} (hs : h.Sound) (hl : h.lstate = .opened) :
    h.started = false := hs.started_eq_false (hl ▸ by decide) (hl ▸ by decide)

/-- The invariants of a half that does not stream: it does not run, it is started only while it closes,
and its ring and its codec keep their bounds. -/
theorem Half.sound_of_not_streaming {h : Half} (hl : ¬ h.lstate.streaming) (hr : h.running = false)
    (hs : h.started = true → h.lstate = .closing)
    (hring : h.ringAlloc = true →
      0 < h.negFmt.channels.toNat ∧ 0 < h.ringFrames.toNat ∧ 0 < h.periodFrames.toNat)
    (hcodec : h.codecValid = true →
      0 < h.frameBytes.toNat ∧ h.frameBytes.toNat % h.codec.group = 0) : h.Sound where
  safe :=
    { running_iff := by
        rw [hr]
        exact ⟨fun e => (nomatch e), fun e => absurd (.inr (.inl e)) hl⟩
      started_only := fun e => .inr (hs e)
      streaming_started := fun e => absurd e hl
      streaming_flags := fun e => absurd e hl
      streaming_sizes := fun e => absurd e hl
      streaming_positions := fun e => absurd e hl }
  negotiated := ⟨hring, hcodec, fun e => absurd e hl⟩

theorem Half.sound_reset : Half.reset.Sound :=
  Half.sound_of_not_streaming (by decide) rfl (fun h => nomatch h) (fun h => nomatch h)
    (fun h => nomatch h)

/-- Every codec that is selected has its samples' size as group size (rules R80, R86). -/
theorem selectCodec_width {w : BitVec 8} {e : Endian} {sel : Codec} (h : selectCodec w e = some sel) :
    0 < w.toNat / 8 ∧ w.toNat / 8 % sel.group = 0 := by
  unfold selectCodec at h
  split at h <;> cases h <;> simp [Codec.group, *]

/-- `FRAME_BYTES` fits its register (rule R19). -/
theorem toNat_frameBytesOf (f : Fmt) : (BitVec.ofNat 32 (frameBytesOf f)).toNat = frameBytesOf f := by
  have hw : f.width.toNat / 8 ≤ 31 := by have := f.width.isLt; omega
  have hc : f.channels.toNat ≤ 65535 := by have := f.channels.isLt; omega
  have := Nat.mul_le_mul hw hc
  rw [BitVec.toNat_ofNat, frameBytesOf]
  exact Nat.mod_eq_of_lt (by omega)

/-- The frame that `PREPARE` computes is not empty and has whole groups (rules R87, R104). -/
theorem frameBytesOf_selected {f : Fmt} {sel : Codec} (h : selectCodec f.width f.endian = some sel)
    (hc : 0 < f.channels.toNat) : 0 < frameBytesOf f ∧ frameBytesOf f % sel.group = 0 := by
  obtain ⟨hpos, hgroup⟩ := selectCodec_width h
  refine ⟨Nat.mul_pos hpos hc, ?_⟩
  rw [frameBytesOf, Nat.mul_mod, hgroup, Nat.zero_mul, Nat.zero_mod]

section
variable {h : Half} (hs : h.Sound)
include hs

/-- `HW_PARAMS`: the checks against 0 of rule R102 are what I3 will need. -/
theorem Half.Sound.hwParams (hl : h.lstate = .opened) {fmt : Fmt} {rf pf rh : Word}
    (hz : ¬ (fmt.channels = 0 ∨ rf = 0 ∨ pf = 0)) :
    Half.Sound { h with
      negFmt := fmt, ringFrames := rf, periodFrames := pf, ringHandle := rh, ringAlloc := true } := by
  have pos : ∀ {n : Nat} {v : BitVec n}, v ≠ 0 → 0 < v.toNat := fun hv =>
    Nat.pos_of_ne_zero (fun e => hv (BitVec.eq_of_toNat_eq (by simpa using e)))
  simp only [not_or] at hz
  obtain ⟨hch, hrf, hpf⟩ := hz
  exact Half.sound_of_not_streaming (hl ▸ by decide) (hs.running_eq_false (hl ▸ by decide))
    (fun e => absurd e (by simp [hs.started_eq_false_of_opened hl]))
    (fun _ => ⟨pos hch, pos hrf, pos hpf⟩) hs.negotiated.codec_bound

/-- A step of a half that does not stream to a state that does not stream either: `OPEN`, `HW_FREE`, a
`PREPARE` without a codec, and `CL.FINISH`. Flags may be cleared; `STARTED` of a closing half must be. -/
theorem Half.Sound.move {l : LState} {st ra cv : Bool} {k : Codec} (hl : ¬ h.lstate.streaming)
    (hl' : ¬ l.streaming) (hst : st = true → h.started = true ∧ h.lstate ≠ .closing)
    (hra : ra = true → h.ringAlloc = true) (hcv : cv = true → h.codecValid = true ∧ k = h.codec) :
    Half.Sound { h with
      lstate := l, started := st, ringAlloc := ra, codecValid := cv, codec := k } := by
  refine Half.sound_of_not_streaming hl' (hs.running_eq_false fun e => hl (.inr (.inl e)))
    (fun e => ?_) (fun e => hs.negotiated.ring_bound (hra e)) (fun e => ?_)
  · obtain ⟨hv, hc⟩ := hst e
    exact absurd hv (by simp [hs.started_eq_false hl hc])
  · obtain ⟨hv, rfl⟩ := hcv e
    exact hs.negotiated.codec_bound hv

/-- An accepted `CLOSE` (rule R107): the half was not running, and may have been started. -/
theorem Half.Sound.close (hl : h.lstate ≠ .running) : Half.Sound { h with lstate := .closing } :=
  Half.sound_of_not_streaming (show ¬ LState.closing.streaming by decide)
    (hs.running_eq_false hl) (fun _ => rfl)
    hs.negotiated.ring_bound hs.negotiated.codec_bound

/-- What a successful selection of a codec makes of a half's frame (rule R104). -/
theorem Half.Sound.prepared_frame (ha : h.ringAlloc = true) {sel : Codec}
    (hc : selectCodec h.negFmt.width h.negFmt.endian = some sel) :
    (h.prepared sel).frameBytes.toNat = frameBytesOf h.negFmt ∧
    0 < (h.prepared sel).frameBytes.toNat ∧ (h.prepared sel).frameBytes.toNat % sel.group = 0 := by
  have e : (h.prepared sel).frameBytes.toNat = frameBytesOf h.negFmt := toNat_frameBytesOf _
  rw [e]
  exact ⟨rfl, frameBytesOf_selected hc (hs.negotiated.ring_bound ha).1⟩

/-- `PREPARE` whose `START_CHANNEL` failed leaves the half open. -/
theorem Half.Sound.prepareFailed (hl : h.lstate = .opened) (ha : h.ringAlloc = true) {sel : Codec}
    (hc : selectCodec h.negFmt.width h.negFmt.endian = some sel) : (h.prepared sel).Sound := by
  refine Half.sound_of_not_streaming (show ¬ h.lstate.streaming from hl ▸ by decide)
    (hs.running_eq_false (hl ▸ by decide)) (fun e => ?_) hs.negotiated.ring_bound
    (fun _ => (hs.prepared_frame ha hc).2)
  have e' : h.started = true := e
  simp [hs.started_eq_false_of_opened hl] at e'

/-- `PREPARE` makes a half stream with everything I3 asks for. -/
theorem Half.Sound.prepare (hl : h.lstate = .opened) (ha : h.ringAlloc = true) {sel : Codec}
    (hc : selectCodec h.negFmt.width h.negFmt.endian = some sel) :
    Half.Sound { h.prepared sel with started := true, lstate := .prepared } := by
  obtain ⟨hframe, hpos, hgroup⟩ := hs.prepared_frame ha hc
  obtain ⟨-, hrf, hpf⟩ := hs.negotiated.ring_bound ha
  have hr : h.running = false := hs.running_eq_false (hl ▸ by decide)
  exact
    { safe :=
        { running_iff := by simp [Half.prepared, hr]
          started_only := fun _ => .inl (.inl rfl)
          streaming_started := fun _ => rfl
          streaming_flags := fun _ => ⟨rfl, ha⟩
          streaming_sizes := fun _ => ⟨hpos, hrf, hpf⟩
          streaming_positions := fun _ => ⟨hrf, hpf⟩ }
      negotiated := ⟨hs.negotiated.ring_bound, fun _ => ⟨hpos, hgroup⟩, fun _ => hframe⟩ }

/-- The triggers move a half among the streaming states and keep I1. -/
theorem Half.Sound.trigger (hl : h.lstate.streaming) {l : LState} {r : Bool} (hl' : l.streaming)
    (hr : r = true ↔ l = .running) : Half.Sound { h with running := r, lstate := l } where
  safe :=
    { running_iff := hr
      started_only := fun _ => .inl hl'
      streaming_started := fun _ => hs.safe.streaming_started hl
      streaming_flags := fun _ => hs.safe.streaming_flags hl
      streaming_sizes := fun _ => hs.safe.streaming_sizes hl
      streaming_positions := fun _ => hs.safe.streaming_positions hl }
  negotiated :=
    ⟨hs.negotiated.ring_bound, hs.negotiated.codec_bound, fun _ => hs.negotiated.streaming_frame hl⟩

/-- A copy leaves the positions in range (rule R95) and every other register alone. -/
theorem Half.Sound.advance {x : TransferUnit} {d : Dir} {n : Nat} (hp : CopyPremises h x d n) :
    (h.advance n).Sound where
  safe :=
    { running_iff := hs.safe.running_iff
      started_only := hs.safe.started_only
      streaming_started := hs.safe.streaming_started
      streaming_flags := hs.safe.streaming_flags
      streaming_sizes := hs.safe.streaming_sizes
      streaming_positions := fun _ => Half.advance_in_range hp }
  negotiated :=
    ⟨hs.negotiated.ring_bound, hs.negotiated.codec_bound, hs.negotiated.streaming_frame⟩

end

/-! ## The Supply Loop -/

theorem LState.closed_or_opened_iff {l : LState} :
    l = .closed ∨ l = .opened ↔ ¬ l.streaming ∧ l ≠ .closing := by
  cases l <;> decide

/-- The invariants of the loop read nothing but `LSTATE` of the TX half and the loop itself. -/
theorem Channel.LoopSafe.congr {ch ch' : Channel} (hs : ch.LoopSafe)
    (ht : ch'.tx.lstate = ch.tx.lstate) (hl : ch'.loop = ch.loop) : ch'.LoopSafe := by
  obtain ⟨h1, h2, h3, h4, h5⟩ := hs
  rw [← ht, ← hl] at h1 h2 h5
  rw [← hl] at h3
  rw [← ht, ← hl] at h4
  exact ⟨h1, h2, h3, h4, h5⟩

/-- Where the loop is idle no unit is held (I6). -/
theorem Channel.LoopSafe.lunit_of_idle {ch : Channel} (hs : ch.LoopSafe) (hp : ch.loop.phase = .idle) :
    ch.loop.lunit = 0 := hs.held_only (by simp [hp]) (by simp [hp])

/-- The invariants of the loop depend on the lifecycle state only through whether the half streams and
whether it closes. -/
theorem Channel.LoopSafe.setHalf {ch : Channel} (hs : ch.LoopSafe) {d : Dir} {h : Half}
    {a b : LState} (ha : (ch.half d).lstate = a) (hb : h.lstate = b)
    (hst : b.streaming ↔ a.streaming) (hcl : b = .closing ↔ a = .closing) :
    (ch.setHalf d h).LoopSafe := by
  subst ha hb
  cases d with
  | rx => exact hs.congr rfl rfl
  | tx =>
    refine ⟨fun e => hs.streaming_loop (hst.1 e), fun e => hs.closed_loop ?_, hs.held_only,
      fun e => hcl.2 (hs.stop_closing e), fun e => hs.closing_signalled (hcl.1 e)⟩
    obtain ⟨hns, hnc⟩ := LState.closed_or_opened_iff.1 e
    exact LState.closed_or_opened_iff.2 ⟨fun e' => hns (hst.2 e'), fun e' => hnc (hcl.2 e')⟩

/-- A live loop goes from phase to phase and holds a unit only in `FILL` and `SUBMIT`. -/
theorem Channel.LoopSafe.setLoop_live {ch : Channel} (hs : ch.LoopSafe) {l : Loop} {p : LPhase}
    (hp : ch.loop.phase = p) (hi : p ≠ .idle) (hp' : l.phase ≠ .idle)
    (hq : l.stopReq = ch.loop.stopReq) (hu : l.phase ≠ .fill → l.phase ≠ .submit → l.lunit = 0) : (ch.setLoop l).LoopSafe where
  streaming_loop := fun _ => hp'
  closed_loop := fun e => absurd (hp ▸ (hs.closed_loop e).1) hi
  held_only := hu
  stop_closing := fun e => hs.stop_closing (hq ▸ e)
  closing_signalled := fun e _ => hq.trans (hs.closing_signalled e (hp ▸ hi))

/-- A loop that was signalled ends (rule R121): its half closes. -/
theorem Channel.LoopSafe.waitStop {ch : Channel} (hs : ch.LoopSafe) (hp : ch.loop.phase = .wait)
    (hq : ch.loop.stopReq = true) : (ch.setLoop { ch.loop with phase := .idle }).LoopSafe := by
  have hl : ch.tx.lstate = .closing := hs.stop_closing hq
  have hns : ¬ ch.tx.lstate.streaming := hl ▸ by decide
  exact ⟨fun e => absurd e hns, fun e => absurd hl (LState.closed_or_opened_iff.1 e).2,
    fun _ _ => hs.held_only (by simp [hp]) (by simp [hp]), fun _ => hl, fun _ _ => hq⟩

/-- `PREPARE` of an open TX half starts the loop exactly when the half becomes streaming (I4). -/
theorem Channel.LoopSafe.prepare {ch : Channel} (hs : ch.LoopSafe) {d : Dir} {h : Half} {p : LPhase}
    (hl : (ch.half d).lstate = .opened)
    (hp : (h.lstate = .prepared ∧ p = .wait) ∨ (h.lstate = .opened ∧ p = .idle)) :
    ((ch.setHalf d h).setLoop (ch.loop.prepared p d)).LoopSafe := by
  cases d with
  | rx => exact hs.congr rfl rfl
  | tx =>
    have hq : ch.loop.stopReq = false := (hs.closed_loop (.inr hl)).2
    rcases hp with ⟨hh, rfl⟩ | ⟨hh, rfl⟩ <;> constructor <;>
      simp [Channel.setHalf, Channel.setLoop, Loop.prepared, hh, hq]

/-- An accepted `CLOSE` of a TX half signals the loop if there is one (rule R107). -/
theorem Channel.LoopSafe.close {ch : Channel} (hs : ch.LoopSafe) {d : Dir} {h : Half}
    (hh : h.lstate = .closing) :
    ((ch.setHalf d h).setLoop (ch.loop.closed d)).LoopSafe := by
  cases d with
  | rx => exact hs.congr rfl rfl
  | tx =>
    have hns : ¬ h.lstate.streaming := hh ▸ by decide
    by_cases hp : ch.loop.phase = .idle
    · rw [show ch.loop.closed .tx = ch.loop from if_neg (fun e => e hp)]
      exact ⟨fun e => absurd e hns, fun e => absurd hh (LState.closed_or_opened_iff.1 e).2,
        hs.held_only, fun _ => hh, fun _ e => absurd hp e⟩
    · rw [show ch.loop.closed .tx = { ch.loop with stopReq := true } from if_pos hp]
      exact ⟨fun _ => hp, fun e => absurd hh (LState.closed_or_opened_iff.1 e).2,
        hs.held_only, fun _ => hh, fun _ _ => rfl⟩

/-- The close completion clears the signal of a loop that has ended (rule R108). -/
theorem Channel.LoopSafe.finish {ch : Channel} (hs : ch.LoopSafe) {d : Dir} {h : Half}
    (hp : d = .tx → ch.loop.phase = .idle) (hh : h.lstate = .closed) :
    ((ch.setHalf d h).setLoop (ch.loop.finished d)).LoopSafe := by
  cases d with
  | rx => exact hs.congr rfl rfl
  | tx =>
    have hi := hp rfl
    constructor <;>
      simp [Channel.setHalf, Channel.setLoop, Loop.finished, hh, hi, hs.lunit_of_idle hi]

/-! ## One Channel -/

/-- The invariants of a Channel are those of its halves and of its loop. -/
theorem Channel.safe_iff {ch : Channel} : ch.Safe ↔ (∀ d, (ch.half d).Sound) ∧ ch.LoopSafe := by
  constructor
  · rintro ⟨hrx, htx, nrx, ntx, hl⟩
    refine ⟨fun d => ?_, hl⟩
    cases d with
    | rx => exact ⟨hrx, nrx⟩
    | tx => exact ⟨htx, ntx⟩
  · rintro ⟨hh, hl⟩
    exact ⟨(hh .rx).safe, (hh .tx).safe, (hh .rx).negotiated, (hh .tx).negotiated, hl⟩

theorem Channel.safe_reset : Channel.reset.Safe := by
  refine Channel.safe_iff.2 ⟨fun d => ?_, by constructor <;> decide⟩
  cases d <;> exact Half.sound_reset

section
variable {ch : Channel} (hs : ch.Safe)
include hs

theorem Channel.Safe.half (d : Dir) : (ch.half d).Sound := (Channel.safe_iff.1 hs).1 d

theorem Channel.Safe.half_setHalf {d : Dir} {h : Half} (hh : h.Sound) (d' : Dir) :
    ((ch.setHalf d h).half d').Sound := by
  rw [Channel.half_setHalf]
  split
  · exact hh
  · exact hs.half d'

/-- One half is replaced by another with the invariants. -/
theorem Channel.Safe.setHalf {d : Dir} {h : Half} (hh : h.Sound) (hl : (ch.setHalf d h).LoopSafe) :
    (ch.setHalf d h).Safe := Channel.safe_iff.2 ⟨hs.half_setHalf hh, hl⟩

/-- One half is replaced by another at the same lifecycle state. -/
theorem Channel.Safe.setHalf_same {d : Dir} {h : Half} (hh : h.Sound)
    (hl : h.lstate = (ch.half d).lstate) : (ch.setHalf d h).Safe :=
  hs.setHalf hh (hs.loop.setHalf rfl hl Iff.rfl Iff.rfl)

theorem Channel.Safe.setLoop {l : Loop} (hl : (ch.setLoop l).LoopSafe) : (ch.setLoop l).Safe :=
  Channel.safe_iff.2 ⟨fun d => ch.half_setLoop l d ▸ hs.half d, hl⟩

/-- One half and the loop are replaced together. -/
theorem Channel.Safe.setHalf_setLoop {d : Dir} {h : Half} {l : Loop} (hh : h.Sound)
    (hl : ((ch.setHalf d h).setLoop l).LoopSafe) : ((ch.setHalf d h).setLoop l).Safe :=
  Channel.safe_iff.2 ⟨fun d' => Channel.half_setLoop _ l d' ▸ hs.half_setHalf hh d', hl⟩

end

/-! ## One step -/

/-- Every change of a Channel keeps its invariants. -/
theorem ChanStep.safe {s : State} {c : Nat} {i : Instr} {ch : Channel} (h : ChanStep s c i ch)
    (hs : (s.chan c).Safe) : ch.Safe := by
  have half : ∀ d, (s.half c d).Sound := hs.half
  cases h with
  | same => exact hs
  | opened d hl hb =>
    have hh := (half d).move (l := .opened) (hl ▸ by decide) (by decide)
      (fun e => ⟨e, hl ▸ by decide⟩) id (fun e => ⟨e, rfl⟩)
    exact hs.setHalf (hh.congr rfl) (hs.loop.setHalf (b := .opened) hl rfl (by decide) (by decide))
  | hwParams d fmt rf pf rh hl hz => exact hs.setHalf_same ((half d).hwParams hl hz) rfl
  | hwFree d hl =>
    have hst : ¬ (s.half c d).lstate.streaming := hl ▸ by decide
    exact hs.setHalf_same ((half d).move hst hst (fun e => ⟨e, hl ▸ by decide⟩)
      (fun e => nomatch e) (fun e => ⟨e, rfl⟩)) rfl
  | prepareUnsupported d hl ha =>
    have hst : ¬ (s.half c d).lstate.streaming := hl ▸ by decide
    exact hs.setHalf_same ((half d).move hst hst (fun e => ⟨e, hl ▸ by decide⟩) id
      (fun e => nomatch e)) rfl
  | prepareFailed d sel hl ha hc =>
    exact hs.setHalf_setLoop ((half d).prepareFailed hl ha hc)
      (hs.loop.prepare hl (.inr ⟨hl, rfl⟩))
  | prepared d sel hl ha hc =>
    exact hs.setHalf_setLoop ((half d).prepare hl ha hc) (hs.loop.prepare hl (.inl ⟨rfl, rfl⟩))
  | triggerStart d hl hb =>
    have hst : (s.half c d).lstate.streaming := hl.imp id .inr
    refine hs.setHalf ((half d).trigger hst (.inr (.inl rfl)) (by simp)) ?_
    rcases hl with hl | hl <;> exact hs.loop.setHalf (b := .running) hl rfl (by decide) (by decide)
  | triggerStop d hl =>
    exact hs.setHalf ((half d).trigger (.inr (.inl hl)) (.inr (.inr rfl)) (by simp))
      (hs.loop.setHalf (b := .stopped) hl rfl (by decide) (by decide))
  | close d hl =>
    have hne : (s.half c d).lstate ≠ .running := by rcases hl with hl | hl | hl <;> simp [hl]
    exact hs.setHalf_setLoop ((half d).close hne) (hs.loop.close rfl)
  | finish d hl hp =>
    exact hs.setHalf_setLoop ((half d).move (hl ▸ by decide) (by decide) (fun e => nomatch e)
      (fun e => nomatch e) (fun e => ⟨e, rfl⟩)) (hs.loop.finish hp rfl)
  | wrPpx v => exact ⟨hs.rx, hs.tx, hs.rx_negotiated, hs.tx_negotiated, hs.loop.congr rfl rfl⟩
  | wrBufsz v => exact ⟨hs.rx, hs.tx, hs.rx_negotiated, hs.tx_negotiated, hs.loop.congr rfl rfl⟩
  | connect ifid cfg args hb hl => exact hs.setHalf_same ((half cfg.dir).congr rfl) rfl
  | disconnect ifid rx tx hr ht =>
    have hrx : rx.Sound ∧ rx.lstate = (s.half c .rx).lstate := by
      rcases hr with rfl | ⟨-, rfl⟩ <;> exact ⟨(half .rx).congr rfl, rfl⟩
    have htx : tx.Sound ∧ tx.lstate = (s.half c .tx).lstate := by
      rcases ht with rfl | ⟨-, rfl⟩ <;> exact ⟨(half .tx).congr rfl, rfl⟩
    exact (hs.setHalf_same hrx.1 hrx.2).setHalf_same htx.1 htx.2
  | capture u x m hx hb hr hp hm =>
    exact hs.setHalf_same (((half .rx).advance hp).congr rfl) rfl
  | copyRx u n x m hx hp hm => exact hs.setHalf_same (((half .rx).advance hp).congr rfl) rfl
  | copyTx u n x hx hp => exact hs.setHalf_same ((half .tx).advance hp) rfl
  | convert i d m hi hm he => exact hs.setHalf_same ((half d).congr rfl) rfl
  | waitStop hp hq => exact hs.setLoop (hs.loop.waitStop hp hq)
  | waitAcquire u hp hq hr =>
    exact hs.setLoop (hs.loop.setLoop_live hp (by decide) (by simp) rfl (by simp))
  | fill x hp hx hr hc =>
    have hs' := hs.setHalf_same (d := .tx) ((half .tx).advance hc) rfl
    exact hs'.setLoop (hs'.loop.setLoop_live hp (by decide) (by simp) rfl (by simp))
  | silence hp hr =>
    exact hs.setLoop (hs.loop.setLoop_live hp (by decide) (by simp) rfl (by simp))
  | submit hp =>
    exact hs.setLoop (hs.loop.setLoop_live hp (by decide) (by simp) rfl (by simp))
  | notify hp =>
    exact hs.setLoop (hs.loop.setLoop_live hp (by decide) (by simp) rfl
      (fun _ _ => hs.loop.held_only (fun e => nomatch hp.symm.trans e)
        (fun e => nomatch hp.symm.trans e)))

/-- What a step does to a Channel: nothing, new bytes in a ring, or a change by an operation. -/
theorem step_chan {s t : State} (h : step s = .next t) (c : Nat) :
    t.chan c = s.chan c ∨
    (∃ d o bs, t.chan c =
      (s.chan c).setHalf d { s.half c d with ring := (s.half c d).ring.writeBytes o bs }) ∨
    ∃ l i, ChanStep { s with agenda := l } c i (t.chan c) := by
  obtain ⟨l, rfl | ⟨port, rfl⟩ | ⟨a, ha⟩ | ⟨i, hi⟩⟩ := step_cases h
  · exact .inl rfl
  · exact .inl rfl
  · rcases execEnv_chan ha c with e | ⟨d, o, bs, -, e⟩
    · exact .inl e
    · exact .inr (.inl ⟨d, o, bs, e⟩)
  · exact .inr (.inr ⟨l, i, exec_chan hi c⟩)

/-- Settles O11: a step changes a Channel by stored ring bytes or by one of `ChanStep`, and each keeps
the invariants. -/
theorem stepKeepsStreamsSafe : Obligations.StepKeepsStreamsSafe := by
  intro s t hs h
  have hsafe : ∀ c, (s.chan c).Safe := (State.forall_mem_chans Channel.safe_reset s).1 hs
  refine (State.forall_mem_chans Channel.safe_reset t).2 (fun c => ?_)
  rcases step_chan h c with e | ⟨d, o, bs, e⟩ | ⟨l, i, hc⟩
  · exact e ▸ hsafe c
  · exact e ▸ (hsafe c).setHalf_same (((hsafe c).half d).congr rfl) rfl
  · exact hc.safe (hsafe c)

end Sys2Proof.Machine
end

section
/-! PROOFS. The writers of the registers of a half (rules R15, R16, R18, R19, R22, R23, R24), and
binding uniqueness (rule R35), which needs them only for the binding. -/

namespace Sys2Proof.Machine

/-! ## The writers of a half's registers -/

/-- Half `(c, d)` went from `h` to `h'` by instruction `i`, and every register group that changed has
`i` among its writers. -/
structure WrittenBy (i : Instr) (c : Nat) (d : Dir) (h h' : Half) : Prop where
  running : h'.running = h.running ∨ (i = .triggerStart c d ∧ h'.running = true) ∨
    (i = .triggerStop c d ∧ h'.running = false)
  started : h'.started = h.started ∨ (i = .prepare c d ∧ h'.started = true) ∨
    (i = .clFinish c d ∧ h'.started = false)
  codec : (h'.codec = h.codec ∧ h'.codecValid = h.codecValid ∧ h'.frameBytes = h.frameBytes) ∨
    i = .prepare c d
  negotiated : (h'.ringFrames = h.ringFrames ∧ h'.periodFrames = h.periodFrames ∧
      h'.ringHandle = h.ringHandle ∧ h'.negFmt = h.negFmt) ∨
    ∃ fmt rf pf rh, i = .hwParams c d fmt rf pf rh
  binding : (h'.bound = h.bound ∧ h'.bind = h.bind ∧ h'.cfgRate = h.cfgRate ∧ h'.cfgCh = h.cfgCh) ∨
    (∃ ifid cfg args, i = .connect ifid cfg args ∧ cfg.dir = d ∧ h.bound = false ∧
      h'.bound = true) ∨
    (∃ ifid, i = .disconnect ifid ∧ h.bind = ifid ∧ h'.bound = false)
  envelope : (h'.envRate = h.envRate ∧ h'.envCh = h.envCh ∧ h'.envSizeMax = h.envSizeMax) ∨
    i = .openHalf c d

/-- Nothing needs no writer. -/
theorem WrittenBy.refl (i : Instr) (c : Nat) (d : Dir) (h : Half) : WrittenBy i c d h h where
  running := .inl rfl
  started := .inl rfl
  codec := .inl ⟨rfl, rfl, rfl⟩
  negotiated := .inl ⟨rfl, rfl, rfl, rfl⟩
  binding := .inl ⟨rfl, rfl, rfl, rfl⟩
  envelope := .inl ⟨rfl, rfl, rfl⟩

/-- Setting one half of a Channel leaves the other. -/
theorem WrittenBy.setHalf {i : Instr} {c : Nat} {ch : Channel} {e : Dir} {h : Half}
    {d : Dir} (hw : WrittenBy i c e (ch.half e) h) :
    WrittenBy i c d (ch.half d) ((ch.setHalf e h).half d) := by
  rw [Channel.half_setHalf]
  split
  · rename_i he
    exact he ▸ hw
  · exact .refl i c d _

/-- Setting the loop leaves both halves. -/
theorem WrittenBy.setLoop {i : Instr} {c : Nat} {d : Dir} {h : Half} {ch : Channel} {l : Loop}
    (hw : WrittenBy i c d h (ch.half d)) : WrittenBy i c d h ((ch.setLoop l).half d) := by
  rw [Channel.half_setLoop]
  exact hw

/-- One direction of `DISCONNECT` (rule R132). -/
theorem WrittenBy.disconnect {s : State} {ifid : IfId} {c : Nat} {d : Dir} {h : Half}
    (hh : h = s.half c d ∨ (s.BoundTo d ifid c ∧ h = (s.half c d).unbound)) :
    WrittenBy (.disconnect ifid) c d (s.half c d) h := by
  rcases hh with rfl | ⟨hb, rfl⟩
  · exact .refl _ c d _
  · exact { WrittenBy.refl _ c d (s.half c d) with binding := .inr (.inr ⟨ifid, rfl, hb.2.2, rfl⟩) }

/-- Every change of a Channel is by the writers of what it changes. -/
theorem ChanStep.writtenBy {s : State} {c : Nat} {i : Instr} {ch : Channel} (h : ChanStep s c i ch)
    (d : Dir) : WrittenBy i c d ((s.chan c).half d) (ch.half d) := by
  have keep := fun e => WrittenBy.refl i c e ((s.chan c).half e)
  cases h with
  | same => exact keep d
  | opened e hl hb => exact .setHalf { keep e with envelope := .inr rfl }
  | hwParams e fmt rf pf rh hl hz =>
    exact .setHalf { keep e with negotiated := .inr ⟨fmt, rf, pf, rh, rfl⟩ }
  | hwFree e hl => exact .setHalf { keep e with }
  | prepareUnsupported e hl ha => exact .setHalf { keep e with codec := .inr rfl }
  | prepareFailed e sel hl ha hs =>
    exact .setLoop (.setHalf { keep e with codec := .inr rfl })
  | prepared e sel hl ha hs =>
    exact .setLoop (.setHalf
      { keep e with codec := .inr rfl, started := .inr (.inl ⟨rfl, rfl⟩) })
  | triggerStart e hl hb => exact .setHalf { keep e with running := .inr (.inl ⟨rfl, rfl⟩) }
  | triggerStop e hl => exact .setHalf { keep e with running := .inr (.inr ⟨rfl, rfl⟩) }
  | close e hl => exact .setLoop (.setHalf { keep e with })
  | finish e hl hp =>
    exact .setLoop (.setHalf { keep e with started := .inr (.inr ⟨rfl, rfl⟩) })
  | wrPpx v => cases d <;> exact keep _
  | wrBufsz v => cases d <;> exact keep _
  | connect ifid cfg args hb hl =>
    exact .setHalf { keep cfg.dir with binding := .inr (.inl ⟨ifid, cfg, args, rfl, rfl, hb, rfl⟩) }
  | disconnect ifid rx tx hr ht =>
    cases d with
    | rx => exact .disconnect hr
    | tx => exact .disconnect ht
  | capture u x m hx hb hr hp hm => exact .setHalf { keep .rx with }
  | copyRx u n x m hx hp hm => exact .setHalf { keep .rx with }
  | copyTx u n x hx hp => exact .setHalf { keep .tx with }
  | convert i e m hi hm he => exact .setHalf { keep e with }
  | fill x hp hx hr hc => exact .setLoop (.setHalf { keep .tx with })
  | waitStop | waitAcquire | silence | submit | notify => exact .setLoop (keep d)

/-- Settles O55: whatever `ChanStep` changes in a half is changed by a writer of it. -/
theorem registersHaveTheirWriters : Obligations.RegistersHaveTheirWriters := by
  intro i s t c d h
  obtain ⟨hr, hs, hc, hn, hb, he⟩ := (exec_chan h c).writtenBy d
  exact ⟨hr, hs, hc, hn, hb, he⟩

/-! ## Bindings -/

/-- Every binding of `t` is one of `s`. -/
def BindingsFrom (s t : State) : Prop :=
  ∀ c d, (t.half c d).bound = true → (s.half c d).bound = true ∧ (t.half c d).bind = (s.half c d).bind

/-- With fewer bindings they stay unique. -/
theorem State.BindingsUnique.of_from {s t : State} (hu : s.BindingsUnique) (h : BindingsFrom s t) :
    t.BindingsUnique := by
  intro d c c' hb hb' he
  obtain ⟨h1, e1⟩ := h c d hb
  obtain ⟨h2, e2⟩ := h c' d hb'
  exact hu d c c' h1 h2 (e1.symm.trans (he.trans e2))

theorem bindingsFrom_of_half {s t : State} (h : ∀ c d, t.half c d = s.half c d) : BindingsFrom s t :=
  fun c d hb => ⟨h c d ▸ hb, by rw [h c d]⟩

/-- No operation but `CONNECT` makes a binding. -/
theorem exec_bindingsFrom {i : Instr} {s t : State} (h : exec i s = .next t)
    (hi : ∀ ifid cfg args, i ≠ .connect ifid cfg args) : BindingsFrom s t := by
  intro c d hb
  rcases ((exec_chan h c).writtenBy d).binding with ⟨h1, h2, -⟩ |
    ⟨ifid, cfg, args, rfl, -⟩ | ⟨-, -, -, h1⟩
  · exact ⟨h1 ▸ hb, h2⟩
  · exact absurd rfl (hi ifid cfg args)
  · exact absurd (hb.symm.trans h1) (by decide)

theorem State.lt_nCh_of_bound {s : State} {c : Nat} {d : Dir} (h : (s.half c d).bound = true) :
    c < s.nCh := by
  refine Nat.lt_of_not_le fun hc => ?_
  rw [s.half_of_ge c d hc] at h
  cases h

/-- A half that takes a pair nobody of its direction has keeps the bindings unique. -/
theorem State.BindingsUnique.setHalf {s : State} (hu : s.BindingsUnique) {c : Nat} {d : Dir} {h : Half}
    (hn : ∀ k, ¬ s.BoundTo d h.bind k) : (s.setHalf c d h).BindingsUnique := by
  have fresh : ∀ k, (s.half k d).bound = true → (s.half k d).bind ≠ h.bind := fun k hb he =>
    hn k ⟨State.lt_nCh_of_bound hb, hb, he⟩
  intro d' k k' hk hk' he
  rw [State.half_setHalf] at hk hk' he
  rw [State.half_setHalf s c k'] at he
  split at hk <;> split at hk'
  · rename_i h1 h2
    exact h1.1.trans h2.1.symm
  · rename_i h1 h2
    obtain ⟨-, rfl, -⟩ := id h1
    rw [if_pos h1, if_neg h2] at he
    exact absurd he.symm (fresh k' hk')
  · rename_i h1 h2
    obtain ⟨-, rfl, -⟩ := id h2
    rw [if_neg h1, if_pos h2] at he
    exact absurd he (fresh k hk)
  · rename_i h1 h2
    rw [if_neg h1, if_neg h2] at he
    exact hu d' k k' hk hk' he

/-- `CONNECT` binds at most one half, to a pair that its direction has free (rule R130). -/
theorem execConnect_half {ifid : IfId} {cfg : BusCfg} {args : List Byte} {s t : State}
    (h : execConnect ifid cfg args s = .next t) :
    (∀ k e, t.half k e = s.half k e) ∨
    ∃ c x, x.bind = ifid ∧ s.lookup cfg.dir ifid = none ∧
      ∀ k e, t.half k e = (s.setHalf c cfg.dir x).half k e := by
  dsimp only [execConnect] at h
  split at h
  · cases h; exact .inl fun _ _ => rfl
  · rename_i c _
    split at h
    · cases h; exact .inl fun _ _ => rfl
    split at h
    · cases h; exact .inl fun _ _ => rfl
    split at h
    · cases h; exact .inl fun _ _ => rfl
    · rename_i hl
      cases h
      exact .inr ⟨c, _, rfl, by simpa using hl, fun _ _ => rfl⟩

theorem exec_bindingsUnique {i : Instr} {s t : State} (hu : s.BindingsUnique)
    (h : exec i s = .next t) : t.BindingsUnique := by
  by_cases hi : ∃ ifid cfg args, i = .connect ifid cfg args
  · obtain ⟨ifid, cfg, args, rfl⟩ := hi
    rcases execConnect_half h with hh | ⟨c, x, rfl, hl, hh⟩
    · exact hu.of_from (bindingsFrom_of_half hh)
    · exact (hu.setHalf (State.lookup_eq_none.1 hl)).of_from (bindingsFrom_of_half hh)
  · exact hu.of_from (exec_bindingsFrom h fun ifid cfg args e => hi ⟨ifid, cfg, args, e⟩)

/-- Actions of the environment touch no binding. -/
theorem execEnv_bindingsFrom {a : EnvAct} {s t : State} (h : execEnv a s = .next t) :
    BindingsFrom s t := by
  intro c d hb
  have ht : t.half c d = (t.chan c).half d := rfl
  rcases execEnv_chan h c with e | ⟨d', o, bs, -, e⟩ <;> rw [ht, e] at hb ⊢
  · exact ⟨hb, rfl⟩
  · rw [Channel.half_setHalf] at hb ⊢
    split at hb
    · rename_i hd
      subst hd
      rw [if_pos rfl]
      exact ⟨hb, rfl⟩
    · rename_i hd
      rw [if_neg hd]
      exact ⟨hb, rfl⟩

/-- Settles O12: only `CONNECT` makes a binding, and only of a pair that its direction has free. -/
theorem stepKeepsBindingsUnique : Obligations.StepKeepsBindingsUnique := by
  intro s t hu h
  obtain ⟨l, rfl | ⟨port, rfl⟩ | ⟨a, ha⟩ | ⟨i, hi⟩⟩ := step_cases h
  · exact hu
  · exact hu
  · exact State.BindingsUnique.of_from (s := { s with agenda := l }) hu (execEnv_bindingsFrom ha)
  · exact exec_bindingsUnique (s := { s with agenda := l }) hu hi

end Sys2Proof.Machine
end

section
/-! PROOFS. Every step keeps the canonical form of the memories (log entry 1); the invariants at reset
(rule R171); and the numbers of the register rules (R13, R18, R25, R150). -/

namespace Sys2Proof.Machine

/-! ## Ring memories -/

/-- The rings of both halves are canonical. -/
def Channel.RingsCanonical (ch : Channel) : Prop := ∀ d, (ch.half d).ring.wf

theorem Channel.ringsCanonical_iff {ch : Channel} :
    ch.RingsCanonical ↔ ch.rx.ring.wf ∧ ch.tx.ring.wf := by
  refine ⟨fun h => ⟨h .rx, h .tx⟩, fun ⟨hrx, htx⟩ d => ?_⟩
  cases d with
  | rx => exact hrx
  | tx => exact htx

theorem Channel.ringsCanonical_reset : Channel.reset.RingsCanonical :=
  Channel.ringsCanonical_iff.2 ⟨.nil, .nil⟩

theorem Channel.RingsCanonical.setHalf {ch : Channel} (hs : ch.RingsCanonical) {d : Dir} {h : Half}
    (hh : h.ring.wf) : (ch.setHalf d h).RingsCanonical := by
  intro d'
  rw [Channel.half_setHalf]
  split
  · exact hh
  · exact hs d'

theorem Channel.RingsCanonical.setLoop {ch : Channel} (hs : ch.RingsCanonical) {l : Loop} :
    (ch.setLoop l).RingsCanonical := fun d => by
  rw [Channel.half_setLoop]
  exact hs d

theorem Channel.RingsCanonical.setHalf_setLoop {ch : Channel} (hs : ch.RingsCanonical) {d : Dir}
    {h : Half} {l : Loop} (hh : h.ring.wf) : ((ch.setHalf d h).setLoop l).RingsCanonical :=
  (hs.setHalf hh).setLoop

/-- A capture keeps the ring canonical. -/
theorem captureBytes_wf {h : Half} {x : TransferUnit} {n : Nat} {m : Memory}
    (hm : captureBytes h x n = .ok m) (hw : h.ring.wf) : m.wf := by
  dsimp only [captureBytes] at hm
  split at hm
  · cases hm
  rename_i m1 h1
  split at hm
  · exact convert_wf hm (convert_wf h1 hw)
  · cases hm
    exact convert_wf h1 hw

/-- Every change of a Channel keeps its rings canonical: most leave them alone. -/
theorem ChanStep.ringsCanonical {s : State} {c : Nat} {i : Instr} {ch : Channel}
    (h : ChanStep s c i ch) (hs : (s.chan c).RingsCanonical) : ch.RingsCanonical := by
  cases h with
  | same => exact hs
  | opened d | hwParams d | hwFree d | prepareUnsupported d | triggerStart d | triggerStop d =>
    exact hs.setHalf (hs d)
  | prepareFailed d | prepared d | close d | finish d =>
    exact hs.setHalf_setLoop (hs d)
  | wrPpx v => exact Channel.ringsCanonical_iff.2 (Channel.ringsCanonical_iff.1 hs)
  | wrBufsz v => exact Channel.ringsCanonical_iff.2 (Channel.ringsCanonical_iff.1 hs)
  | connect ifid cfg args hb hl => exact hs.setHalf (hs cfg.dir)
  | disconnect ifid rx tx hr ht =>
    have hrx : rx.ring.wf := by rcases hr with rfl | ⟨-, rfl⟩ <;> exact hs .rx
    have htx : tx.ring.wf := by rcases ht with rfl | ⟨-, rfl⟩ <;> exact hs .tx
    exact (hs.setHalf hrx).setHalf htx
  | capture u x m hx hb hr hp hm => exact hs.setHalf (captureBytes_wf hm (hs .rx))
  | copyRx u n x m hx hp hm => exact hs.setHalf (captureBytes_wf hm (hs .rx))
  | copyTx u n x hx hp => exact hs.setHalf (hs .tx)
  | convert i d m hi hm he => exact hs.setHalf (hm (hs d))
  | fill x hp hx hr hc => exact hs.setHalf_setLoop (hs .tx)
  | waitStop | waitAcquire | silence | submit | notify => exact hs.setLoop

/-! ## Transfer units -/

/-- The list of live units is in its form: one record per handle, handles rising, bytes canonical. -/
structure UnitsCanonical (l : List TransferUnit) : Prop where
  sorted : l.Pairwise (fun x y => x.handle.toNat < y.handle.toNat)
  bytes : ∀ x ∈ l, x.Canonical

theorem UnitsCanonical.insertUnit {l : List TransferUnit} (hl : UnitsCanonical l) {x : TransferUnit}
    (hx : x.Canonical) : UnitsCanonical (insertUnit x l) where
  sorted := insertUnit_sorted hl.sorted
  bytes := fun _ hy => (mem_insertUnit hy).elim (fun e => e ▸ hx) (hl.bytes _)

/-- The bytes a unit of the bus layer's making or writing holds, cut off at its end. -/
theorem TransferUnit.Canonical.write {x : TransferUnit} (hx : x.Canonical) (o : Nat) (bs : List Byte)
    (len : Nat) : TransferUnit.Canonical
      { x with len := len, bytes := x.bytes.writeBytes o (bs.take (x.cap - o)) } where
  wf := Memory.wf_writeBytes hx.wf _ _
  within := fun cell hc => by
    rcases Memory.mem_writeBytes hc with hin | hin
    · rw [List.length_take] at hin
      show cell.1 < x.cap
      omega
    · exact hx.within cell hin

theorem UnitStep.unitsCanonical {s : State} {l : List TransferUnit} (h : UnitStep s l)
    (hs : UnitsCanonical s.units) : UnitsCanonical l := by
  cases h with
  | same => exact hs
  | bytes x m hx hm => exact hs.insertUnit (hm (hs.bytes x (State.unitOf_mem hx)))

/-- Every action of the environment keeps the units in their form. -/
theorem execEnv_unitsCanonical {a : EnvAct} {s t : State} (h : execEnv a s = .next t)
    (hs : UnitsCanonical s.units) : UnitsCanonical t.units := by
  cases a with
  | unitMake u ifid cap len bs =>
    cases h
    have empty : TransferUnit.Canonical ⟨u, ifid, cap, len, []⟩ := ⟨.nil, fun _ hc => nomatch hc⟩
    exact hs.insertUnit (empty.write 0 bs len)
  | unitWrite u o bs len =>
    dsimp only [execEnv] at h
    split at h
    · cases h; exact hs
    · rename_i x hx
      cases h
      exact hs.insertUnit ((hs.bytes x (State.unitOf_mem hx)).write o bs len)
  | unitDrop u =>
    cases h
    exact ⟨hs.sorted.filter _, fun x hx => hs.bytes x (List.mem_filter.1 hx).1⟩
  | ringWrite | poolInsert | poolRemove | startAnswer => cases h; exact hs

/-! ## Memories -/

theorem State.memoryCanonical_iff {s : State} :
    s.MemoryCanonical ↔ (∀ c, (s.chan c).RingsCanonical) ∧ UnitsCanonical s.units := by
  rw [← State.forall_mem_chans Channel.ringsCanonical_reset s]
  simp only [Channel.ringsCanonical_iff]
  exact ⟨fun ⟨hr, hu, hb⟩ => ⟨hr, hu, hb⟩, fun ⟨hr, hu, hb⟩ => ⟨hr, hu, hb⟩⟩

/-- Settles O13: rings change as `step_chan` says, units as `UnitStep` and the environment's actions
say. -/
theorem stepKeepsMemoryCanonical : Obligations.StepKeepsMemoryCanonical := by
  intro s t hs h
  obtain ⟨hr, hu⟩ := State.memoryCanonical_iff.1 hs
  refine State.memoryCanonical_iff.2 ⟨fun c => ?_, ?_⟩
  · rcases step_chan h c with e | ⟨d, o, bs, e⟩ | ⟨l, i, hc⟩
    · exact e ▸ hr c
    · exact e ▸ (hr c).setHalf (Memory.wf_writeBytes (hr c d) o bs)
    · exact hc.ringsCanonical (hr c)
  · obtain ⟨l, rfl | ⟨port, rfl⟩ | ⟨a, ha⟩ | ⟨i, hi⟩⟩ := step_cases h
    · exact hu
    · exact hu
    · exact execEnv_unitsCanonical ha hu
    · exact (exec_units hi).unitsCanonical hu

/-! ## Reset and the numbers -/

/-- Settles O10: every Channel of reset has the reset values, no half is bound, no byte is written. -/
theorem resetIsSafe : Obligations.ResetIsSafe := by
  intro n pm
  have unbound : ∀ c d, ((State.resetWith n pm).half c d).bound = false := fun c d => by
    rw [State.half, State.chan_resetWith]
    cases d <;> rfl
  refine ⟨(State.forall_mem_chans Channel.safe_reset _).2 fun c => ?_, fun d c c' hb => ?_,
    State.memoryCanonical_iff.2 ⟨fun c => ?_, .nil, fun _ hx => nomatch hx⟩⟩
  · rw [State.chan_resetWith]
    exact Channel.safe_reset
  · exact absurd (hb.symm.trans (unbound c d)) (by decide)
  · rw [State.chan_resetWith]
    exact Channel.ringsCanonical_reset

/-- Settles O39, by evaluation of the four tables of numbers. -/
theorem numbersSoftwareSees : Obligations.NumbersSoftwareSees := by
  unfold Obligations.NumbersSoftwareSees
  decide

end Sys2Proof.Machine
end

section
/-! PROOFS. What every step keeps: the number of Channels, `PERIOD_MAX` and the history (rules R5, R32,
R36). -/

namespace Sys2Proof.Machine

/-- `N_CH` and `PERIOD_MAX`: the parameters of rule R5. -/
def State.params (s : State) : Nat × Word := (s.nCh, s.periodMax)

/-! ## What the updates leave of the parameters -/

/-- An update that leaves the list of Channels and `PERIOD_MAX` leaves the parameters. -/
theorem State.params_congr {s t : State} (hc : t.chans = s.chans) (hp : t.periodMax = s.periodMax) :
    t.params = s.params := by
  simp only [State.params, State.nCh, hc, hp]

@[simp] theorem State.params_setHalf (s : State) (c : Nat) (d : Dir) (h : Half) :
    (s.setHalf c d h).params = s.params := by simp [State.params]

@[simp] theorem State.params_setLoop (s : State) (c : Nat) (l : Loop) :
    (s.setLoop c l).params = s.params := by simp [State.params]

@[simp] theorem State.params_setChan (s : State) (c : Nat) (ch : Channel) :
    (s.setChan c ch).params = s.params := by simp [State.params]

@[simp] theorem State.params_emit (s : State) (o : Out) : (s.emit o).params = s.params := rfl

@[simp] theorem State.params_submit (s : State) (u : Word) : (s.submit u).params = s.params := rfl

@[simp] theorem State.params_setUnit (s : State) (x : TransferUnit) :
    (s.setUnit x).params = s.params := rfl

@[simp] theorem State.params_startLoop (s : State) (c : Nat) (d : Dir) :
    (s.startLoop c d).params = s.params := by simp [State.startLoop_eq]

@[simp] theorem State.params_rollBackLoop (s : State) (c : Nat) (d : Dir) :
    (s.rollBackLoop c d).params = s.params := by
  cases d <;> simp [State.rollBackLoop]

@[simp] theorem State.params_requestStop (s : State) (c : Nat) (d : Dir) :
    (s.requestStop c d).params = s.params := by simp [State.requestStop_eq]

@[simp] theorem State.params_clearStop (s : State) (c : Nat) (d : Dir) :
    (s.clearStop c d).params = s.params := by simp [State.clearStop_eq]

@[simp] theorem State.params_stopBound (s : State) (c : Nat) (d : Dir) :
    (s.stopBound c d).params = s.params := by
  unfold State.stopBound
  split <;> rfl

@[simp] theorem State.params_startBound (s : State) (c : Nat) (d : Dir) :
    (s.startBound c d).2.params = s.params := by
  refine State.params_congr (State.chans_startBound s c d) ?_
  unfold State.startBound
  split
  · simp [State.startChannel_eq]
  · rfl

@[simp] theorem State.params_unbind (s : State) (d : Dir) (ifid : IfId) :
    (s.unbind d ifid).params = s.params := by
  unfold State.unbind
  split <;> simp

@[simp] theorem State.params_setMem (s : State) (sp : Space) (m : Memory) :
    (s.setMem sp m).params = s.params := by
  cases sp with
  | ring c d => exact State.params_setHalf _ _ _ _
  | unit u =>
    dsimp only [State.setMem]
    split <;> rfl

@[simp] theorem State.params_zeroUnit (s : State) (u : Word) (o n : Nat) :
    (s.zeroUnit u o n).params = s.params := State.params_setMem _ _ _

theorem State.params_copyFrames {s t : State} {c : Nat} {d : Dir} {u : Word} {n : Nat} {b : Bool}
    (h : s.copyFrames c d u n = .ok (t, b)) : t.params = s.params := by
  obtain ⟨_, _, _, _, ⟨_, _, _, rfl⟩ | ⟨_, _, _, rfl⟩⟩ := State.copyFrames_eq_ok h <;> simp

theorem State.params_reply {s s1 t : State} {port : Port} {r : Result} {v : Word}
    (h : s1.reply port r v = .next t) (hp : s1.params = s.params) : t.params = s.params := by
  cases h
  exact hp

/-! ## What the operations leave of the parameters -/

theorem execPrepare_params {c : Nat} {d : Dir} {s t : State} (h : execPrepare c d s = .next t) :
    t.params = s.params := by
  dsimp only [execPrepare] at h
  split at h
  · exact State.params_reply h rfl
  split at h
  · exact State.params_reply h (by simp)
  · rename_i sel _
    have e := State.params_startBound ((s.setHalf c d ((s.half c d).prepared sel)).startLoop c d) c d
    split at h <;> rename_i hb <;> rw [hb] at e <;> exact State.params_reply h (by simpa using e)

theorem execRxComplete_params {u : Word} {s t : State} (h : execRxComplete u s = .next t) :
    t.params = s.params := by
  dsimp only [execRxComplete] at h
  split at h
  · exact State.params_reply h rfl
  split at h
  · exact State.params_reply h rfl
  split at h
  · split at h
    · cases h
    · rename_i hk
      have e := State.params_copyFrames hk
      split at h <;> exact State.params_reply h e
  · exact State.params_reply h rfl

theorem convertOp_params {sel : Codec} {dst src : MemRef} {n : Nat} {s t : State}
    (h : s.convertOp sel dst src n = .next t) : t.params = s.params := by
  obtain ⟨-, ⟨-, rfl⟩ | hr | ⟨_, _, _, -, -, -, -, -, rfl⟩⟩ := State.convertOp_eq_next h
  · rfl
  · exact State.params_reply hr rfl
  · exact State.params_setMem _ _ _

theorem execSlWait_params {c : Nat} {s t : State} (h : execSlWait c s = .next t) :
    t.params = s.params := by
  dsimp only [execSlWait] at h
  split at h
  · cases h; rfl
  split at h
  · cases h; simp
  split at h
  · split at h
    · cases h; rfl
    · rename_i ha
      obtain ⟨-, rfl⟩ := State.acquire_eq_some ha
      cases h
      exact State.params_setLoop _ _ _
  · cases h; rfl

theorem execSlFill_params {c : Nat} {s t : State} (h : execSlFill c s = .next t) :
    t.params = s.params := by
  dsimp only [execSlFill] at h
  split at h
  · cases h; rfl
  split at h
  · cases h
  split at h
  · split at h
    · cases h
    · rename_i hk
      have e := State.params_copyFrames hk
      cases h
      simpa using e
  · cases h; simp

/-- No instruction creates or destroys a Channel or writes a parameter (rules R5, R36). -/
theorem exec_params {i : Instr} {s t : State} (h : exec i s = .next t) : t.params = s.params := by
  cases i with
  | openHalf c d =>
    simp only [exec, execOpen] at h
    repeat' split at h
    all_goals exact State.params_reply h (by simp)
  | hwParams c d fmt rf pf rh =>
    simp only [exec, execHwParams] at h
    repeat' split at h
    all_goals exact State.params_reply h (by simp)
  | hwFree c d =>
    simp only [exec, execHwFree] at h
    split at h
    all_goals exact State.params_reply h (by simp)
  | prepare c d => exact execPrepare_params h
  | triggerStart c d =>
    simp only [exec, execTriggerStart] at h
    repeat' split at h
    all_goals exact State.params_reply h (by simp)
  | triggerStop c d =>
    simp only [exec, execTriggerStop] at h
    split at h
    all_goals exact State.params_reply h (by simp)
  | closeHalf c d =>
    simp only [exec, execClose] at h
    split at h
    · exact State.params_reply h rfl
    · cases h; simp
  | pointer | rdreg | rdPpx | rdBufsz => exact State.params_reply h rfl
  | wrPpx c v => exact State.params_reply h (by simp)
  | wrBufsz c v => exact State.params_reply h (by simp)
  | connect ifid cfg args =>
    simp only [exec, execConnect] at h
    repeat' split at h
    all_goals exact State.params_reply h (by simp)
  | disconnect ifid => exact State.params_reply h (by simp)
  | rxComplete u => exact execRxComplete_params h
  | txSlotFree ifid =>
    simp only [exec, execTxSlotFree] at h
    split at h
    all_goals exact State.params_reply h rfl
  | copyFrames c d u n =>
    simp only [exec, execCopyFrames] at h
    split at h
    · cases h
    · rename_i hk
      have e := State.params_copyFrames hk
      cases h
      exact e
  | cvtCopy | cvtSwap16 | cvtSwap24 | cvtSwap32 => exact convertOp_params h
  | slWait c => exact execSlWait_params h
  | slFill c => exact execSlFill_params h
  | slSubmit c =>
    simp only [exec, execSlSubmit] at h
    split at h <;> cases h
    · rfl
    · simp
  | slNotify c =>
    simp only [exec, execSlNotify] at h
    split at h <;> cases h
    · rfl
    · rw [State.params_setLoop]
      split <;> rfl
  | clFinish c d =>
    simp only [exec, execClFinish] at h
    split at h <;> cases h
    · rfl
    · simp

/-! ## The environment and the step -/

/-- The environment creates no Channel, writes no parameter and sends nothing for the core (R50). -/
theorem execEnv_params_out {a : EnvAct} {s t : State} (h : execEnv a s = .next t) :
    t.params = s.params ∧ t.out = s.out := by
  cases a with
  | ringWrite c d o bs => cases h; exact ⟨State.params_setHalf _ _ _ _, rfl⟩
  | unitWrite u o bs len =>
    dsimp only [execEnv] at h
    split at h <;> cases h <;> exact ⟨rfl, rfl⟩
  | unitMake | unitDrop | poolInsert | poolRemove | startAnswer => cases h; exact ⟨rfl, rfl⟩

/-- Settles O14: an operation keeps the parameters and appends what `exec_out` says, an illegal packet
appends its answer, and the environment appends nothing. -/
theorem stepKeepsChannelsAndHistory : Obligations.StepKeepsChannelsAndHistory := by
  intro s t h
  suffices hs : t.params = s.params ∧ ∃ l, t.out = s.out ++ l by
    obtain ⟨hp, hl⟩ := hs
    exact ⟨congrArg Prod.fst hp, congrArg Prod.snd hp, hl⟩
  obtain ⟨l, rfl | ⟨port, rfl⟩ | ⟨a, ha⟩ | ⟨i, hi⟩⟩ := step_cases h
  · exact ⟨rfl, [], (List.append_nil _).symm⟩
  · exact ⟨rfl, _, rfl⟩
  · obtain ⟨hp, ho⟩ := execEnv_params_out ha
    exact ⟨hp, [], ho.trans (List.append_nil _).symm⟩
  · obtain ⟨l', ho, -⟩ := exec_out hi
    exact ⟨(exec_params hi).trans rfl, l', ho⟩

end Sys2Proof.Machine
end

section
/-! PROOFS. Who moves `BUFPOS` and `PERPOS` (rules R20, R21, R54). -/

namespace Sys2Proof.Machine

/-- What instruction `i` may make of the positions of half `(c, d)`, which becomes the last argument: it
keeps them, or it is one of their writers under that writer's guards. -/
inductive PositionStep (s : State) (c : Nat) : Instr → Dir → Half → Prop where
  | kept {i : Instr} {d : Dir} {h' : Half} (hb : h'.bufPos = (s.half c d).bufPos)
    (hp : h'.perPos = (s.half c d).perPos) : PositionStep s c i d h'
  | zeroed {d : Dir} {h' : Half} (hb : h'.bufPos = 0) (hp : h'.perPos = 0) :
    PositionStep s c (.prepare c d) d h'
  | fill {h' : Half} (hr : (s.half c .tx).running = true) (hp : (s.loop c).phase = .fill) :
    PositionStep s c (.slFill c) .tx h'
  | capture {u : Word} {x : TransferUnit} {h' : Half} (hx : s.unitOf u = some x)
    (hr : (s.half c .rx).running = true) (hb : s.BoundTo .rx x.ifid c) :
    PositionStep s c (.rxComplete u) .rx h'
  | copy {d : Dir} {u n : Word} {h' : Half} : PositionStep s c (.copyFrames c d u n) d h'

namespace PositionStep

variable {s : State} {c : Nat} {i : Instr} {d : Dir}

/-- Setting one half of a Channel leaves the positions of the other. -/
theorem setHalf {e : Dir} {h : Half} (hs : PositionStep s c i e h) :
    PositionStep s c i d (((s.chan c).setHalf e h).half d) := by
  rw [Channel.half_setHalf]
  split
  · rename_i he
    exact he ▸ hs
  · exact .kept rfl rfl

/-- Setting the loop leaves both halves. -/
theorem setLoop {ch : Channel} {l : Loop} (hs : PositionStep s c i d (ch.half d)) :
    PositionStep s c i d ((ch.setLoop l).half d) := by
  rwa [Channel.half_setLoop]

/-- One direction of `DISCONNECT`: clearing a binding keeps the positions (rule R132). -/
theorem disconnect {P : Prop} {h : Half} (hh : h = s.half c d ∨ (P ∧ h = (s.half c d).unbound)) :
    PositionStep s c i d h := by
  rcases hh with rfl | ⟨-, rfl⟩ <;> exact .kept rfl rfl

end PositionStep

/-- Every change of a Channel moves the positions of a half only as a writer of them may. -/
theorem ChanStep.positionStep {s : State} {c : Nat} {i : Instr} {ch : Channel}
    (h : ChanStep s c i ch) (d : Dir) : PositionStep s c i d (ch.half d) := by
  cases h with
  | same | wrPpx | wrBufsz => cases d <;> exact .kept rfl rfl
  | opened | hwParams | hwFree | prepareUnsupported | triggerStart | triggerStop | connect | convert =>
    exact .setHalf (.kept rfl rfl)
  | close | finish => exact .setLoop (.setHalf (.kept rfl rfl))
  | waitStop | waitAcquire | silence | submit | notify => exact .setLoop (.kept rfl rfl)
  | prepareFailed | prepared => exact .setLoop (.setHalf (.zeroed rfl rfl))
  | disconnect ifid rx tx hr ht =>
    cases d with
    | rx => exact .disconnect hr
    | tx => exact .disconnect ht
  | capture u x m hx hb hr => exact .setHalf (.capture hx hr hb)
  | copyRx | copyTx => exact .setHalf .copy
  | fill x hp hx hr hc => exact .setLoop (.setHalf (.fill hr hp))

/-- Settles O56: whatever `ChanStep` makes of a half, its positions move only as `PositionStep` says. -/
theorem positionsHaveOneMutator : Obligations.PositionsHaveOneMutator := by
  intro i s t c d h
  have hs : PositionStep s c i d (t.half c d) := (exec_chan h c).positionStep d
  cases hs with
  | kept hb hp => exact .inl ⟨hb, hp⟩
  | zeroed hb hp => exact .inr (.inl ⟨rfl, hb, hp⟩)
  | fill hr hp => exact .inr (.inr (.inl ⟨rfl, rfl, hr, hp⟩))
  | capture hx hr hb =>
    obtain ⟨-, hbound, hbind⟩ := hb
    exact .inr (.inr (.inr (.inl ⟨rfl, hr, hbound, _, _, rfl, hx, hbind⟩)))
  | copy => exact .inr (.inr (.inr (.inr ⟨_, _, rfl⟩)))

end Sys2Proof.Machine
end

section
/-! PROOFS. What the core does with no input left (rules R57, R68, R187; the order is log entry 10). -/

namespace Sys2Proof.Machine

/-! ## What is enabled -/

/-- A loop without a phase has no step (rule R120). -/
theorem State.phase_ne_idle_of_loopEnabled {s : State} {c : Nat} (h : s.loopEnabled c = true) :
    (s.loop c).phase ≠ .idle := by
  intro hp
  simp [loopEnabled, hp] at h

/-- What is selected in a Channel is enabled there, and is selected by its own register. -/
theorem State.enabledOf_eq_some {s : State} {c : Nat} {x : Code} (h : s.enabledOf c = some x) :
    (s.loopEnabled c = true ∧ x = .lphase c (s.loop c).phase.toWord) ∨
    ∃ d, s.finishEnabled c d = true ∧ x = .lstate c d (s.half c d).lstate.toWord := by
  unfold enabledOf at h
  split at h
  · rename_i hl
    exact .inl ⟨hl, (Option.some.inj h).symm⟩
  split at h
  · rename_i hf
    exact .inr ⟨.rx, hf, (Option.some.inj h).symm⟩
  split at h
  · rename_i hf
    exact .inr ⟨.tx, hf, (Option.some.inj h).symm⟩
  · cases h

/-- Nothing is selected in a Channel only when nothing is enabled there. -/
theorem State.enabledOf_eq_none {s : State} {c : Nat} (h : s.enabledOf c = none) :
    s.loopEnabled c = false ∧ ∀ d, s.finishEnabled c d = false := by
  unfold enabledOf at h
  split at h
  · cases h
  split at h
  · cases h
  split at h
  · cases h
  · rename_i hl hr ht
    refine ⟨eq_false_of_ne_true hl, fun d => ?_⟩
    cases d with
    | rx => exact eq_false_of_ne_true hr
    | tx => exact eq_false_of_ne_true ht

/-- The first enabled step is one of an existing Channel. -/
theorem State.firstEnabled_eq_some {s : State} {x : Code} (h : s.firstEnabled = some x) :
    ∃ c, c < s.nCh ∧ s.enabledOf c = some x := by
  obtain ⟨c, hc, hx⟩ := List.exists_of_findSome?_eq_some h
  exact ⟨c, List.mem_range.mp hc, hx⟩

/-- There is no first enabled step only when no existing Channel has one. -/
theorem State.firstEnabled_eq_none {s : State} (h : s.firstEnabled = none) {c : Nat}
    (hc : c < s.nCh) : s.enabledOf c = none :=
  List.findSome?_eq_none_iff.mp h c (List.mem_range.mpr hc)

/-! ## What a selector register selects -/

/-- `i` is the step of the Supply Loop of Channel `c` at phase `p` (rule R68). -/
def LPhase.Selects (p : LPhase) (c : Nat) (i : Instr) : Prop :=
  match p with
  | .idle => False
  | .wait => i = .slWait c
  | .fill => i = .slFill c
  | .submit => i = .slSubmit c
  | .notify => i = .slNotify c

/-- The phase register of an existing Channel decodes to the step of the phase. -/
theorem decode_lphase {nCh c : Nat} (hc : c < nCh) {p : LPhase} (hp : p ≠ .idle) :
    ∃ i, decode nCh (.lphase c p.toWord) = .ok i ∧ p.Selects c i := by
  simp only [decode, if_pos hc]
  cases p with
  | idle => exact absurd rfl hp
  | wait | fill | submit | notify => exact ⟨_, rfl, rfl⟩

/-- The state register of a `CLOSING` half decodes to the close completion. -/
theorem decode_lstate_closing {nCh c : Nat} (hc : c < nCh) (d : Dir) :
    decode nCh (.lstate c d LState.closing.toWord) = .ok (.clFinish c d) := by
  simp only [decode, if_pos hc]
  rfl

/-! ## The step without input -/

/-- With no input left the first enabled step is fetched. -/
theorem fetch_firstEnabled {s : State} (hs : s.agenda = []) {x : Code}
    (hx : s.firstEnabled = some x) : fetch s = .code x s := by
  simp only [fetch, hs, hx]

/-- With no input left and nothing enabled the core is idle. -/
theorem step_of_firstEnabled_none {s : State} (hs : s.agenda = []) (hx : s.firstEnabled = none) :
    step s = .next s := by
  simp only [step, fetch, hs, hx]

/-- Settles O8: the first enabled step, where there is one, is fetched as the value of its selector
register, which decodes to it. -/
theorem coreRunsOnWithoutInput : Obligations.CoreRunsOnWithoutInput := by
  intro s hs
  cases hx : s.firstEnabled with
  | none =>
    exact .inr ⟨fun c hc => State.enabledOf_eq_none (State.firstEnabled_eq_none hx hc),
      step_of_firstEnabled_none hs hx⟩
  | some x =>
    have hf := fetch_firstEnabled hs hx
    obtain ⟨c, hc, he⟩ := State.firstEnabled_eq_some hx
    rcases State.enabledOf_eq_some he with ⟨hl, rfl⟩ | ⟨d, hd, rfl⟩
    · obtain ⟨i, hi, hsel⟩ := decode_lphase hc (State.phase_ne_idle_of_loopEnabled hl)
      exact .inl ⟨i, step_eq_exec hf hi, .inl ⟨c, hc, hl, hsel⟩⟩
    · obtain ⟨hcl, -⟩ := State.finishEnabled_iff.1 hd
      rw [hcl] at hf
      exact .inl ⟨_, step_eq_exec hf (decode_lstate_closing hc d), .inr ⟨c, d, hc, hd, hcl, rfl⟩⟩

end Sys2Proof.Machine
end

section
/-! PROOFS. Encoding and decoding of packets (rules R60 to R72): what the checks on a header accept, what each
shape of operands decodes to, and so that decoding and encoding undo each other. -/

namespace Sys2Proof

/-! ## The checks on a header -/

/-- What a header word `h` of a packet on `port` passes before its operand words are read as those of
`op` (rule R71). -/
structure HeaderAccepted (nCh : Nat) (port : Port) (h : Word) (refs : Option CvtRefs) (op : Op) :
    Prop where
  opcode : Op.ofCode (headerOp h) = some op
  on_port : op.port = port
  fixed_bits : h &&& op.mask = op.mat
  channel : (headerCh h).toNat < nCh
  cvt_refs : refs.isSome = op.isCvt

/-- A packet is accepted exactly when its header is, for some opcode, and its operands are that
opcode's. -/
theorem decodePacket_eq_ok_iff {nCh : Nat} {port : Port} {h : Word} {ps : List Word}
    {refs : Option CvtRefs} {i : Instr} :
    decodePacket nCh port ⟨h :: ps, refs⟩ = .ok i ↔
      ∃ op, HeaderAccepted nCh port h refs op ∧ decodeOperands op h ps refs = .ok i := by
  constructor
  · intro hd
    simp only [decodePacket] at hd
    split at hd
    · cases hd
    rename_i op hop
    split at hd
    · cases hd
    rename_i hport
    split at hd
    · cases hd
    rename_i hmask
    split at hd
    · cases hd
    rename_i hch
    split at hd
    · cases hd
    rename_i hrefs
    exact ⟨op, ⟨hop, Decidable.not_not.1 hport, Decidable.not_not.1 hmask, Nat.lt_of_not_le hch,
      Decidable.not_not.1 hrefs⟩, hd⟩
  · rintro ⟨op, ⟨hop, hport, hmask, hch, hrefs⟩, hd⟩
    simp only [decodePacket, hop, hport, hmask, hrefs, Nat.not_le.2 hch, ne_eq, not_true_eq_false,
      if_false, hd]

/-- A packet without a header word is rejected. -/
theorem decodePacket_nil_ne_ok (nCh : Nat) (port : Port) (refs : Option CvtRefs) (i : Instr) :
    decodePacket nCh port ⟨[], refs⟩ ≠ .ok i := nofun

/-- The opcode of an accepted header is its field `op`. -/
theorem HeaderAccepted.code_eq {nCh : Nat} {port : Port} {h : Word} {refs : Option CvtRefs} {op : Op}
    (ha : HeaderAccepted nCh port h refs op) : op.code = headerOp h :=
  Op.code_of_ofCode ha.opcode

/-- The header of an existing Channel is accepted, where the fields its opcode does not use are 0. -/
theorem headerAccepted_header {nCh c : Nat} {op : Op} {d : Dir} {idx : BitVec 8}
    {refs : Option CvtRefs} (hc : c < nCh)
    (hch : op.usesCh = false → c = 0) (hdir : op.usesDir = false → d = .rx)
    (hidx : op.usesIdx = false → idx = 0) (hrefs : refs.isSome = op.isCvt) :
    HeaderAccepted nCh op.port (header op c d idx) refs op where
  opcode := by rw [headerOp_header, Op.ofCode_code]
  on_port := rfl
  fixed_bits := header_and_mask op c d idx hch hdir hidx
  channel := by
    rw [headerCh_header, BitVec.toNat_ofNat]
    exact Nat.lt_of_le_of_lt (Nat.mod_le _ _) hc
  cvt_refs := hrefs

/-- The field `ch` of a header is the Channel it was made of. -/
theorem headerCh_header_toNat {nCh c : Nat} (op : Op) (d : Dir) (idx : BitVec 8)
    (hn : validNCh nCh) (hc : c < nCh) : (headerCh (header op c d idx)).toNat = c := by
  rw [headerCh_header, BitVec.toNat_ofNat]
  exact Nat.mod_eq_of_lt (Nat.lt_of_lt_of_le hc hn.2)

/-! ## Decoding an encoding (rules R61 to R67) -/

section
variable {nCh c : Nat} {op : Op} {d : Dir} {ps : List Word} {i : Instr}

/-- The packet of an opcode decodes to what the opcode reads from any header with these fields. -/
theorem decode_packetOf {idx : BitVec 8} (hn : validNCh nCh) (hc : c < nCh)
    (hch : op.usesCh = false → c = 0) (hdir : op.usesDir = false → d = .rx)
    (hidx : op.usesIdx = false → idx = 0) (hcvt : op.isCvt = false)
    (hi : ∀ h, (headerCh h).toNat = c → headerDir h = d → headerIdx h = idx →
      decodeOperands op h ps none = .ok i) :
    decode nCh (packetOf op c d idx ps) = .ok i :=
  decodePacket_eq_ok_iff.2 ⟨op, headerAccepted_header hc hch hdir hidx hcvt.symm,
    hi _ (headerCh_header_toNat op d idx hn hc) (headerDir_header ..) (headerIdx_header ..)⟩

/-- The packet of an opcode that addresses a half. -/
theorem decode_halfPacket (hn : validNCh nCh) (hc : c < nCh) (hch : op.usesCh = true)
    (hdir : op.usesDir = true) (hcvt : op.isCvt = false)
    (hi : ∀ h, (headerCh h).toNat = c → headerDir h = d → decodeOperands op h ps none = .ok i) :
    decode nCh (packetOf op c d 0 ps) = .ok i :=
  decode_packetOf hn hc (by simp [hch]) (by simp [hdir]) (fun _ => rfl) hcvt
    fun h hc hd _ => hi h hc hd

/-- The packet of an opcode that addresses a Channel. -/
theorem decode_channelPacket (hn : validNCh nCh) (hc : c < nCh) (hch : op.usesCh = true)
    (hcvt : op.isCvt = false)
    (hi : ∀ h, (headerCh h).toNat = c → decodeOperands op h ps none = .ok i) :
    decode nCh (packetOf op c .rx 0 ps) = .ok i :=
  decode_packetOf hn hc (by simp [hch]) (fun _ => rfl) (fun _ => rfl) hcvt fun h hc _ _ => hi h hc

/-- The packet of an opcode whose header has no fields. -/
theorem decode_plainPacket (hn : validNCh nCh) (hcvt : op.isCvt = false)
    (hi : ∀ h, decodeOperands op h ps none = .ok i) :
    decode nCh (packetOf op 0 .rx 0 ps) = .ok i :=
  decode_packetOf hn hn.1 (fun _ => rfl) (fun _ => rfl) (fun _ => rfl) hcvt fun h _ _ _ => hi h

/-- The packet of a codec micro-operation (rule R67). -/
theorem decode_cvtPacket {dst src : MemRef} {n : Nat} (hn : validNCh nCh) (hcvt : op.isCvt = true)
    (hi : ∀ h, decodeOperands op h [] (some ⟨dst, src, n⟩) = .ok i) :
    decode nCh (cvtPacket op dst src n) = .ok i :=
  decodePacket_eq_ok_iff.2 ⟨op,
    headerAccepted_header hn.1 (fun _ => rfl) (fun _ => rfl) (fun _ => rfl) hcvt.symm, hi _⟩

end

/-! ## The operand words of `CONNECT` (rule R66) -/

/-- The direction that `P[1]` of `CONNECT` names. -/
def connectDir (w : Word) : Dir := if w.getLsbD 0 then .tx else .rx

theorem connectDir_bit (d : Dir) : connectDir (d.bit.setWidth 32) = d := by cases d <;> rfl

theorem extract_bit (d : Dir) : (d.bit.setWidth 32).extractLsb' 1 31 = 0 := by cases d <;> rfl

/-- `P[1]` is its bit 0 where the other bits are 0. -/
theorem bit_connectDir {w : Word} (h : w.extractLsb' 1 31 = 0) :
    (connectDir w).bit.setWidth 32 = w := by
  refine BitVec.eq_of_getLsbD_eq fun i hi => ?_
  cases i with
  | zero =>
    unfold connectDir
    cases hb : w.getLsbD 0 <;> simp [Dir.bit]
  | succ k =>
    have hk := congrArg (fun v => v.getLsbD k) h
    simpa [show k < 31 by omega, Nat.add_comm 1 k] using hk

/-- A word is below 256 exactly when its upper bits are 0. -/
theorem extract_high_eq_zero_iff (w : Word) : w.extractLsb' 8 24 = 0 ↔ w.toNat < 256 := by
  have hw := w.isLt
  rw [← BitVec.toNat_inj, BitVec.extractLsb'_toNat, Nat.shiftRight_eq_div_pow]
  change w.toNat / 256 % 2 ^ 24 = 0 ↔ _
  omega

/-- The operand words of `CONNECT` are accepted exactly when the must-be-zero bits are 0, the words of the
argument string are as many as its length says, and its padding is 0 (rules R66, R71). -/
theorem decodeConnect_eq_ok_iff {p0 p1 p2 p3 p4 : Word} {ws : List Word} {i : Instr} :
    decodeConnect p0 p1 p2 p3 p4 ws = .ok i ↔
      p1.extractLsb' 1 31 = 0 ∧ p4.extractLsb' 8 24 = 0 ∧ ws.length = (p4.toNat + 3) / 4 ∧
      (∀ b ∈ (unpackArgs ws).drop p4.toNat, b = 0) ∧
      i = .connect (IfId.ofWord p0) ⟨connectDir p1, p2, ChBounds.ofWord p3⟩
        ((unpackArgs ws).take p4.toNat) := by
  unfold decodeConnect
  split
  · rename_i hbits
    refine ⟨nofun, fun ⟨h1, h4, _⟩ => ?_⟩
    exact hbits.elim (absurd h1) (absurd h4)
  rename_i hbits
  split
  · rename_i hlen
    exact ⟨nofun, fun ⟨_, _, h, _⟩ => absurd h hlen⟩
  rename_i hlen
  have hz : ((unpackArgs ws).drop p4.toNat).any (fun b => b != 0) = true ↔
      ¬ ∀ b ∈ (unpackArgs ws).drop p4.toNat, b = 0 := by simp
  split
  · rename_i hpad
    exact ⟨nofun, fun ⟨_, _, _, h, _⟩ => absurd h (hz.1 hpad)⟩
  · rename_i hpad
    rw [not_or, Decidable.not_not, Decidable.not_not] at hbits
    refine ⟨fun h => ?_, fun ⟨_, _, _, _, h⟩ => h ▸ rfl⟩
    exact ⟨hbits.1, hbits.2, Decidable.not_not.1 hlen, Decidable.not_not.1 (mt hz.2 hpad),
      (Except.ok.inj h).symm⟩

/-- The operand words of an encoded `CONNECT` decode to it. -/
theorem decodeConnect_encode (ifid : IfId) (cfg : BusCfg) {args : List Byte}
    (hl : args.length ≤ 255) :
    decodeConnect ifid.toWord (cfg.dir.bit.setWidth 32) cfg.rate cfg.ch.toWord
      (BitVec.ofNat 32 args.length) (packArgs args) = .ok (.connect ifid cfg args) := by
  have hlen : (BitVec.ofNat 32 args.length).toNat = args.length := by
    rw [BitVec.toNat_ofNat]; omega
  obtain ⟨pad, hun, hz, hws⟩ := unpackArgs_packArgs args
  refine decodeConnect_eq_ok_iff.2 ⟨extract_bit _, ?_, ?_, ?_, ?_⟩
  · rw [extract_high_eq_zero_iff, hlen]; omega
  · rw [hlen, hws]
  · rwa [hlen, hun, List.drop_left]
  · rw [hlen, hun, List.take_left, IfId.ofWord_toWord, ChBounds.ofWord_toWord, connectDir_bit]

/-- Settles O1: each constructor's coded form has its row's header, whose fields are the operands, and
operand words that the field laws read back. -/
theorem decodeInvertsEncode : Obligations.DecodeInvertsEncode := by
  intro nCh i hn hw
  cases i with
  | openHalf c d | hwFree c d | prepare c d | triggerStart c d | triggerStop c d | closeHalf c d
  | pointer c d | copyFrames c d =>
    exact decode_halfPacket hn (of_decide_eq_true hw) rfl rfl rfl (by rintro h rfl rfl; rfl)
  | hwParams c d fmt =>
    obtain ⟨hfmt, hzero⟩ := Fmt.ofWord_toWord fmt
    refine decode_halfPacket hn (of_decide_eq_true hw) rfl rfl rfl ?_
    rintro h rfl rfl
    simp [decodeOperands, hfmt, hzero]
  | rdreg c d r =>
    refine decode_packetOf hn (of_decide_eq_true hw) nofun nofun nofun rfl ?_
    rintro h rfl rfl hidx
    simp [decodeOperands, hidx, Reg.ofIdx_idx, noOperand]
  | rdPpx c | wrPpx c | rdBufsz c | wrBufsz c =>
    exact decode_channelPacket hn (of_decide_eq_true hw) rfl rfl (by rintro h rfl; rfl)
  | connect ifid cfg args =>
    exact decode_plainPacket hn rfl fun _ => decodeConnect_encode ifid cfg (of_decide_eq_true hw)
  | disconnect ifid | txSlotFree ifid =>
    refine decode_plainPacket hn rfl fun _ => ?_
    simp [decodeOperands, oneOperand, IfId.ofWord_toWord]
  | rxComplete u => exact decode_plainPacket hn rfl fun _ => rfl
  | cvtCopy | cvtSwap16 | cvtSwap24 | cvtSwap32 => exact decode_cvtPacket hn rfl fun _ => rfl
  | slWait c | slFill c | slSubmit c | slNotify c | clFinish c =>
    exact if_pos (of_decide_eq_true hw)

end Sys2Proof
end

section
/-! PROOFS. What an accepted packet is: operands of its opcode's shape, so that encoding gives the packet
back, and none of the illegal packets of rule R71. -/

namespace Sys2Proof

/-! ## What each shape of operands accepts (rule R72) -/

section
variable {h : Word} {ps : List Word} {refs : Option CvtRefs} {i : Instr}

theorem noOperand_eq_ok {j : Instr} (hd : noOperand j ps = .ok i) : ps = [] ∧ i = j := by
  cases ps with
  | nil => exact ⟨rfl, (Except.ok.inj hd).symm⟩
  | cons => cases hd

theorem oneOperand_eq_ok {mk : Word → Instr} (hd : oneOperand mk ps = .ok i) :
    ∃ p0, ps = [p0] ∧ i = mk p0 := by
  match ps, hd with
  | [p0], hd => exact ⟨p0, rfl, (Except.ok.inj hd).symm⟩

/-- A codec micro-operation has no operand word, and its operands beside the header. -/
theorem cvtOperands_eq_ok {mk : MemRef → MemRef → Nat → Instr}
    (hd : (if ps = [] then decodeCvt mk refs else .error .packetLength) = .ok i) :
    ps = [] ∧ ∃ r, refs = some r ∧ i = mk r.dst r.src r.n := by
  split at hd
  · rename_i hps
    cases refs with
    | none => cases hd
    | some r => exact ⟨hps, r, rfl, (Except.ok.inj hd).symm⟩
  · cases hd

theorem decodeOperands_hwParams_eq_ok (hd : decodeOperands .hwParams h ps refs = .ok i) :
    ∃ p0 p1 p2 p3, ps = [p0, p1, p2, p3] ∧ p0.extractLsb' 25 7 = 0 ∧
      i = .hwParams (headerCh h).toNat (headerDir h) (Fmt.ofWord p0) p1 p2 p3 := by
  simp only [decodeOperands] at hd
  split at hd
  · split at hd
    · cases hd
    · rename_i hz
      exact ⟨_, _, _, _, rfl, Decidable.not_not.1 hz, (Except.ok.inj hd).symm⟩
  · cases hd

theorem decodeOperands_rdreg_eq_ok (hd : decodeOperands .rdreg h ps refs = .ok i) :
    ∃ r, headerIdx h = r.idx ∧ ps = [] ∧ i = .rdreg (headerCh h).toNat (headerDir h) r := by
  simp only [decodeOperands] at hd
  split at hd
  · rename_i r hr
    exact ⟨r, (Reg.idx_of_ofIdx hr).symm, noOperand_eq_ok hd⟩
  · cases hd

theorem decodeOperands_connect_eq_ok (hd : decodeOperands .connect h ps refs = .ok i) :
    ∃ p0 p1 p2 p3 p4 ws, ps = p0 :: p1 :: p2 :: p3 :: p4 :: ws ∧
      decodeConnect p0 p1 p2 p3 p4 ws = .ok i := by
  simp only [decodeOperands] at hd
  split at hd
  · exact ⟨_, _, _, _, _, _, rfl, hd⟩
  · cases hd

theorem decodeOperands_copyFrames_eq_ok (hd : decodeOperands .copyFrames h ps refs = .ok i) :
    ∃ u n, ps = [u, n] ∧ i = .copyFrames (headerCh h).toNat (headerDir h) u n := by
  simp only [decodeOperands] at hd
  split at hd
  · exact ⟨_, _, rfl, (Except.ok.inj hd).symm⟩
  · cases hd

end

/-! ## Encoding what a packet decodes to (rules R61 to R67) -/

namespace HeaderAccepted

variable {nCh : Nat} {port : Port} {h : Word} {refs : Option CvtRefs} {op : Op}

/-- An accepted header is the header of its fields. -/
theorem eq_header (ha : HeaderAccepted nCh port h refs op) :
    header op (headerCh h).toNat (headerDir h) (headerIdx h) = h :=
  (header_of_mask ha.fixed_bits).1.symm

/-- A packet with an accepted header is the packet of its opcode and its fields. -/
theorem packetOf_fields (ha : HeaderAccepted nCh port h refs op) (hcvt : op.isCvt = false)
    (ps : List Word) :
    packetOf op (headerCh h).toNat (headerDir h) (headerIdx h) ps = .packet port ⟨h :: ps, refs⟩ := by
  have hrefs : refs = none := Option.not_isSome_iff_eq_none.1 (by simp [ha.cvt_refs, hcvt])
  rw [packetOf, ha.eq_header, ha.on_port, hrefs]

/-- The packet of an opcode that addresses a half. -/
theorem packetOf_half (ha : HeaderAccepted nCh port h refs op) (hcvt : op.isCvt = false)
    (hidx : op.usesIdx = false) (ps : List Word) :
    packetOf op (headerCh h).toNat (headerDir h) 0 ps = .packet port ⟨h :: ps, refs⟩ := by
  obtain ⟨-, -, -, hi⟩ := header_of_mask ha.fixed_bits
  rw [← ha.packetOf_fields hcvt, hi hidx]

/-- The packet of an opcode that addresses a Channel. -/
theorem packetOf_channel (ha : HeaderAccepted nCh port h refs op) (hcvt : op.isCvt = false)
    (hidx : op.usesIdx = false) (hdir : op.usesDir = false) (ps : List Word) :
    packetOf op (headerCh h).toNat .rx 0 ps = .packet port ⟨h :: ps, refs⟩ := by
  obtain ⟨-, -, hd, -⟩ := header_of_mask ha.fixed_bits
  rw [← ha.packetOf_half hcvt hidx, hd hdir]

/-- The packet of an opcode whose header has no fields. -/
theorem packetOf_plain (ha : HeaderAccepted nCh port h refs op) (hcvt : op.isCvt = false)
    (hidx : op.usesIdx = false) (hdir : op.usesDir = false) (hch : op.usesCh = false)
    (ps : List Word) : packetOf op 0 .rx 0 ps = .packet port ⟨h :: ps, refs⟩ := by
  obtain ⟨-, hc, -, -⟩ := header_of_mask ha.fixed_bits
  rw [← ha.packetOf_channel hcvt hidx hdir, hc hch]
  rfl

/-- The packet of a codec micro-operation. -/
theorem cvtPacket_eq {r : CvtRefs} (ha : HeaderAccepted nCh port h (some r) op)
    (hidx : op.usesIdx = false) (hdir : op.usesDir = false) (hch : op.usesCh = false) :
    cvtPacket op r.dst r.src r.n = .packet port ⟨[h], some r⟩ := by
  obtain ⟨hh, hc, hd, hi⟩ := header_of_mask ha.fixed_bits
  rw [hi hidx, hd hdir, hc hch] at hh
  rw [cvtPacket, ha.on_port, hh]
  rfl

end HeaderAccepted

/-- The operand words of an accepted `CONNECT` are those of the operation they decode to (rule R66). -/
theorem encode_of_decodeConnect {p0 p1 p2 p3 p4 : Word} {ws : List Word} {i : Instr}
    (hd : decodeConnect p0 p1 p2 p3 p4 ws = .ok i) :
    encode i = packetOf .connect 0 .rx 0 (p0 :: p1 :: p2 :: p3 :: p4 :: ws) := by
  obtain ⟨hp1, -, hlen, hpad, rfl⟩ := decodeConnect_eq_ok_iff.1 hd
  have hargs : ((unpackArgs ws).take p4.toNat).length = p4.toNat := by
    rw [List.length_take, length_unpackArgs, hlen]
    omega
  have hp4 : BitVec.ofNat 32 ((unpackArgs ws).take p4.toNat).length = p4 := by
    rw [hargs, BitVec.ofNat_toNat, BitVec.setWidth_eq]
  simp only [encode, IfId.toWord_ofWord, ChBounds.toWord_ofWord, bit_connectDir hp1, hp4,
    packArgs_unpackArgs ws _ hlen hpad]

/-- The operation that an accepted packet reads encodes to the packet. -/
theorem encode_of_decodeOperands {nCh : Nat} {port : Port} {h : Word} {ps : List Word}
    {refs : Option CvtRefs} {op : Op} {i : Instr} (ha : HeaderAccepted nCh port h refs op)
    (hd : decodeOperands op h ps refs = .ok i) : encode i = .packet port ⟨h :: ps, refs⟩ := by
  cases op with
  | openHalf | hwFree | prepare | triggerStart | triggerStop | closeHalf | pointer =>
    obtain ⟨rfl, rfl⟩ := noOperand_eq_ok hd
    exact ha.packetOf_half rfl rfl []
  | hwParams =>
    obtain ⟨p0, p1, p2, p3, rfl, hz, rfl⟩ := decodeOperands_hwParams_eq_ok hd
    rw [encode, Fmt.toWord_ofWord p0 hz]
    exact ha.packetOf_half rfl rfl _
  | rdreg =>
    obtain ⟨r, hr, rfl, rfl⟩ := decodeOperands_rdreg_eq_ok hd
    rw [encode, ← hr]
    exact ha.packetOf_fields rfl []
  | rdPpx | rdBufsz =>
    obtain ⟨rfl, rfl⟩ := noOperand_eq_ok hd
    exact ha.packetOf_channel rfl rfl rfl []
  | wrPpx | wrBufsz =>
    obtain ⟨v, rfl, rfl⟩ := oneOperand_eq_ok hd
    exact ha.packetOf_channel rfl rfl rfl [v]
  | connect =>
    obtain ⟨p0, p1, p2, p3, p4, ws, rfl, hc⟩ := decodeOperands_connect_eq_ok hd
    rw [encode_of_decodeConnect hc]
    exact ha.packetOf_plain rfl rfl rfl rfl _
  | disconnect | txSlotFree =>
    obtain ⟨p, rfl, rfl⟩ := oneOperand_eq_ok hd
    rw [encode, IfId.toWord_ofWord]
    exact ha.packetOf_plain rfl rfl rfl rfl [p]
  | rxComplete =>
    obtain ⟨u, rfl, rfl⟩ := oneOperand_eq_ok hd
    exact ha.packetOf_plain rfl rfl rfl rfl [u]
  | copyFrames =>
    obtain ⟨u, n, rfl, rfl⟩ := decodeOperands_copyFrames_eq_ok hd
    exact ha.packetOf_half rfl rfl [u, n]
  | cvtCopy | cvtSwap16 | cvtSwap24 | cvtSwap32 =>
    obtain ⟨rfl, r, rfl, rfl⟩ := cvtOperands_eq_ok hd
    exact ha.cvtPacket_eq rfl rfl rfl

/-- Settles O2: an accepted packet has an accepted header and operands of its opcode's shape, and each
shape encodes back. -/
theorem acceptedPacketsAreEncodings : Obligations.AcceptedPacketsAreEncodings := by
  rintro nCh port ⟨words, refs⟩ i hd
  cases words with
  | nil => exact absurd hd (decodePacket_nil_ne_ok nCh port refs i)
  | cons h ps =>
    obtain ⟨op, ha, hops⟩ := decodePacket_eq_ok_iff.1 hd
    exact encode_of_decodeOperands ha hops

/-- Settles O5: the decoder evaluates to the table's operation on each written-out packet. -/
theorem tableVEncPacketsDecode : Obligations.TableVEncPacketsDecode :=
  ⟨rfl, rfl, rfl, rfl, rfl, rfl, rfl, rfl, rfl, rfl, rfl, rfl, rfl, rfl, rfl, rfl, rfl, rfl,
    ⟨rfl, rfl, rfl, rfl⟩, rfl⟩

/-! ## The opcodes of a port (rules R60, R75) -/

/-- The opcodes that rule R75 gives a port. -/
def Port.HasOpcode (port : Port) (k : Nat) : Prop :=
  match port with
  | .client => (0x01 ≤ k ∧ k ≤ 0x09) ∨ (0x10 ≤ k ∧ k ≤ 0x13)
  | .bus => 0x20 ≤ k ∧ k ≤ 0x23
  | .internal => k = 0x40 ∨ (0x50 ≤ k ∧ k ≤ 0x53)

/-- Every opcode is in the range of its port. -/
theorem Op.port_hasOpcode (op : Op) : op.port.HasOpcode op.code.toNat := by
  cases op <;> simp [Op.port, Op.code, Port.HasOpcode]

/-- The ranges of two ports are disjoint. -/
theorem Port.HasOpcode.unique {p q : Port} {k : Nat} (hp : p.HasOpcode k) (hq : q.HasOpcode k) :
    p = q := by
  cases p <;> cases q <;> simp only [HasOpcode, reduceCtorEq] at hp hq ⊢ <;> omega

theorem HeaderAccepted.port_hasOpcode {nCh : Nat} {port : Port} {h : Word} {refs : Option CvtRefs}
    {op : Op} (ha : HeaderAccepted nCh port h refs op) :
    port.HasOpcode (headerOp h).toNat := by
  rw [← ha.on_port, ← ha.code_eq]
  exact op.port_hasOpcode

/-- Settles O4: an accepted header is on the port of its opcode. -/
theorem portsAcceptTheirOpcodes : Obligations.PortsAcceptTheirOpcodes := by
  intro nCh port h ps refs i hd
  obtain ⟨op, ha, -⟩ := decodePacket_eq_ok_iff.1 hd
  have hk := ha.port_hasOpcode
  cases port with
  | client | bus | internal => exact hk

/-! ## No packet of rule R71 is accepted -/

theorem Op.eq_of_code {op op' : Op} (h : op.code.toNat = op'.code.toNat) : op = op' := by
  have hc : op.code = op'.code := BitVec.eq_of_toNat_eq h
  exact Option.some.inj ((Op.ofCode_code op).symm.trans (hc ▸ Op.ofCode_code op'))

/-- Only `RDREG` uses the field `idx`. -/
theorem Op.usesIdx_eq_false {op : Op} (h : op.code.toNat ≠ 0x09) : op.usesIdx = false := by
  cases op with
  | rdreg => exact absurd rfl h
  | _ => rfl

/-- From 0x10 on only `COPY_FRAMES` uses the field `dir`. -/
theorem Op.usesDir_eq_false {op : Op} (h : 0x10 ≤ op.code.toNat) (hn : op.code.toNat ≠ 0x40) :
    op.usesDir = false := by
  revert h hn
  cases op <;> decide

/-- From 0x20 on only `COPY_FRAMES` uses the field `ch`. -/
theorem Op.usesCh_eq_false {op : Op} (h : 0x20 ≤ op.code.toNat) (hn : op.code.toNat ≠ 0x40) :
    op.usesCh = false := by
  revert h hn
  cases op <;> decide

/-- Header bits below the opcode that the mask covers are 0 in a header that matches its row. -/
theorem extract_eq_zero_of_mask {op : Op} {h : Word} (hm : h &&& op.mask = op.mat) {lo len : Nat}
    (hhi : lo + len ≤ 24) (hbits : ∀ k, lo ≤ k → k < lo + len → op.mask.getLsbD k = true) :
    h.extractLsb' lo len = 0 := by
  refine BitVec.eq_of_getLsbD_eq fun k hk => ?_
  have hz := congrArg (fun v => v.getLsbD (lo + k)) hm
  simp only [BitVec.getLsbD_and, op.mat_getLsbD, show lo + k < 24 by omega, if_true,
    hbits (lo + k) (by omega) (by omega), Bool.and_true] at hz
  rw [BitVec.getLsbD_extractLsb', hz, BitVec.ofNat_eq_ofNat, BitVec.getLsbD_zero, Bool.and_false]

/-- Byte `k` of the argument string is byte `k mod 4` of its operand word `k / 4` (rule R66). -/
theorem getElem?_unpackArgs {ws : List Word} {w : Word} {k : Nat} (hw : ws[k / 4]? = some w) :
    (unpackArgs ws)[k]? = some (w.extractLsb' (8 * (k % 4)) 8) := by
  induction ws generalizing k with
  | nil => cases hw
  | cons w' ws ih =>
    rw [unpackArgs]
    by_cases hk : k < 4
    · rw [Nat.div_eq_of_lt hk] at hw
      obtain rfl : w' = w := Option.some.inj hw
      rw [Nat.mod_eq_of_lt hk]
      have : k = 0 ∨ k = 1 ∨ k = 2 ∨ k = 3 := by omega
      rcases this with rfl | rfl | rfl | rfl <;> rfl
    · obtain ⟨m, rfl⟩ : ∃ m, k = m + 4 := ⟨k - 4, by omega⟩
      rw [Nat.add_div_right m (by decide)] at hw
      rw [Nat.add_mod_right]
      exact ih hw

/-- The opcode of an accepted header is the one whose code its field `op` holds. -/
theorem HeaderAccepted.op_eq {nCh : Nat} {port : Port} {h : Word} {refs : Option CvtRefs} {op op' : Op}
    (ha : HeaderAccepted nCh port h refs op) (hk : (headerOp h).toNat = op'.code.toNat) : op = op' :=
  Op.eq_of_code (by rw [ha.code_eq, hk])

/-- The header bits that rule R71 asks to be 0 are 0 in an accepted header. -/
theorem HeaderAccepted.zero_bits {nCh : Nat} {port : Port} {h : Word} {refs : Option CvtRefs} {op : Op}
    (ha : HeaderAccepted nCh port h refs op) :
    h.extractLsb' 8 7 = 0 ∧
    ((headerOp h).toNat ≠ 0x09 → h.extractLsb' 0 15 = 0) ∧
    ((headerOp h).toNat ≠ 0x40 →
      (0x10 ≤ (headerOp h).toNat → h.extractLsb' 0 16 = 0) ∧
      (0x20 ≤ (headerOp h).toNat → h.extractLsb' 0 24 = 0)) := by
  have hm := ha.fixed_bits
  rw [← ha.code_eq]
  refine ⟨?_, fun hk => ?_, fun hc => ⟨fun hk => ?_, fun hk => ?_⟩⟩
  · refine extract_eq_zero_of_mask hm (by omega) fun k hlo hhi => ?_
    simp [op.mask_getLsbD k (by omega), show ¬ k < 8 by omega, show k < 15 by omega]
  · refine extract_eq_zero_of_mask hm (by omega) fun k hlo hhi => ?_
    simp [op.mask_getLsbD k (by omega), op.usesIdx_eq_false hk, show k < 15 by omega]
  · refine extract_eq_zero_of_mask hm (by omega) fun k hlo hhi => ?_
    simp [op.mask_getLsbD k (by omega), op.usesIdx_eq_false (by omega),
      op.usesDir_eq_false hk hc, show k < 16 by omega]
  · refine extract_eq_zero_of_mask hm (by omega) fun k hlo hhi => ?_
    simp [op.mask_getLsbD k (by omega), op.usesIdx_eq_false (by omega),
      op.usesDir_eq_false (by omega) hc, op.usesCh_eq_false hk hc, show k < 24 by omega]

/-- The highest register index is 17 (rule R12). -/
theorem Reg.idx_le (r : Reg) : r.idx.toNat ≤ 17 := by cases r <;> decide

/-- The must-be-zero bits of an accepted `CONNECT`: `P[1]`, `P[4]` and the padding bytes. -/
theorem connect_zero_bits {h : Word} {ps : List Word} {refs : Option CvtRefs} {i : Instr}
    (hd : decodeOperands .connect h ps refs = .ok i) :
    (∀ p1, ps[1]? = some p1 → p1.extractLsb' 1 31 = 0) ∧
    ∀ p4, ps[4]? = some p4 → p4.extractLsb' 8 24 = 0 ∧
      ∀ w k, ps[5 + k / 4]? = some w → p4.toNat ≤ k → w.extractLsb' (8 * (k % 4)) 8 = 0 := by
  obtain ⟨p0, p1, p2, p3, p4, ws, rfl, hc⟩ := decodeOperands_connect_eq_ok hd
  obtain ⟨hp1, hp4, -, hpad, -⟩ := decodeConnect_eq_ok_iff.1 hc
  refine ⟨fun q hq => Option.some.inj hq ▸ hp1, fun q hq => ?_⟩
  obtain rfl : p4 = q := Option.some.inj hq
  refine ⟨hp4, fun w k hw hk => hpad _ ?_⟩
  have hws : ws[k / 4]? = some w := by
    rw [Nat.add_comm] at hw
    exact hw
  refine List.mem_of_getElem? (i := k - p4.toNat) ?_
  rw [List.getElem?_drop, Nat.add_sub_of_le hk]
  exact getElem?_unpackArgs hws

end Sys2Proof

namespace Sys2Proof.Machine

/-- A packet that decodes is none of the illegal packets of rule R71. -/
theorem not_illegalPacket_of_decode {nCh : Nat} {port : Port} {h : Word} {ps : List Word}
    {refs : Option CvtRefs} {i : Instr} (hd : decodePacket nCh port ⟨h :: ps, refs⟩ = .ok i) :
    ¬ IllegalPacket nCh port h ps := by
  obtain ⟨op, ha, hops⟩ := decodePacket_eq_ok_iff.1 hd
  have hport := ha.port_hasOpcode
  obtain ⟨hrdreg, hhalf, hwide⟩ := ha.zero_bits
  -- The lines of rule R71 in its order: opcode and port, header bits, `ch` and `idx`, operand bits.
  rintro (hres | ⟨hk, hp⟩ | ⟨hk, hp⟩ | ⟨hk, hp⟩ | ⟨hk, hb⟩ | ⟨-, hb⟩ | ⟨hlo, hhi, hb⟩ | ⟨hk, hb⟩ |
    ⟨-, hch⟩ | ⟨hk, hidx⟩ | ⟨hk, p0, hp0, hb⟩ | ⟨hk, p1, hp1, hb⟩ | ⟨hk, p4, hp4, hb⟩ |
    ⟨hk, p4, w, k, hp4, hw, hle, hb⟩)
  · cases port with
    | client => exact hres (.inl hport)
    | bus => exact hres (.inr (.inl hport))
    | internal => exact hres (.inr (.inr hport))
  · exact hp (hport.unique (q := .client) hk)
  · exact hp (hport.unique (q := .bus) hk)
  · exact hp (hport.unique (q := .internal) hk)
  · exact hb (hhalf (by unfold headerOp; omega))
  · exact hb hrdreg
  · exact hb ((hwide (by unfold headerOp; omega)).1 hlo)
  · obtain ⟨h40, h20⟩ : (headerOp h).toNat ≠ 0x40 ∧ 0x20 ≤ (headerOp h).toNat := by
      unfold headerOp; omega
    exact hb ((hwide h40).2 h20)
  · exact absurd ha.channel (Nat.not_lt.2 hch)
  · obtain rfl : op = .rdreg := ha.op_eq hk
    obtain ⟨r, hr, -⟩ := decodeOperands_rdreg_eq_ok hops
    have hle : (headerIdx h).toNat ≤ 17 := hr ▸ r.idx_le
    exact absurd hle (Nat.not_le.2 hidx)
  · obtain rfl : op = .hwParams := ha.op_eq hk
    obtain ⟨q0, q1, q2, q3, rfl, hz, -⟩ := decodeOperands_hwParams_eq_ok hops
    exact hb (Option.some.inj hp0 ▸ hz)
  · obtain rfl : op = .connect := ha.op_eq hk
    exact hb ((connect_zero_bits hops).1 p1 hp1)
  · obtain rfl : op = .connect := ha.op_eq hk
    exact hb ((connect_zero_bits hops).2 p4 hp4).1
  · obtain rfl : op = .connect := ha.op_eq hk
    exact hb (((connect_zero_bits hops).2 p4 hp4).2 w k hw hle)

/-- A fetched form that does not decode is rejected, on the state that fetching leaves. -/
theorem step_eq_rejected {s t : State} {x : Code} {e : DecodeError} (hf : fetch s = .code x t)
    (hd : decode t.nCh x = .error e) : step s = rejected x t := by
  simp only [step, hf, hd]

/-- Settles O3: an illegal packet does not decode, so it is rejected, which only sends the answer. -/
theorem illegalPacketsAreAnsweredOnly : Obligations.IllegalPacketsAreAnsweredOnly := by
  intro s port h ps refs rest _ hs hill
  cases hd : decode s.nCh (.packet port ⟨h :: ps, refs⟩) with
  | ok i => exact absurd hill (not_illegalPacket_of_decode hd)
  | error e => exact ⟨_, step_eq_rejected (fetch_packet hs) hd, onlySent_emit _ _⟩

end Sys2Proof.Machine
end

section
/-! PROOFS. What a turn does: the selector registers select the steps (rule R68). -/

namespace Sys2Proof.Machine

section
variable {s : State} {c : Nat} {d : Dir} {rest : List Input}

/-- The turn of a loop is fetched as the value of `LPHASE`. -/
theorem fetch_loop (hs : s.agenda = .loop c :: rest) :
    fetch s = .code (.lphase c (s.regValue c .tx .lphase)) { s with agenda := rest } := by
  simp only [fetch, hs]
  rfl

/-- The turn of a close completion is fetched as the value of `LSTATE`. -/
theorem fetch_finish (hs : s.agenda = .finish c d :: rest) :
    fetch s = .code (.lstate c d (s.regValue c d .lstate)) { s with agenda := rest } := by
  simp only [fetch, hs]
  rfl

/-- A loop's turn runs the step that the value of `LPHASE` selects. -/
theorem step_loop_eq_exec {v : Word} {i : Instr} (hc : c < s.nCh) (hs : s.agenda = .loop c :: rest)
    (hv : s.regValue c .tx .lphase = v) (hd : decodePhase c v = .ok i) :
    step s = exec i { s with agenda := rest } :=
  step_eq_exec (fetch_loop hs) (by rw [hv]; exact (if_pos hc).trans hd)

/-- A loop's turn with `LPHASE = 0` only takes the turn. -/
theorem step_loop_idle (hc : c < s.nCh) (hs : s.agenda = .loop c :: rest)
    (hv : s.regValue c .tx .lphase = 0) : step s = .next { s with agenda := rest } :=
  step_eq_rejected (fetch_loop hs) (e := .noStep) (by rw [hv]; exact if_pos hc)

/-- The values of `LSTATE` fit its three bits (rule R13). -/
theorem LState.toWord_and_seven (l : LState) : l.toWord &&& 7 = l.toWord := by cases l <;> rfl

/-- `LSTATE` of an existing half decodes to the close completion exactly when it is 5. -/
theorem decode_lstate (hc : c < s.nCh) :
    decode s.nCh (.lstate c d (s.regValue c d .lstate)) =
      if s.regValue c d .lstate = 5 then .ok (.clFinish c d) else .error .noStep := by
  have hbits : s.regValue c d .lstate &&& 7 = s.regValue c d .lstate :=
    LState.toWord_and_seven (s.half c d).lstate
  simp only [decode, if_pos hc, decodeState, hbits]

end

/-- Settles O7: a turn is fetched as the value of its selector register, and each value decodes to its step
or to none. -/
theorem selectorRegistersSelectSteps : Obligations.SelectorRegistersSelectSteps := by
  refine ⟨fun s c rest hc hs => ?_, fun s c d rest hc hs => ?_⟩
  · exact ⟨fun hv => step_loop_eq_exec hc hs hv rfl, fun hv => step_loop_eq_exec hc hs hv rfl,
      fun hv => step_loop_eq_exec hc hs hv rfl, fun hv => step_loop_eq_exec hc hs hv rfl,
      step_loop_idle hc hs⟩
  · exact ⟨fun hv => step_eq_exec (fetch_finish hs) ((decode_lstate hc).trans (if_pos hv)),
      fun hv => step_eq_rejected (fetch_finish hs) ((decode_lstate hc).trans (if_neg hv))⟩

end Sys2Proof.Machine
end

section
/-! PROOFS. The Format Codec (rules R80 to R89): what a conversion between two memories writes and leaves
alone, from which each codec's own bytes follow; where it stops; and that the Sequencer never gets there. -/

namespace Sys2Proof.Machine

/-! ## Replacing the bytes of a memory -/

/-- Every byte after the memory of an existing name was replaced. -/
theorem State.readByte_setMem {s : State} {sp : Space} {size : Nat} (hsize : s.memSize sp = some size)
    (m : Memory) (sp' : Space) (o : Nat) :
    (s.setMem sp m).readByte sp' o = if sp' = sp then m.read sp' o else s.readByte sp' o := by
  rw [State.readByte, State.mem_setMem hsize]
  split <;> rfl

/-- Replacing the bytes of a memory by ones that read the same outside a range changes nothing outside it. -/
theorem keepsBytesBut_setMem {s : State} {sp : Space} {size o n : Nat} (hsize : s.memSize sp = some size)
    {m : Memory} (hm : ∀ k, ¬ (o ≤ k ∧ k < o + n) → m.read sp k = s.readByte sp k) :
    KeepsBytesBut s (s.setMem sp m) (fun sp' k => sp' = sp ∧ o ≤ k ∧ k < o + n) := by
  intro sp' k hk
  rw [State.readByte_setMem hsize]
  split
  · subst sp'
    exact hm k (fun hin => hk ⟨rfl, hin⟩)
  · rfl

/-- A ring's bytes are none of the registers of its half. -/
theorem State.registers_setMem_ring (s : State) (c : Nat) (d : Dir) (m : Memory) (c' : Nat) (d' : Dir) :
    ((s.setMem (.ring c d) m).half c' d').registers = (s.half c' d').registers := by
  simp only [State.setMem, State.half_setHalf]
  split
  · rename_i he
    obtain ⟨rfl, rfl, -⟩ := he
    rfl
  · rfl

theorem State.setMem_unit {s : State} {u : Word} {x : TransferUnit} (hu : s.unitOf u = some x)
    (m : Memory) : s.setMem (.unit u) m = s.setUnit { x with bytes := m } := by
  simp only [State.setMem, hu]

/-- A unit's bytes are no part of its shape. -/
theorem keepsUnitShapes_setUnit {s : State} {u : Word} {x : TransferUnit} (hu : s.unitOf u = some x)
    (m : Memory) : KeepsUnitShapes s (s.setUnit { x with bytes := m }) := by
  intro v
  obtain rfl := State.unitOf_handle hu
  rw [State.unitOf_setUnit]
  split
  · rename_i hv
    rw [show v = x.handle from hv, hu]
    rfl
  · rfl

/-- Replacing bytes of a ring or a unit within a range keeps everything but those bytes. -/
theorem onlyBytes_setMem {s : State} {sp : Space} {size o n : Nat} (hsize : s.memSize sp = some size)
    {m : Memory} (hm : ∀ k, ¬ (o ≤ k ∧ k < o + n) → m.read sp k = s.readByte sp k) :
    OnlyBytes s (s.setMem sp m) sp o n := by
  have hbytes := keepsBytesBut_setMem hsize hm
  cases sp with
  | ring c d =>
    exact {
      bytes := hbytes
      halves := fun c' d' _ => s.registers_setMem_ring c d m c' d'
      loops := fun c' _ => s.loop_setHalf c c' d _
      tunables := fun c' => ⟨s.ppx_setHalf c c' d _, s.bufsz_setHalf c c' d _⟩
      units := fun _ => rfl
      pool := rfl
      rest := ⟨s.nCh_setHalf c d _, rfl, rfl, rfl, rfl, rfl⟩
      sent := (List.append_nil _).symm }
  | unit u =>
    cases hu : s.unitOf u with
    | none => simp [State.memSize, hu] at hsize
    | some x =>
      rw [State.setMem_unit hu] at hbytes ⊢
      exact {
        bytes := hbytes
        halves := fun _ _ _ => rfl
        loops := fun _ _ => rfl
        tunables := fun _ => ⟨rfl, rfl⟩
        units := keepsUnitShapes_setUnit hu m
        pool := rfl
        rest := ⟨rfl, rfl, rfl, rfl, rfl, rfl⟩
        sent := (List.append_nil _).symm }

theorem onlyBytes_refl (s : State) (sp : Space) (o n : Nat) : OnlyBytes s s sp o n where
  bytes := fun _ _ _ => rfl
  halves := fun _ _ _ => rfl
  loops := fun _ _ => rfl
  tunables := fun _ => ⟨rfl, rfl⟩
  units := fun _ => rfl
  pool := rfl
  rest := keepsRest_refl s
  sent := (List.append_nil _).symm

theorem Half.ringSize_registers (h : Half) : h.registers.ringSize = h.ringSize := rfl

/-- The size of a memory depends on registers and on the shapes of units only (rules R28, R29, R177). -/
theorem OnlyBytes.memSize_eq {s t : State} {sp : Space} {o n : Nat} (h : OnlyBytes s t sp o n)
    (sp' : Space) : t.memSize sp' = s.memSize sp' := by
  cases sp' with
  | ring c d =>
    have hring : (t.half c d).ringSize = (s.half c d).ringSize := by
      rw [← Half.ringSize_registers, h.halves c d id, Half.ringSize_registers]
    simp only [State.memSize, h.rest.nCh, hring]
  | unit u =>
    have hcap (r : State) :
        r.memSize (.unit u) = ((r.unitOf u).map TransferUnit.shape).map (fun p => p.2.2.1) := by
      cases hu : r.unitOf u <;> simp [State.memSize, hu, TransferUnit.shape]
    rw [hcap, hcap, h.units u]

/-! ## A conversion between two memories -/

/-- `n` bytes at `src` were converted to `dst` with codec `sel`, and nothing else changed (rules R80
to R84). -/
structure Converted (sel : Codec) (s t : State) (dst src : MemRef) (n : Nat) : Prop where
  only : OnlyBytes s t dst.space dst.off n
  bytes : ∀ i, i < n →
    t.readByte dst.space (dst.off + i) = s.readByte src.space (src.off + sel.srcIndex i)

/-- The operands of a `CVT` that converts: whole groups between two existing memories, inside both. -/
structure ConvertReady (sel : Codec) (s : State) (dst src : MemRef) (n : Nat) : Prop where
  spaces : dst.space ≠ src.space
  whole : n % sel.group = 0
  dst_within : ∃ nd, s.memSize dst.space = some nd ∧ dst.off + n ≤ nd
  src_within : ∃ ns, s.memSize src.space = some ns ∧ src.off + n ≤ ns

section
variable {sel : Codec} {s t : State} {dst src : MemRef} {n : Nat}

theorem ConvertReady.of_sizes {nd ns : Nat} (hne : dst.space ≠ src.space) (hg : n % sel.group = 0)
    (hd : s.memSize dst.space = some nd) (hdn : dst.off + n ≤ nd)
    (hs : s.memSize src.space = some ns) (hsn : src.off + n ≤ ns) : ConvertReady sel s dst src n :=
  ⟨hne, hg, ⟨nd, hd, hdn⟩, ⟨ns, hs, hsn⟩⟩

/-- A conversion inside its contract completes; one of no bytes too, which answers the state itself. -/
theorem State.convertOp_of_ready (h : ConvertReady sel s dst src n) :
    ∃ t, s.convertOp sel dst src n = .next t ∧ Converted sel s t dst src n := by
  obtain ⟨hne, hg, ⟨nd, hd, hdn⟩, ⟨ns, hs, hsn⟩⟩ := h
  by_cases h0 : n = 0
  · refine ⟨s, by simp [State.convertOp, h0], onlyBytes_refl .., fun i hi => ?_⟩
    omega
  · obtain ⟨m, hm⟩ :
        ∃ m, convert sel (s.mem dst.space) dst.off (s.readByte src.space) src.off n = .ok m :=
      ⟨_, convert_eq_ok.2 ⟨hg, rfl⟩⟩
    refine ⟨s.setMem dst.space m, ?_, onlyBytes_setMem hd ?_, fun i hi => ?_⟩
    · simp [State.convertOp, hg, h0, hne, hd, hs, hdn, hsn, hm]
    · exact fun k hk => (convert_read hm _ k).trans (if_neg hk)
    · rw [State.readByte_setMem hd, if_pos rfl, convert_read hm, if_pos (by omega),
        Nat.add_sub_cancel_left]

/-- The bytes group by group: each group is reversed (`dst[g*k + j] <- src[g*k + g-1-j]`). -/
theorem Converted.group_reversed (h : Converted sel s t dst src n) {k j : Nat}
    (hk : k < n / sel.group) (hj : j < sel.group) :
    t.readByte dst.space (dst.off + sel.group * k + j) =
      s.readByte src.space (src.off + sel.group * k + (sel.group - 1 - j)) := by
  have hlt : sel.group * k + j < n :=
    calc sel.group * k + j < sel.group * (k + 1) := by rw [Nat.mul_succ]; omega
      _ ≤ sel.group * (n / sel.group) := Nat.mul_le_mul_left _ hk
      _ ≤ n := Nat.mul_div_le n _
  have hbyte := h.bytes _ hlt
  rw [sel.srcIndex_group k j hj] at hbyte
  simpa only [Nat.add_assoc] using hbyte

/-- A conversion leaves the operands of the way back inside their contract. -/
theorem ConvertReady.back (h : ConvertReady sel s dst src n) (hc : Converted sel s t dst src n) :
    ConvertReady sel t src dst n where
  spaces := h.spaces.symm
  whole := h.whole
  dst_within := hc.only.memSize_eq src.space ▸ h.src_within
  src_within := hc.only.memSize_eq dst.space ▸ h.dst_within

/-- There and back leaves the source as it was: inside the range because the permutation of a group is its
own inverse (rule R85), outside it because neither conversion writes there. -/
theorem Converted.back_readByte (h : ConvertReady sel s dst src n) {r : State}
    (hc : Converted sel s t dst src n) (hb : Converted sel t r src dst n) (o : Nat) :
    r.readByte src.space o = s.readByte src.space o := by
  by_cases hin : src.off ≤ o ∧ o < src.off + n
  · obtain ⟨hlo, hhi⟩ := hin
    obtain ⟨i, rfl⟩ := Nat.le.dest hlo
    have hi : i < n := by omega
    rw [hb.bytes i hi, hc.bytes _ (sel.srcIndex_lt i n h.whole hi), sel.srcIndex_srcIndex]
  · rw [hb.only.bytes _ _ (fun hp => hin hp.2), hc.only.bytes _ _ (fun hp => h.spaces hp.1.symm)]

end

/-- Settles O16: the groups of `CVT.COPY` are single bytes, and reversing one moves nothing. -/
theorem cvtCopyCopiesBytes : Obligations.CvtCopyCopiesBytes := by
  intro s dst src n nd ns hne hd hdn hs hsn
  obtain ⟨t, hex, hc⟩ :=
    State.convertOp_of_ready (.of_sizes (sel := .copy) hne (Nat.mod_one n) hd hdn hs hsn)
  refine ⟨t, hex, hc.only, fun i hi => ?_⟩
  simpa [Codec.group] using
    hc.group_reversed (k := i) (j := 0) ((Nat.div_one n).symm ▸ hi) (by decide)

/-- Settles O17: the two bytes of each reversed group. -/
theorem cvtSwap16SwapsPairs : Obligations.CvtSwap16SwapsPairs := by
  intro s dst src n nd ns hne hg hd hdn hs hsn
  obtain ⟨t, hex, hc⟩ := State.convertOp_of_ready (.of_sizes (sel := .swap16) hne hg hd hdn hs hsn)
  exact ⟨t, hex, hc.only, fun k hk =>
    ⟨hc.group_reversed (j := 0) hk (by decide), hc.group_reversed (j := 1) hk (by decide)⟩⟩

/-- Settles O18: the three bytes of each reversed group. -/
theorem cvtSwap24ReversesTriples : Obligations.CvtSwap24ReversesTriples := by
  intro s dst src n nd ns hne hg hd hdn hs hsn
  obtain ⟨t, hex, hc⟩ := State.convertOp_of_ready (.of_sizes (sel := .swap24) hne hg hd hdn hs hsn)
  exact ⟨t, hex, hc.only, fun k hk =>
    ⟨hc.group_reversed (j := 0) hk (by decide), hc.group_reversed (j := 1) hk (by decide),
      hc.group_reversed (j := 2) hk (by decide)⟩⟩

/-- Settles O19: every byte of each reversed group. -/
theorem cvtSwap32ReversesWords : Obligations.CvtSwap32ReversesWords := by
  intro s dst src n nd ns hne hg hd hdn hs hsn
  obtain ⟨t, hex, hc⟩ := State.convertOp_of_ready (.of_sizes (sel := .swap32) hne hg hd hdn hs hsn)
  exact ⟨t, hex, hc.only, fun _ _ hk hj => hc.group_reversed hk hj⟩

/-- Settles O21: the conversion and the way back both complete, whichever codec it is. -/
theorem codecsAreInvolutions : Obligations.CodecsAreInvolutions := by
  intro s sel dst src n nd ns hne hg hd hdn hs hsn i
  have hexec (x y : MemRef) (r : State) : exec (i x y) r = r.convertOp sel x y n := by
    cases sel <;> rfl
  have ready : ConvertReady sel s dst src n := .of_sizes hne hg hd hdn hs hsn
  obtain ⟨t1, h1, hc⟩ := State.convertOp_of_ready ready
  obtain ⟨t2, h2, hb⟩ := State.convertOp_of_ready (ready.back hc)
  exact ⟨t1, t2, (hexec ..).trans h1, (hexec ..).trans h2, hc.back_readByte ready hb⟩

/-! ## Cutting a conversion -/

/-- The bytes that `convert` writes, cut after whole groups. -/
theorem Codec.permuted_append (sel : Codec) {n1 : Nat} (hg : n1 % sel.group = 0) (n2 srcOff : Nat)
    (src : Nat → Byte) :
    (List.range (n1 + n2)).map (fun i => src (srcOff + sel.srcIndex i)) =
      (List.range n1).map (fun i => src (srcOff + sel.srcIndex i)) ++
        (List.range n2).map (fun i => src (srcOff + n1 + sel.srcIndex i)) := by
  simp [List.range_add, Function.comp_def, sel.srcIndex_add n1 _ hg, Nat.add_assoc]

/-- Settles O22: the first part always converts, and the whole faults exactly when the rest does. -/
theorem convertSplitsAtGroups : Obligations.ConvertSplitsAtGroups := by
  intro sel m dstOff srcOff n1 n2 src hg
  have hfirst :=
    (convert_eq_ok (dst := m) (dstOff := dstOff) (srcOff := srcOff) (src := src)).2 ⟨hg, rfl⟩
  have hmod : (n1 + n2) % sel.group = n2 % sel.group := by rw [Nat.add_mod, hg]; simp
  rw [hfirst]
  simp only [convert, hmod, sel.permuted_append hg, Memory.writeBytes_append, List.length_map,
    List.length_range]

/-! ## Where a conversion stops, and where none does -/

/-- A `CVT` on a byte count that is no multiple of the group size faults before anything else
(rule R87). -/
theorem State.convertOp_of_partial_group {sel : Codec} {n : Nat} (hg : n % sel.group ≠ 0) (s : State)
    (dst src : MemRef) : s.convertOp sel dst src n = .fault .codecLength := if_pos hg

/-- An operation that answers a result code only has no other effect (rule R164). -/
theorem answersOnly_of_reply {s : State} {i : Instr} {port : Port} {r : Result}
    (h : exec i s = s.reply port r) : AnswersOnly s i port r := ⟨_, h, onlySent_emit s _⟩

/-- Settles O20: the check of the byte count comes first, then that of the ranges. -/
theorem cvtStopsOutsideItsContract : Obligations.CvtStopsOutsideItsContract := by
  intro s dst src n
  refine ⟨fun hg => State.convertOp_of_partial_group (sel := .swap16) hg s dst src,
    fun hg => State.convertOp_of_partial_group (sel := .swap24) hg s dst src,
    fun hg => State.convertOp_of_partial_group (sel := .swap32) hg s dst src, fun he h1 h2 => ?_⟩
  have overlap {sel : Codec} (hg : n % sel.group = 0) := State.convertOp_of_overlap (s := s) hg he h1 h2
  exact ⟨answersOnly_of_reply (overlap (sel := .copy) (Nat.mod_one n)),
    fun hg => answersOnly_of_reply (overlap (sel := .swap16) hg),
    fun hg => answersOnly_of_reply (overlap (sel := .swap24) hg),
    fun hg => answersOnly_of_reply (overlap (sel := .swap32) hg)⟩

/-- Under the invariants a bound codec has whole groups in a frame, so that no copy breaks the codec's
contract, whatever its operands (rules R19, R87). -/
theorem State.Safe.copyFrames_ne_codecLength {s : State} (hs : s.Safe) (c : Nat) (d : Dir) (u : Word)
    (n : Nat) : s.copyFrames c d u n ≠ .error .codecLength := by
  intro h
  obtain ⟨hf, -⟩ | ⟨x, -, ⟨hf, -⟩ | ⟨hp, hg⟩⟩ := State.copyFrames_eq_error h
  · cases hf
  · cases hf
  · have hch : (s.chan c).Safe := (State.forall_mem_chans Channel.safe_reset s).1 hs c
    exact hg ((hch.half d).negotiated.codec_bound hp.codec_bound).2

/-- Everything a faulting `SL.FILL` can say. -/
theorem execSlFill_eq_fault {c : Nat} {s : State} {f : Fault} (h : execSlFill c s = .fault f) :
    f = .noMemory ∨ ∃ n, s.copyFrames c .tx (s.loop c).lunit n = .error f := by
  dsimp only [execSlFill] at h
  split at h
  · cases h
  split at h
  · cases h
    exact .inl rfl
  split at h
  · split at h
    · cases h
      exact .inr ⟨_, ‹_›⟩
    · cases h
  · cases h

/-- Everything a faulting `RX_COMPLETE` can say. -/
theorem execRxComplete_eq_fault {u : Word} {s : State} {f : Fault}
    (h : execRxComplete u s = .fault f) : ∃ c n, s.copyFrames c .rx u n = .error f := by
  dsimp only [execRxComplete] at h
  split at h
  · cases h
  split at h
  · cases h
  split at h
  · split at h
    · cases h
      exact ⟨_, _, ‹_›⟩
    · cases h
  · cases h

theorem execCopyFrames_eq_fault {c : Nat} {d : Dir} {u n : Word} {s : State} {f : Fault}
    (h : execCopyFrames c d u n s = .fault f) : s.copyFrames c d u n.toNat = .error f := by
  unfold execCopyFrames at h
  split at h
  · cases h
    assumption
  · cases h

/-- Settles O27: the three callers fault as their copy does, or for want of a unit. -/
theorem sequencerKeepsCodecContract : Obligations.SequencerKeepsCodecContract := by
  intro s hs
  refine ⟨fun c h => ?_, fun u h => ?_, fun c d u n h => ?_⟩
  · obtain hf | ⟨n, hf⟩ := execSlFill_eq_fault h
    · cases hf
    · exact hs.copyFrames_ne_codecLength _ _ _ _ hf
  · obtain ⟨c, n, hf⟩ := execRxComplete_eq_fault h
    exact hs.copyFrames_ne_codecLength _ _ _ _ hf
  · exact hs.copyFrames_ne_codecLength _ _ _ _ (execCopyFrames_eq_fault h)

/-! ## Which codec a format selects -/

/-- A width outside `{8, 16, 24, 32}` selects no codec. -/
theorem selectCodec_eq_none {w : BitVec 8} (e : Endian) (h8 : w.toNat ≠ 8) (h16 : w.toNat ≠ 16)
    (h24 : w.toNat ≠ 24) (h32 : w.toNat ≠ 32) : selectCodec w e = none := by
  unfold selectCodec
  split
  case h_8 => rfl
  all_goals contradiction

/-- Settles O15: each of the four widths in both endiannesses, then all others. -/
theorem codecSelectionTable : Obligations.CodecSelectionTable := by
  intro w e
  by_cases h8 : w = 8
  · subst h8; cases e <;> rfl
  by_cases h16 : w = 16
  · subst h16; cases e <;> rfl
  by_cases h24 : w = 24
  · subst h24; cases e <;> rfl
  by_cases h32 : w = 32
  · subst h32; cases e <;> rfl
  rw [selectCodec_eq_none e (BitVec.toNat_ne.1 h8) (BitVec.toNat_ne.1 h16) (BitVec.toNat_ne.1 h24)
    (BitVec.toNat_ne.1 h32)]
  simp only [h8, h16, h24, h32, or_self, and_false, if_false]

end Sys2Proof.Machine
end

section
/-! PROOFS. The Ring Buffer Copier (rules R90 to R99): what a copy that completes moves and leaves alone, from
which its two directions follow; the period count of a sequence of copies; and where a copy stops. -/

namespace Sys2Proof.Machine

/-! ## Bytes after an update -/

theorem State.readByte_unit {s : State} {u : Word} {x : TransferUnit} (hu : s.unitOf u = some x)
    (o : Nat) : s.readByte (.unit u) o = x.bytes.read (.unit u) o := by
  simp only [State.readByte, State.mem, hu]

theorem State.readByte_setHalf {s : State} {c : Nat} (hc : c < s.nCh) (d : Dir) (h : Half) (sp : Space)
    (o : Nat) :
    (s.setHalf c d h).readByte sp o = if sp = .ring c d then h.ring.read sp o else s.readByte sp o := by
  cases sp with
  | ring c' d' =>
    simp only [State.readByte, State.mem, State.half_setHalf, hc, and_true, Space.ring.injEq]
    split <;> rfl
  | unit u => rfl

/-- Every byte after other registers for a half and other bytes for a live unit. -/
theorem State.readByte_playback (s : State) (c : Nat) (d : Dir) (h : Half)
    (hr : h.ring = (s.half c d).ring) {u : Word} {x : TransferUnit} (hu : s.unitOf u = some x)
    (m : Memory) (sp : Space) (o : Nat) :
    ((s.setHalf c d h).setUnit { x with bytes := m }).readByte sp o =
      if sp = .unit u then m.read sp o else s.readByte sp o := by
  have hu' : (s.setHalf c d h).unitOf u = some x := hu
  have hsize : (s.setHalf c d h).memSize (.unit u) = some x.cap := by
    simp only [State.memSize, hu']
  rw [← State.setMem_unit hu', State.readByte_setMem hsize,
    State.readByte_setHalf_of_ring s c d h hr]

/-! ## Every copy -/

/-- What a copy on half `(c, d)` leaves alone: everything but that half and the bytes of units. -/
structure CopyFrame (s t : State) (c : Nat) (d : Dir) : Prop where
  halves : KeepsHalvesBut s t (fun c' d' => c' = c ∧ d' = d)
  loops : KeepsLoopsBut s t (fun _ => False)
  tunables : KeepsTunables s t
  shapes : KeepsUnitShapes s t
  pool : t.pool = s.pool
  rest : KeepsRest s t
  sent : Sent s t []

theorem copyFrame_setHalf (s : State) (c : Nat) (d : Dir) (h : Half) :
    CopyFrame s (s.setHalf c d h) c d where
  halves := fun c' d' hn => s.half_setHalf_of_ne c c' d d' h hn
  loops := fun c' _ => s.loop_setHalf c c' d h
  tunables := fun c' => ⟨s.ppx_setHalf c c' d h, s.bufsz_setHalf c c' d h⟩
  shapes := fun _ => rfl
  pool := rfl
  rest := ⟨s.nCh_setHalf c d h, rfl, rfl, rfl, rfl, rfl⟩
  sent := (List.append_nil _).symm

section
variable {s t : State} {c : Nat} {d : Dir} {u : Word} {n : Nat} {b : Bool}

/-- A playback changes the bytes of its unit besides. -/
theorem CopyFrame.setUnit {x : TransferUnit} (hf : CopyFrame s t c d) (hu : t.unitOf u = some x)
    (m : Memory) : CopyFrame s (t.setUnit { x with bytes := m }) c d where
  halves := hf.halves
  loops := hf.loops
  tunables := hf.tunables
  shapes := fun v => (keepsUnitShapes_setUnit hu m v).trans (hf.shapes v)
  pool := hf.pool
  rest := ⟨hf.rest.nCh, hf.rest.periodMax, hf.rest.agenda, hf.rest.startAnswers, hf.rest.startDraws,
    hf.rest.copyElapsed⟩
  sent := hf.sent

/-- The frame of a copy, in either direction. -/
theorem State.copyFrames_frame (h : s.copyFrames c d u n = .ok (t, b)) : CopyFrame s t c d := by
  obtain ⟨x, hx, -, -, ⟨rfl, m, -, rfl⟩ | ⟨rfl, m, -, rfl⟩⟩ := State.copyFrames_eq_ok h
  · exact copyFrame_setHalf ..
  · exact (copyFrame_setHalf ..).setUnit hx m

/-- The registers of the half and the Boolean after a copy, in either direction (rules R93, R94). -/
theorem State.copyFrames_moved (hc : c < s.nCh) (h : s.copyFrames c d u n = .ok (t, b)) :
    Moved (s.half c d) (t.half c d) n ∧ b = (s.half c d).crosses n := by
  obtain ⟨x, -, hp, hb, ⟨rfl, m, -, rfl⟩ | ⟨rfl, m, -, rfl⟩⟩ := State.copyFrames_eq_ok h
  · rw [State.half_setHalf_self _ _ _ _ hc]
    exact ⟨Half.advance_moved hp m, hb⟩
  · rw [State.half_setUnit, State.half_setHalf_self _ _ _ _ hc]
    exact ⟨Half.advance_moved hp _, hb⟩

/-- A capture fills the ring and touches no unit (rules R91, R99 (g)). -/
theorem State.copyFrames_captured (hc : c < s.nCh)
    (hg : (s.half c .rx).frameBytes.toNat % (s.half c .rx).codec.group = 0)
    (h : s.copyFrames c .rx u n = .ok (t, b)) : Captured s t c u n ∧ KeepsUnits s t := by
  obtain ⟨x, hx, hp, -, ⟨-, m, hm, rfl⟩ | ⟨hd, -⟩⟩ := State.copyFrames_eq_ok h
  · obtain ⟨hin, hout⟩ := captureBytes_read hp hm hg (.ring c .rx)
    rw [State.unitOf_handle hx] at hin
    refine ⟨⟨fun j hj => ?_, fun sp o ho => ?_⟩, rfl, rfl⟩
    · rw [State.readByte_setHalf hc, if_pos rfl, State.readByte_unit hx]
      exact hin j hj
    · rw [State.readByte_setHalf hc]
      split
      · subst sp
        exact hout o fun j hj e => ho ⟨rfl, j, hj, e⟩
      · rfl
  · cases hd

/-- A playback fills the unit up to the end of the transfer and touches no other byte (rules R92, R99 (g)). -/
theorem State.copyFrames_playedBack
    (hg : (s.half c .tx).frameBytes.toNat % (s.half c .tx).codec.group = 0)
    (h : s.copyFrames c .tx u n = .ok (t, b)) :
    PlayedBack s t c u n ∧
      KeepsBytesBut s t (fun sp o => sp = .unit u ∧ o < n * (s.half c .tx).frameBytes.toNat) := by
  obtain ⟨x, hx, hp, -, ⟨hd, -⟩ | ⟨-, m, hm, rfl⟩⟩ := State.copyFrames_eq_ok h
  · cases hd
  · obtain ⟨hin, hout⟩ := playbackBytes_read hp hm hg (.unit u)
    have hread := s.readByte_playback c .tx ((s.half c .tx).advance n) rfl hx m
    refine ⟨fun j hj => ?_, fun sp o ho => ?_⟩
    · rw [hread, if_pos rfl]
      exact hin j hj
    · rw [hread]
      split
      · subst sp
        rw [State.readByte_unit hx]
        exact hout o (Nat.le_of_not_lt fun hlt => ho ⟨rfl, hlt⟩)
      · rfl

end

/-! ## A bare `COPY_FRAMES` -/

/-- `COPY_FRAMES` leaves what its copy leaves, with the Boolean in the model's own field (log entry 5). -/
theorem exec_copyFrames_of_ok {s t : State} {c : Nat} {d : Dir} {u n : Word} {b : Bool}
    (h : s.copyFrames c d u n.toNat = .ok (t, b)) :
    exec (.copyFrames c d u n) s = .next { t with copyElapsed := b } := by
  simp only [exec, execCopyFrames, h]

/-- The rest stays kept when the Boolean of a copy is left out of account (log entry 5). -/
theorem KeepsRest.restoreElapsed {s t : State} (h : KeepsRest s t) :
    KeepsRest s { t with copyElapsed := s.copyElapsed } :=
  ⟨h.nCh, h.periodMax, h.agenda, h.startAnswers, h.startDraws, rfl⟩

/-- Settles O23: a copy inside its premises completes, and captures. -/
theorem copyFramesCapturesIntoRing : Obligations.CopyFramesCapturesIntoRing := by
  intro s c u n x hc hx hp hg
  obtain ⟨t, b, hk⟩ := State.copyFrames_ok hx hp hg
  obtain ⟨⟨hin, hout⟩, hunits⟩ := State.copyFrames_captured hc hg hk
  obtain ⟨hmoved, hb⟩ := State.copyFrames_moved hc hk
  obtain ⟨halves, loops, tunables, -, -, rest, sent⟩ := State.copyFrames_frame hk
  exact ⟨_, exec_copyFrames_of_ok hk, ⟨hin, hout⟩, hmoved, hb, halves, loops, tunables, hunits,
    rest.restoreElapsed, sent⟩

/-- Settles O24: a copy inside its premises completes, and plays back. -/
theorem copyFramesPlaysBackFromRing : Obligations.CopyFramesPlaysBackFromRing := by
  intro s c u n x hc hx hp hg
  obtain ⟨t, b, hk⟩ := State.copyFrames_ok hx hp hg
  obtain ⟨hplayed, hkept⟩ := State.copyFrames_playedBack hg hk
  obtain ⟨hmoved, hb⟩ := State.copyFrames_moved hc hk
  obtain ⟨halves, loops, tunables, shapes, pool, rest, sent⟩ := State.copyFrames_frame hk
  exact ⟨_, exec_copyFrames_of_ok hk, hplayed, hkept, hmoved, hb, halves, loops, tunables, shapes, pool,
    rest.restoreElapsed, sent⟩

/-! ## Sequences of copies -/

/-- A quotient can be taken in two steps, the second from the remainder of the first. -/
theorem add_div_eq_div_add_mod_add_div (a m : Nat) {p : Nat} (hp : 0 < p) :
    (a + m) / p = a / p + (a % p + m) / p :=
  calc (a + m) / p = (a % p + m + p * (a / p)) / p := by rw [Nat.add_right_comm, Nat.mod_add_div]
    _ = a / p + (a % p + m) / p := by rw [Nat.add_mul_div_left _ _ hp, Nat.add_comm]

theorem copyRun_cons_eq_ok {c : Nat} {d : Dir} {u : Word} {n : Nat} {rest : List (Word × Nat)}
    {s t : State} {k : Nat} (h : copyRun c d ((u, n) :: rest) s = .ok (t, k)) :
    ∃ s1 b k', s.copyFrames c d u n = .ok (s1, b) ∧ copyRun c d rest s1 = .ok (t, k') ∧
      k = (if b then 1 else 0) + k' := by
  unfold copyRun at h
  split at h
  · cases h
  · rename_i s1 b hk
    split at h
    · cases h
    · rename_i t' k' hr
      cases h
      exact ⟨s1, b, k', hk, hr, rfl⟩

theorem framesMoved_cons (u : Word) (n : Nat) (l : List (Word × Nat)) :
    framesMoved ((u, n) :: l) = n + framesMoved l := rfl

section
variable {h h' : Half} {n : Nat}

theorem Moved.ringFrames_eq (hm : Moved h h' n) : h'.ringFrames = h.ringFrames := by
  rw [hm.others]

theorem Moved.periodFrames_eq (hm : Moved h h' n) : h'.periodFrames = h.periodFrames := by
  rw [hm.others]

/-- A copy of no more than a period takes `PERPOS` once round at most: the Boolean is the quotient and
`PERPOS` the remainder of the frames since the last report (rule R94). -/
theorem Moved.period {x : TransferUnit} {d : Dir} (hp : CopyPremises h x d n) (hm : Moved h h' n) :
    (if h.crosses n then 1 else 0) = (h.perPos.toNat + n) / h.periodFrames.toNat ∧
    h'.perPos.toNat = (h.perPos.toNat + n) % h.periodFrames.toNat := by
  have hlt := hp.in_period
  have hle := hp.le_period
  rw [hm.perPos, Half.crosses]
  by_cases hc : h.periodFrames.toNat ≤ h.perPos.toNat + n
  · have hrest : h.perPos.toNat + n - h.periodFrames.toNat < h.periodFrames.toNat := by omega
    rw [Nat.div_eq_sub_div hp.period_frames hc, Nat.mod_eq_sub_mod hc, Nat.div_eq_of_lt hrest,
      Nat.mod_eq_of_lt hrest]
    simp [hc]
  · rw [Nat.div_eq_of_lt (Nat.lt_of_not_le hc), Nat.mod_eq_of_lt (Nat.lt_of_not_le hc)]
    simp [hc]

end

/-- A sequence of copies reports a period per `PERIOD_FRAMES` frames since the last report, and moves the
positions as one copy of all its frames would (rule R99 (f)). -/
theorem copyRun_positions {c : Nat} {d : Dir} {l : List (Word × Nat)} {s t : State} {k : Nat}
    (hc : c < s.nCh) (hper : (s.half c d).perPos.toNat < (s.half c d).periodFrames.toNat)
    (hbuf : (s.half c d).bufPos.toNat < (s.half c d).ringFrames.toNat)
    (h : copyRun c d l s = .ok (t, k)) :
    k = ((s.half c d).perPos.toNat + framesMoved l) / (s.half c d).periodFrames.toNat ∧
    (t.half c d).perPos.toNat =
      ((s.half c d).perPos.toNat + framesMoved l) % (s.half c d).periodFrames.toNat ∧
    (t.half c d).bufPos.toNat =
      ((s.half c d).bufPos.toNat + framesMoved l) % (s.half c d).ringFrames.toNat := by
  induction l generalizing s k with
  | nil =>
    cases h
    exact ⟨(Nat.div_eq_of_lt hper).symm, (Nat.mod_eq_of_lt hper).symm, (Nat.mod_eq_of_lt hbuf).symm⟩
  | cons y rest ih =>
    obtain ⟨u, n⟩ := y
    obtain ⟨s1, b, k', hk, hr, rfl⟩ := copyRun_cons_eq_ok h
    obtain ⟨x, -, hp, -⟩ := State.copyFrames_eq_ok hk
    obtain ⟨hm, rfl⟩ := State.copyFrames_moved hc hk
    obtain ⟨hcount, hpos⟩ := hm.period hp
    have hc1 : c < s1.nCh := (State.copyFrames_frame hk).rest.nCh ▸ hc
    have hper1 : (s1.half c d).perPos.toNat < (s1.half c d).periodFrames.toNat := by
      rw [hpos, hm.periodFrames_eq]
      exact Nat.mod_lt _ hp.period_frames
    have hbuf1 : (s1.half c d).bufPos.toNat < (s1.half c d).ringFrames.toNat := by
      rw [hm.bufPos, hm.ringFrames_eq]
      exact Nat.mod_lt _ hp.ring_frames
    obtain ⟨ihk, ihp, ihb⟩ := ih hc1 hper1 hbuf1 hr
    rw [hpos, hm.periodFrames_eq] at ihk ihp
    rw [hm.bufPos, hm.ringFrames_eq] at ihb
    simp only [framesMoved_cons, ← Nat.add_assoc]
    refine ⟨?_, ?_, ?_⟩
    · rw [hcount, ihk, ← add_div_eq_div_add_mod_add_div _ _ hp.period_frames]
    · rw [ihp, Nat.mod_add_mod]
    · rw [ihb, Nat.mod_add_mod]

/-- Settles O26: from `PERPOS = 0` the frames since the last report are all of them. A copy that completes
shows that a period has frames; without any copy there is nothing to show. -/
theorem periodsDoNotDependOnChunking : Obligations.PeriodsDoNotDependOnChunking := by
  intro s t c d l k hc hzero hbuf h
  have hpos : (s.half c d).perPos.toNat = 0 := by rw [hzero]; rfl
  cases l with
  | nil =>
    cases h
    simp [framesMoved, hpos, Nat.mod_eq_of_lt hbuf]
  | cons y rest =>
    obtain ⟨s1, b, k', hk, -⟩ := copyRun_cons_eq_ok h
    obtain ⟨x, -, hp, -⟩ := State.copyFrames_eq_ok hk
    have hrun := copyRun_positions hc hp.in_period hbuf h
    rwa [hpos, Nat.zero_add] at hrun

/-! ## Broken premises (rule R96) -/

/-- Settles O25: each caller ends in the fault of its copy, once its own conditions led it there. -/
theorem brokenCopyPremiseFaults : Obligations.BrokenCopyPremiseFaults := by
  refine ⟨fun s c d u n x hx hp => ?_, fun s c x hphase hx hrun hp => ?_,
    fun s u x c hunique hx hbound hrun hp => ?_⟩
  · simp only [exec, execCopyFrames, State.copyFrames_of_broken hx hp]
  · have hk := State.copyFrames_of_broken hx hp
    simp [exec, execSlFill, hphase, hx, hrun, Half.frameCount, hk]
  · have hk := State.copyFrames_of_broken hx hp
    simp [exec, execRxComplete, hx, State.lookup_of_bound hunique hbound, hrun, Half.frameCount, hk]

end Sys2Proof.Machine
end

section
/-! PROOFS. The fields of the packed registers, read off the words (rules R23, R63, R65). -/

namespace Sys2Proof

/-- The fields of a packed word are those of what was packed. -/
theorem IfId.toWord_fields (x : IfId) :
    x.toWord.extractLsb' 16 16 = x.ifh ∧ x.toWord.extractLsb' 0 16 = x.id :=
  IfId.mk.inj x.ofWord_toWord

theorem ChBounds.toWord_fields (x : ChBounds) :
    x.toWord.extractLsb' 0 16 = x.lo ∧ x.toWord.extractLsb' 16 16 = x.hi :=
  ChBounds.mk.inj x.ofWord_toWord

theorem Fmt.toWord_fields (x : Fmt) :
    x.toWord.extractLsb' 0 16 = x.channels ∧ x.toWord.extractLsb' 16 8 = x.width ∧
    x.toWord.getLsbD 24 = decide (x.endian = .big) ∧ x.toWord.extractLsb' 25 7 = 0 := by
  obtain ⟨hfmt, hzero⟩ := x.ofWord_toWord
  obtain ⟨hchannels, hwidth, -⟩ := Fmt.mk.inj hfmt
  refine ⟨hchannels, hwidth, ?_, hzero⟩
  rw [Fmt.getLsbD_toWord]
  cases x.endian <;> rfl

end Sys2Proof
end

section
/-! PROOFS. Frames in sequence: how the frames of Frames.lean compose, for operations that update a half
and its loop more than once. -/

namespace Sys2Proof.Machine

theorem onlyChannel_refl (s : State) (c : Nat) (d : Dir) :
    OnlyChannel s s c d (s.half c d) (s.loop c) [] where
  half := rfl
  halves := fun _ _ _ => rfl
  loop := rfl
  loops := fun _ _ => rfl
  tunables := fun _ => ⟨rfl, rfl⟩
  units := ⟨rfl, rfl⟩
  bytes := fun _ _ => rfl
  rest := keepsRest_refl s
  sent := (List.append_nil _).symm

theorem KeepsRest.trans {s t r : State} (h1 : KeepsRest s t) (h2 : KeepsRest t r) : KeepsRest s r where
  nCh := h2.nCh.trans h1.nCh
  periodMax := h2.periodMax.trans h1.periodMax
  agenda := h2.agenda.trans h1.agenda
  startAnswers := h2.startAnswers.trans h1.startAnswers
  startDraws := h2.startDraws.trans h1.startDraws
  copyElapsed := h2.copyElapsed.trans h1.copyElapsed

/-- Setting the Supply Loop of the Channel of a half of either direction. -/
theorem onlyChannel_setLoop (s : State) (c : Nat) (d : Dir) (lp : Loop) (hc : c < s.nCh) :
    OnlyChannel s (s.setLoop c lp) c d (s.half c d) lp [] :=
  { onlyLoop_setLoop s c lp hc with
    half := s.half_setLoop c c d lp
    halves := fun c' d' _ => s.half_setLoop c c' d' lp }

section
variable {s t : State} {c : Nat} {d : Dir} {h : Half} {lp : Loop} {l : List Out}

/-- A change of a half and its loop, then a second one of the same. -/
theorem OnlyChannel.trans (h1 : OnlyChannel s t c d h lp l) {r : State} {h' : Half} {lp' : Loop}
    {l' : List Out} (h2 : OnlyChannel t r c d h' lp' l') : OnlyChannel s r c d h' lp' (l ++ l') where
  half := h2.half
  halves := fun c' d' hn => (h2.halves c' d' hn).trans (h1.halves c' d' hn)
  loop := h2.loop
  loops := fun c' hn => (h2.loops c' hn).trans (h1.loops c' hn)
  tunables := fun c' =>
    ⟨(h2.tunables c').1.trans (h1.tunables c').1, (h2.tunables c').2.trans (h1.tunables c').2⟩
  units := ⟨h2.units.1.trans h1.units.1, h2.units.2.trans h1.units.2⟩
  bytes := fun sp k => (h2.bytes sp k).trans (h1.bytes sp k)
  rest := h1.rest.trans h2.rest
  sent := by
    have h1 : t.out = s.out ++ l := h1.sent
    exact h2.sent.trans (by rw [h1, List.append_assoc])

/-- Setting the half once more, but for its ring. -/
theorem OnlyChannel.setHalf (hf : OnlyChannel s t c d h lp l) (hc : c < s.nCh) {h' : Half}
    (hr : h'.ring = h.ring) : OnlyChannel s (t.setHalf c d h') c d h' lp l := by
  have := hf.trans (onlyHalf_setHalf t c d h' (hf.rest.nCh ▸ hc) (hf.half ▸ hr))
  rwa [hf.loop, List.append_nil] at this

/-- Setting the loop once more. -/
theorem OnlyChannel.setLoop (hf : OnlyChannel s t c d h lp l) (hc : c < s.nCh) (lp' : Loop) :
    OnlyChannel s (t.setLoop c lp') c d h lp' l := by
  have := hf.trans (onlyChannel_setLoop t c d lp' (hf.rest.nCh ▸ hc))
  rwa [hf.half, List.append_nil] at this

end

/-- A command that sets its half but for the ring, and answers. -/
theorem exec_onlyHalf_of_reply {s : State} {i : Instr} {c : Nat} {d : Dir} {h : Half} {port : Port}
    {r : Result} (hc : c < s.nCh) (hr : h.ring = (s.half c d).ring)
    (he : exec i s = (s.setHalf c d h).reply port r) :
    ∃ t, exec i s = .next t ∧ OnlyHalf s t c d h [answered port r] :=
  ⟨_, he, (onlyHalf_setHalf s c d h hc hr).emit _⟩

end Sys2Proof.Machine
end

section
/-! PROOFS. The lifecycle commands (rules R101 to R110), each case by case along the checks of its rule. -/

namespace Sys2Proof.Machine

/-! ## `OPEN`, `HW_PARAMS`, `HW_FREE` -/

/-- The limit that `OPEN` captures, with the unset `BUFSZ` written as -1 (rules R27, R101). -/
theorem State.sizeLimit_eq (s : State) (c : Nat) :
    s.sizeLimit c =
      if (s.chan c).bufsz = BitVec.ofInt 32 (-1) then s.periodMax else (s.chan c).bufsz := by
  have h : Config.bufszUnset = BitVec.ofInt 32 (-1) := by decide
  rw [State.sizeLimit, h]

/-- Settles O28: the checks of rule R101 in order, then the capture. -/
theorem openCapturesEnvelope : Obligations.OpenCapturesEnvelope := by
  intro s c d hc h
  refine ⟨fun hl => answersOnly_of_reply (if_pos hl),
    fun hl hb => answersOnly_of_reply ((if_neg (not_not_intro hl)).trans (if_pos hb)),
    fun hl hb => ?_⟩
  rw [← s.sizeLimit_eq c]
  exact exec_onlyHalf_of_reply hc rfl ((if_neg (not_not_intro hl)).trans (if_neg (ne_false_of_eq_true hb)))

/-- Settles O29: the state, the envelope and the zero checks of rule R102, then the parameters. -/
theorem hwParamsLatchesParameters : Obligations.HwParamsLatchesParameters := by
  intro s c d fmt rf pf rh hc h i inEnvelope nonZero
  have envelope_iff : (fmt.channels.toNat < h.envCh.lo.toNat ∨ h.envCh.hi.toNat < fmt.channels.toNat) ↔
      ¬ inEnvelope := by simp only [inEnvelope, BitVec.le_def]; omega
  have zero_iff : (fmt.channels = 0 ∨ rf = 0 ∨ pf = 0) ↔ ¬ nonZero := by
    simp only [nonZero, ne_eq, Decidable.not_and_iff_not_or_not, Decidable.not_not]
  refine ⟨fun hl => answersOnly_of_reply (if_pos hl), fun hl hbad => ?_, fun hl he hz => ?_⟩
  · by_cases he : inEnvelope
    · have hz : ¬ nonZero := fun hz => hbad ⟨he, hz⟩
      exact answersOnly_of_reply ((if_neg (not_not_intro hl)).trans
        ((if_neg (mt envelope_iff.1 (not_not_intro he))).trans (if_pos (zero_iff.2 hz))))
    · exact answersOnly_of_reply ((if_neg (not_not_intro hl)).trans (if_pos (envelope_iff.2 he)))
  · exact exec_onlyHalf_of_reply hc rfl ((if_neg (not_not_intro hl)).trans
      ((if_neg (mt envelope_iff.1 (not_not_intro he))).trans
        (if_neg (mt zero_iff.1 (not_not_intro hz)))))

/-- Settles O30: the state check of rule R103, then the release. -/
theorem hwFreeReleasesRing : Obligations.HwFreeReleasesRing := by
  intro s c d hc h
  exact ⟨fun hl => answersOnly_of_reply (if_pos hl),
    fun hl => exec_onlyHalf_of_reply hc rfl (if_neg (not_not_intro hl))⟩

/-! ## `PREPARE` -/

/-- The state in which `PREPARE` asks for the bus channel: the codec is bound, the frame size and the
positions are written, and the loop of a TX half waits (rule R104). -/
def State.readyToStart (s : State) (c : Nat) (d : Dir) (sel : Codec) : State :=
  (s.setHalf c d ((s.half c d).prepared sel)).startLoop c d

theorem State.readyToStart_onlyChannel (s : State) (c : Nat) (d : Dir) (sel : Codec) (hc : c < s.nCh) :
    OnlyChannel s (s.readyToStart c d sel) c d ((s.half c d).prepared sel)
      ((s.loop c).prepared .wait d) [] := by
  rw [State.readyToStart, State.startLoop_eq, State.loop_setHalf]
  exact (onlyHalf_setHalf s c d ((s.half c d).prepared sel) hc rfl).setLoop hc _

/-- The roll-back stops the loop that `PREPARE` started, if there is one. -/
theorem State.rollBackLoop_eq {s : State} {c : Nat} {d : Dir} {lp : Loop}
    (h : s.loop c = lp.prepared .wait d) : s.rollBackLoop c d = s.setLoop c (lp.prepared .idle d) := by
  cases d with
  | rx => exact h ▸ (s.setLoop_self c).symm
  | tx => rw [State.rollBackLoop, h]; rfl

section
variable {s t : State} {c : Nat} {d : Dir}

/-- `START_CHANNEL` is asked exactly of a half that is bound (rule R104). -/
theorem State.startBound_of_unbound (hb : (s.half c d).bound = false) :
    s.startBound c d = (false, s) := if_neg (by simp [hb])

theorem State.startBound_of_bound (hb : (s.half c d).bound = true) :
    s.startBound c d = (s.nextStartAnswer, s.afterStartAnswer.emit
      (.startChannel (s.half c d).bind (s.chan c).ppx s.nextStartAnswer)) :=
  (if_pos hb).trans (s.startChannel_eq _ _)

/-- What the next answer is depends on the model's own two fields only. -/
theorem KeepsRest.nextStartAnswer_eq (h : KeepsRest s t) : t.nextStartAnswer = s.nextStartAnswer := by
  simp only [State.nextStartAnswer, h.startAnswers, h.startDraws]

theorem State.half_afterStartAnswer (s : State) (c : Nat) (d : Dir) :
    s.afterStartAnswer.half c d = s.half c d := State.half_congr s.chans_afterStartAnswer c d

theorem State.loop_afterStartAnswer (s : State) (c : Nat) :
    s.afterStartAnswer.loop c = s.loop c := State.loop_congr s.chans_afterStartAnswer c

theorem State.chan_afterStartAnswer (s : State) (c : Nat) :
    s.afterStartAnswer.chan c = s.chan c := by simp only [State.chan, s.chans_afterStartAnswer]

theorem State.readByte_afterStartAnswer (s : State) (sp : Space) (k : Nat) :
    s.afterStartAnswer.readByte sp k = s.readByte sp k := by
  cases sp <;> simp [State.readByte, State.mem, State.half_afterStartAnswer, State.unitOf]

theorem State.nCh_afterStartAnswer (s : State) : s.afterStartAnswer.nCh = s.nCh := by
  rw [State.nCh, s.chans_afterStartAnswer, State.nCh]

theorem State.startAnswers_afterStartAnswer (s : State) :
    s.afterStartAnswer.startAnswers = s.startAnswers.tail := by
  unfold State.afterStartAnswer
  split <;> simp [*]

theorem State.startDraws_afterStartAnswer (s : State) :
    s.afterStartAnswer.startDraws = if s.startAnswers = [] then s.startDraws + 1 else s.startDraws := by
  unfold State.afterStartAnswer
  split <;> simp [*]

theorem State.copyElapsed_afterStartAnswer (s : State) :
    s.afterStartAnswer.copyElapsed = s.copyElapsed := by
  unfold State.afterStartAnswer
  split <;> rfl

theorem KeepsRest.afterStartAnswer (h : KeepsRest s t) :
    KeepsRest s.afterStartAnswer t.afterStartAnswer where
  nCh := by simpa only [State.nCh_afterStartAnswer] using h.nCh
  periodMax := by simpa only [State.periodMax_afterStartAnswer] using h.periodMax
  agenda := by simpa only [State.agenda_afterStartAnswer] using h.agenda
  startAnswers := by rw [State.startAnswers_afterStartAnswer, h.startAnswers,
    ← State.startAnswers_afterStartAnswer]
  startDraws := by rw [State.startDraws_afterStartAnswer, h.startAnswers, h.startDraws,
    ← State.startDraws_afterStartAnswer]
  copyElapsed := by simpa only [State.copyElapsed_afterStartAnswer] using h.copyElapsed

/-- Using up an answer on both sides leaves what a change of a half and its loop is. -/
theorem OnlyChannel.afterStartAnswer {h : Half} {lp : Loop} {l : List Out}
    (hf : OnlyChannel s t c d h lp l) :
    OnlyChannel s.afterStartAnswer t.afterStartAnswer c d h lp l where
  half := (t.half_afterStartAnswer c d).trans hf.half
  halves := fun c' d' hn => by simpa only [State.half_afterStartAnswer] using hf.halves c' d' hn
  loop := (t.loop_afterStartAnswer c).trans hf.loop
  loops := fun c' hn => by simpa only [State.loop_afterStartAnswer] using hf.loops c' hn
  tunables := fun c' => by simpa only [State.chan_afterStartAnswer] using hf.tunables c'
  units := by
    simpa only [KeepsUnits, State.units_afterStartAnswer, State.pool_afterStartAnswer] using hf.units
  bytes := fun sp k => by simpa only [State.readByte_afterStartAnswer] using hf.bytes sp k
  rest := hf.rest.afterStartAnswer
  sent := by simpa only [Sent, State.out_afterStartAnswer] using hf.sent

theorem exec_prepare_of_noCodec (hl : (s.half c d).lstate = .opened)
    (ha : (s.half c d).ringAlloc = true)
    (hs : selectCodec (s.half c d).negFmt.width (s.half c d).negFmt.endian = none) :
    exec (.prepare c d) s =
      (s.setHalf c d { s.half c d with codec := .copy, codecValid := false }).reply .client
        .invalidParameter := by
  simp only [exec, execPrepare, hl, ha, hs, ne_eq, not_true_eq_false, Bool.true_eq_false, or_self,
    if_false]

/-- `PREPARE` with a codec is decided by the answer to `START_CHANNEL`. -/
theorem exec_prepare_of_codec {sel : Codec} {ok : Bool} (hl : (s.half c d).lstate = .opened)
    (ha : (s.half c d).ringAlloc = true)
    (hs : selectCodec (s.half c d).negFmt.width (s.half c d).negFmt.endian = some sel)
    (hb : (s.readyToStart c d sel).startBound c d = (ok, t)) :
    exec (.prepare c d) s =
      if ok then
        (t.setHalf c d { t.half c d with started := true, lstate := .prepared }).reply .client .ok
      else (t.rollBackLoop c d).reply .client .deviceBusy := by
  rw [State.readyToStart] at hb
  simp only [exec, execPrepare, hl, ha, hs, hb, ne_eq, not_true_eq_false, Bool.true_eq_false, or_self,
    if_false]
  cases ok <;> rfl

/-- `PREPARE` whose bus channel starts. `s0` is the state before it, but for a used answer. -/
theorem exec_prepare_started {s0 : State} {sel : Codec} {lp : Loop} {l : List Out} (hc : c < s0.nCh)
    (he : exec (.prepare c d) s =
      (t.setHalf c d { t.half c d with started := true, lstate := .prepared }).reply .client .ok)
    (hf : OnlyChannel s0 t c d ((s.half c d).prepared sel) (lp.prepared .wait d) l) :
    ∃ r, exec (.prepare c d) s = .next r ∧
      OnlyChannel s0 r c d { (s.half c d).prepared sel with started := true, lstate := .prepared }
        (lp.prepared .wait d) (l ++ [answered .client .ok]) := by
  rw [hf.half] at he
  exact ⟨_, he, (hf.setHalf (h' := { (s.half c d).prepared sel with
    started := true, lstate := .prepared }) hc rfl).emit _⟩

/-- `PREPARE` whose bus channel does not start. -/
theorem exec_prepare_rolledBack {s0 : State} {h : Half} {lp : Loop} {l : List Out} (hc : c < s0.nCh)
    (he : exec (.prepare c d) s = (t.rollBackLoop c d).reply .client .deviceBusy)
    (hf : OnlyChannel s0 t c d h (lp.prepared .wait d) l) :
    ∃ r, exec (.prepare c d) s = .next r ∧
      OnlyChannel s0 r c d h (lp.prepared .idle d) (l ++ [answered .client .deviceBusy]) := by
  rw [State.rollBackLoop_eq hf.loop] at he
  exact ⟨_, he, (hf.setLoop hc _).emit _⟩

end

/-- Settles O31: the state check of rule R104, then a width that selects no codec (rule R86). -/
theorem prepareRejectsAndUnbindsCodec : Obligations.PrepareRejectsAndUnbindsCodec := by
  intro s c d hc h
  refine ⟨fun hbad => answersOnly_of_reply (if_pos hbad), fun hl ha h8 h16 h24 h32 => ?_⟩
  have hs : selectCodec h.negFmt.width h.negFmt.endian = none :=
    selectCodec_eq_none _ (BitVec.toNat_ne.1 h8) (BitVec.toNat_ne.1 h16) (BitVec.toNat_ne.1 h24)
      (BitVec.toNat_ne.1 h32)
  exact exec_onlyHalf_of_reply hc rfl (exec_prepare_of_noCodec hl ha hs)

/-- Settles O32: without a binding the bus channel is not asked; with one its answer decides between the
roll-back and the prepared stream. -/
theorem prepareStartsStream : Obligations.PrepareStartsStream := by
  intro s c d sel hc h h1 lp hl ha hs
  have hlp : ∀ p, lp p = (s.loop c).prepared p d := fun p => by cases d <;> rfl
  rw [hlp, hlp]
  have ready := s.readyToStart_onlyChannel c d sel hc
  have hbound : ((s.readyToStart c d sel).half c d).bound = h.bound := by rw [ready.half]; rfl
  refine ⟨fun hb => ?_, fun hb hno => ?_, fun hb hyes => ?_⟩
  · have hstart := State.startBound_of_unbound (hbound.trans hb)
    exact exec_prepare_rolledBack hc (exec_prepare_of_codec hl ha hs hstart) ready
  all_goals
    have hstart := State.startBound_of_bound (hbound.trans hb)
    rw [ready.rest.nextStartAnswer_eq, ready.half, (ready.tunables c).1] at hstart
    have hc' : c < s.afterStartAnswer.nCh := s.nCh_afterStartAnswer.symm ▸ hc
    have asked := fun b => ready.afterStartAnswer.emit (.startChannel h.bind (s.chan c).ppx b)
  · rw [hno] at hstart
    exact exec_prepare_rolledBack hc' (exec_prepare_of_codec hl ha hs hstart) (asked false)
  · rw [hyes] at hstart
    exact exec_prepare_started hc' (exec_prepare_of_codec hl ha hs hstart) (asked true)

/-! ## The triggers -/

/-- Settles O33: the state check of rule R105, the binding check, then `RUNNING`. -/
theorem triggerStartRuns : Obligations.TriggerStartRuns := by
  intro s c d hc h
  have accepted (hl : h.lstate = .prepared ∨ h.lstate = .stopped) :
      ¬ (h.lstate ≠ .prepared ∧ h.lstate ≠ .stopped) := fun ⟨hp, hs⟩ => hl.elim hp hs
  exact ⟨fun hp hs => answersOnly_of_reply (if_pos ⟨hp, hs⟩),
    fun hl hb => answersOnly_of_reply ((if_neg (accepted hl)).trans (if_pos hb)),
    fun hl hb => exec_onlyHalf_of_reply hc rfl
      ((if_neg (accepted hl)).trans (if_neg (ne_false_of_eq_true hb)))⟩

/-- Settles O34: the state check of rule R106, then `RUNNING` is cleared. -/
theorem triggerStopStops : Obligations.TriggerStopStops := by
  intro s c d hc h
  exact ⟨fun hl => answersOnly_of_reply (if_pos hl),
    fun hl => exec_onlyHalf_of_reply hc rfl (if_neg (not_not_intro hl))⟩

/-! ## `CLOSE` and its completion -/

/-- The stop signal reaches a loop that exists, which only a TX half has (rule R107). -/
theorem Loop.closed_eq (l : Loop) (d : Dir) :
    l.closed d = if d = .tx ∧ l.phase ≠ .idle then { l with stopReq := true } else l := by
  cases d <;> simp [Loop.closed]

/-- Settles O35: the state check of rule R107, then the signal and the move to `CLOSING`. -/
theorem closeIsAcceptedWithoutAnswer : Obligations.CloseIsAcceptedWithoutAnswer := by
  intro s c d hc h accepted
  have refused_iff :
      (h.lstate ≠ .opened ∧ h.lstate ≠ .prepared ∧ h.lstate ≠ .stopped) ↔ ¬ accepted := by
    simp only [accepted, ne_eq, not_or]
  refine ⟨fun hl => answersOnly_of_reply (if_pos (refused_iff.2 hl)), fun hl => ?_⟩
  refine ⟨_, if_neg (mt refused_iff.1 (not_not_intro hl)), ?_⟩
  rw [← Loop.closed_eq, State.requestStop_eq]
  exact onlyChannel_setHalf_setLoop s c d _ _ hc rfl

theorem State.clearStop_onlyChannel (s : State) (c : Nat) (d : Dir) (hc : c < s.nCh) :
    OnlyChannel s (s.clearStop c d) c d (s.half c d) ((s.loop c).finished d) [] := by
  rw [State.clearStop_eq]
  exact onlyChannel_setLoop s c d _ hc

/-- `STOP_CHANNEL` is sent for a channel that was started and is still bound (rule R108). -/
theorem State.stopBound_onlyChannel (s : State) (c : Nat) (d : Dir) :
    OnlyChannel s (s.stopBound c d) c d (s.half c d) (s.loop c)
      (if (s.half c d).started = true ∧ (s.half c d).bound = true then
        [.stopChannel (s.half c d).bind] else []) := by
  simp only [State.stopBound, Bool.and_eq_true]
  split
  · exact (onlyChannel_refl s c d).emit _
  · exact onlyChannel_refl s c d

/-- Settles O36: the enabling condition of rule R108, then the signal is cleared, the bus channel stopped,
the half closed and the answer given. -/
theorem clFinishCompletesClose : Obligations.ClFinishCompletesClose := by
  intro s c d hc h enabled
  have enabled_iff : s.finishEnabled c d = true ↔ enabled := by
    rw [State.finishEnabled_iff]
    cases d <;> simp [enabled, h]
  refine ⟨fun hn => if_pos (Bool.eq_false_iff.2 (mt enabled_iff.1 hn)), fun he => ?_⟩
  refine ⟨_, if_neg (by simp [enabled_iff.2 he]), ?_⟩
  have cleared := s.clearStop_onlyChannel c d hc
  have stopped := cleared.trans ((s.clearStop c d).stopBound_onlyChannel c d)
  rw [cleared.half, cleared.loop, List.nil_append] at stopped
  rw [stopped.half]
  have closed := (stopped.setHalf hc (h' := { h with
    started := false, ringAlloc := false, lstate := .closed }) rfl).emit (.answer (.close c d) 0 0)
  cases d <;> exact closed

/-! ## `POINTER` and `RDREG` -/

/-- Settles O37: nothing is checked and nothing is written. -/
theorem pointerReturnsBufpos : Obligations.PointerReturnsBufpos :=
  fun s c d _ => ⟨_, rfl, onlySent_emit s (.answer (.packet .client) 0 (s.half c d).bufPos)⟩

/-- The bits of `FLAGS` (rule R14). -/
theorem flagsWord_bits (h : Half) (stopReq pe : Bool) :
    let v := flagsWord h stopReq pe
    v.getLsbD 0 = h.running ∧ v.getLsbD 1 = h.started ∧ v.getLsbD 2 = h.bound ∧
    v.getLsbD 3 = h.ringAlloc ∧ v.getLsbD 4 = h.substream ∧ v.getLsbD 5 = h.codecValid ∧
    v.getLsbD 6 = stopReq ∧ v.getLsbD 7 = pe := by
  simp only [flagsWord, BitVec.getLsbD_append, BitVec.getLsbD_ofBool]
  simp

theorem toNat_flagsWord_lt (h : Half) (stopReq pe : Bool) : (flagsWord h stopReq pe).toNat < 256 := by
  have low (v : BitVec 8) : ((0 : BitVec 24) ++ v).toNat < 256 := by
    rw [BitVec.toNat_append]
    simpa using v.isLt
  exact low _

/-- `STOP_REQ`, `PE`, `LPHASE` and `LUNIT` are the loop's for a TX half and 0 for an RX half (rules R17,
R110). -/
theorem State.regValue_flags (s : State) (c : Nat) (d : Dir) :
    s.regValue c d .flags = flagsWord (s.half c d) (decide (d = .tx) && (s.loop c).stopReq)
      (decide (d = .tx) && (s.loop c).pe) := by
  cases d <;> rfl

theorem State.regValue_lphase (s : State) (c : Nat) (d : Dir) :
    s.regValue c d .lphase = if d = .tx then (s.loop c).phase.toWord else 0 := by
  cases d <;> rfl

theorem State.regValue_lunit (s : State) (c : Nat) (d : Dir) :
    s.regValue c d .lunit = if d = .tx then (s.loop c).lunit else 0 := by
  cases d <;> rfl

/-- Settles O38, register by register. -/
theorem rdregReturnsRegister : Obligations.RdregReturnsRegister := by
  intro s c d r _ h
  refine ⟨_, s.regValue c d r, rfl, onlySent_emit s _, ?_⟩
  cases r with
  | flags =>
    rw [State.regValue_flags]
    obtain ⟨b0, b1, b2, b3, b4, b5, b6, b7⟩ := flagsWord_bits h (decide (d = .tx) && (s.loop c).stopReq)
      (decide (d = .tx) && (s.loop c).pe)
    exact ⟨b0, b1, b2, b3, b4, b5, b6, b7, toNat_flagsWord_lt _ _ _⟩
  | negFmt => exact h.negFmt.toWord_fields
  | bind => exact h.bind.toWord_fields
  | envCh => exact h.envCh.toWord_fields
  | cfgCh => exact h.cfgCh.toWord_fields
  | lphase => exact s.regValue_lphase c d
  | lunit => exact s.regValue_lunit c d
  | _ => rfl

end Sys2Proof.Machine
end

section
/-! PROOFS. The state machine of rule R100. -/

namespace Sys2Proof.Machine

/-- Half `(c, d)`, which is `h`, stays at its lifecycle state or moves to the last argument along the table of
rule R100, by the instruction the table names for it. -/
inductive LifecycleMove (c : Nat) (d : Dir) (h : Half) : Instr → LState → Prop where
  | stay (i : Instr) : LifecycleMove c d h i h.lstate
  | opened (hl : h.lstate = .closed) : LifecycleMove c d h (.openHalf c d) .opened
  | prepared (hl : h.lstate = .opened) (ha : h.ringAlloc = true) :
    LifecycleMove c d h (.prepare c d) .prepared
  | started (hl : h.lstate = .prepared ∨ h.lstate = .stopped) :
    LifecycleMove c d h (.triggerStart c d) .running
  | stopped (hl : h.lstate = .running) : LifecycleMove c d h (.triggerStop c d) .stopped
  | closing (hl : h.lstate = .opened ∨ h.lstate = .prepared ∨ h.lstate = .stopped) :
    LifecycleMove c d h (.closeHalf c d) .closing
  | closed (hl : h.lstate = .closing) : LifecycleMove c d h (.clFinish c d) .closed

section
variable {c : Nat} {d : Dir} {i : Instr}

/-- Setting one half of a Channel leaves the other where it is. -/
theorem LifecycleMove.setHalf {ch : Channel} {e : Dir} {h : Half}
    (hm : LifecycleMove c e (ch.half e) i h.lstate) :
    LifecycleMove c d (ch.half d) i ((ch.setHalf e h).half d).lstate := by
  rw [Channel.half_setHalf]
  split
  · rename_i he
    exact he ▸ hm
  · exact .stay i

/-- Setting the loop leaves both halves where they are. -/
theorem LifecycleMove.setLoop {ch : Channel} {h : Half} {l : Loop}
    (hm : LifecycleMove c d h i (ch.half d).lstate) :
    LifecycleMove c d h i ((ch.setLoop l).half d).lstate := by
  rwa [Channel.half_setLoop]

/-- One direction of `DISCONNECT`: clearing a binding moves no lifecycle state (rule R132). -/
theorem LifecycleMove.disconnect {P : Prop} {h h' : Half} (hh : h' = h ∨ (P ∧ h' = h.unbound)) :
    LifecycleMove c d h i h'.lstate := by
  rcases hh with rfl | ⟨-, rfl⟩ <;> exact .stay i

end

/-- Every change of a Channel moves a half along the table or not at all. -/
theorem ChanStep.lifecycleMove {s : State} {c : Nat} {i : Instr} {ch : Channel}
    (h : ChanStep s c i ch) (d : Dir) : LifecycleMove c d (s.half c d) i (ch.half d).lstate := by
  cases h with
  | same | wrPpx | wrBufsz => cases d <;> exact .stay _
  | opened e hl => exact .setHalf (.opened hl)
  | prepared e sel hl ha => exact .setLoop (.setHalf (.prepared hl ha))
  | triggerStart e hl => exact .setHalf (.started hl)
  | triggerStop e hl => exact .setHalf (.stopped hl)
  | close e hl => exact .setLoop (.setHalf (.closing hl))
  | finish e hl => exact .setLoop (.setHalf (.closed hl))
  | hwParams | hwFree | prepareUnsupported | connect | capture | copyRx | copyTx | convert =>
    exact .setHalf (.stay _)
  | prepareFailed | fill => exact .setLoop (.setHalf (.stay _))
  | waitStop | waitAcquire | silence | submit | notify => exact .setLoop (.stay _)
  | disconnect ifid rx tx hr ht =>
    cases d with
    | rx => exact .disconnect hr
    | tx => exact .disconnect ht

/-- Settles O40: whatever `ChanStep` makes of a half, its lifecycle state moves only as `LifecycleMove`
says. -/
theorem lifecycleFollowsTable : Obligations.LifecycleFollowsTable := by
  intro i s t c d h
  have hm : LifecycleMove c d (s.half c d) i (t.half c d).lstate := (exec_chan h c).lifecycleMove d
  dsimp only
  generalize (t.half c d).lstate = b at hm ⊢
  cases hm with
  | stay => exact .inl rfl
  | opened hl => exact .inr (.inl ⟨rfl, hl, rfl⟩)
  | prepared hl ha => exact .inr (.inr (.inl ⟨rfl, hl, ha, rfl⟩))
  | started hl => exact .inr (.inr (.inr (.inl ⟨rfl, hl, rfl⟩)))
  | stopped hl => exact .inr (.inr (.inr (.inr (.inl ⟨rfl, hl, rfl⟩))))
  | closing hl => exact .inr (.inr (.inr (.inr (.inr (.inl ⟨rfl, hl, rfl⟩)))))
  | closed hl => exact .inr (.inr (.inr (.inr (.inr (.inr ⟨rfl, hl, rfl⟩)))))

end Sys2Proof.Machine
end

section
/-! PROOFS. The four steps of the Playback Supply Loop (rules R121 to R124): what each does in the phase it
belongs to, and what it leaves alone. -/

namespace Sys2Proof.Machine

/-! ## `SL.WAIT`, `SL.SUBMIT` and `SL.NOTIFY` -/

section
variable {s : State} {c : Nat}

theorem exec_slWait_of_stop (hphase : (s.loop c).phase = .wait) (hstop : (s.loop c).stopReq = true) :
    exec (.slWait c) s = .next (s.setLoop c { s.loop c with phase := .idle }) := by
  simp only [exec, execSlWait, hphase, hstop, ne_eq, not_true_eq_false, if_false, if_true]

/-- Without a stop request the step acquires, where the stream runs and is bound, or stays blocked. -/
theorem exec_slWait_of_noStop (hphase : (s.loop c).phase = .wait)
    (hstop : (s.loop c).stopReq = false) :
    exec (.slWait c) s =
      if (s.half c .tx).running && (s.half c .tx).bound then
        match s.acquire (s.half c .tx).bind with
        | none => .next s
        | some (u, s1) => .next (s1.setLoop c { s.loop c with lunit := u, phase := .fill })
      else .next s :=
  (if_neg (not_not_intro hphase)).trans (if_neg (ne_true_of_eq_false hstop))

/-- A pool that is not empty answers its first unit (rule R33, log entry 8). -/
theorem State.acquire_of_poolOf {ifid : IfId} {u : Word} {us : List Word}
    (hpool : s.poolOf ifid = u :: us) :
    s.acquire ifid = some (u, { s with pool := s.pool.erase u }.emit (.acquire ifid u)) := by
  simp only [State.acquire, hpool]

/-- Sending one message and then setting the Supply Loop. -/
theorem onlyLoop_emit_setLoop (s : State) (o : Out) (lp : Loop) (hc : c < s.nCh) :
    OnlyLoop s ((s.emit o).setLoop c lp) c lp [o] :=
  ((onlyChannel_refl s c .tx).emit o).setLoop hc lp

/-- Settles O41: the stop is looked at first, then the stream and its pool. -/
theorem slWaitStopsAcquiresOrBlocks : Obligations.SlWaitStopsAcquiresOrBlocks := by
  intro s c hc hphase l h
  refine ⟨fun hstop => ⟨_, exec_slWait_of_stop hphase hstop, onlyLoop_setLoop s c _ hc⟩,
    fun u us hstop hrun hbound hpool => ?_, fun hstop hblocked => ?_⟩
  · refine ⟨_, ?_, onlyLoop_emit_setLoop { s with pool := s.pool.erase u } (.acquire h.bind u) _ hc⟩
    rw [exec_slWait_of_noStop hphase hstop, hrun, hbound, State.acquire_of_poolOf hpool]
    rfl
  · rw [exec_slWait_of_noStop hphase hstop]
    rcases hblocked with hrun | hbound | hpool
    · exact if_neg (by simp [h, hrun])
    · exact if_neg (by simp [h, hbound])
    · rw [State.acquire_eq_none.2 hpool]
      exact ite_self _

/-- Settles O44: only the phase is looked at. -/
theorem slSubmitHandsUnitBack : Obligations.SlSubmitHandsUnitBack :=
  fun s c hc hphase =>
    ⟨_, if_neg (not_not_intro hphase), onlyLoop_emit_setLoop s (.submit (s.loop c).lunit) _ hc⟩

/-- Settles O45, by whether `PE` is set. -/
theorem slNotifyReportsPeriod : Obligations.SlNotifyReportsPeriod := by
  intro s c hc hphase
  refine ⟨_, if_neg (not_not_intro hphase), ?_⟩
  cases (s.loop c).pe with
  | true => exact onlyLoop_emit_setLoop s (.periodElapsed c .tx) _ hc
  | false => exact onlyLoop_setLoop s c _ hc

end

/-! ## Silence and padding -/

theorem KeepsTunables.trans {s t r : State} (h1 : KeepsTunables s t) (h2 : KeepsTunables t r) :
    KeepsTunables s r := fun c =>
  ⟨(h2 c).1.trans (h1 c).1, (h2 c).2.trans (h1 c).2⟩

theorem Sent.trans {s t r : State} {l l' : List Out} (h1 : Sent s t l) (h2 : Sent t r l') :
    Sent s r (l ++ l') := by
  unfold Sent at h1 h2 ⊢
  rw [h2, h1, List.append_assoc]

section
variable {s t : State} {u : Word} {x : TransferUnit}

theorem State.memSize_unit (hu : s.unitOf u = some x) : s.memSize (.unit u) = some x.cap := by
  simp only [State.memSize, hu]

/-- The bytes of a live unit after silence or padding. -/
theorem State.readByte_zeroUnit (hu : s.unitOf u = some x) {o n k : Nat} (hlo : o ≤ k)
    (hhi : k < o + n) : (s.zeroUnit u o n).readByte (.unit u) k = 0 := by
  obtain ⟨i, rfl⟩ := Nat.le.dest hlo
  have hi : i < (List.replicate n (0 : Byte)).length := by simp; omega
  rw [State.zeroUnit, State.readByte_setMem (State.memSize_unit hu), if_pos rfl,
    Memory.read_writeBytes_inside _ _ _ _ _ hi, List.getElem_replicate]

theorem State.zeroUnit_onlyBytes (hu : s.unitOf u = some x) (o n : Nat) :
    OnlyBytes s (s.zeroUnit u o n) (.unit u) o n :=
  onlyBytes_setMem (State.memSize_unit hu) fun k hk =>
    Memory.read_writeBytes_outside _ _ o k _ (by rwa [List.length_replicate])

theorem State.half_zeroUnit (s : State) (u : Word) (o n c : Nat) (d : Dir) :
    (s.zeroUnit u o n).half c d = s.half c d := State.half_congr (s.chans_zeroUnit u o n) c d

/-- A unit whose shape is kept stays live. -/
theorem KeepsUnitShapes.exists_unitOf (hk : KeepsUnitShapes s t) (hu : s.unitOf u = some x) :
    ∃ y, t.unitOf u = some y := by
  have hshape := hk u
  rw [hu, Option.map_some, Option.map_eq_some_iff] at hshape
  obtain ⟨y, hy, -⟩ := hshape
  exact ⟨y, hy⟩

end

/-! ## `SL.FILL` -/

/-- How both branches of `SL.FILL` end, `used` bytes of a unit of `cap` bytes having been filled: the rest
of the unit is zeroed, `PE` is set to `pe` and the unit is ready to be submitted (rule R122). -/
def State.endFill (s : State) (c used cap : Nat) (pe : Bool) : State :=
  (s.zeroUnit (s.loop c).lunit used (cap - used)).setLoop c
    { s.loop c with pe := pe, phase := .submit }

/-- Everything `State.endFill` does, and all it leaves alone. -/
structure FillEnded (s t : State) (c used cap : Nat) (pe : Bool) : Prop where
  zeroed : ∀ o, used ≤ o → o < cap → t.readByte (.unit (s.loop c).lunit) o = 0
  bytes : KeepsBytesBut s t (fun sp o => sp = .unit (s.loop c).lunit ∧ used ≤ o ∧ o < cap)
  loop : t.loop c = { s.loop c with pe := pe, phase := .submit }
  halves : KeepsHalvesBut s t (fun _ _ => False)
  loops : KeepsLoopsBut s t (fun c' => c' = c)
  tunables : KeepsTunables s t
  shapes : KeepsUnitShapes s t
  pool : t.pool = s.pool
  rest : KeepsRest s t
  sent : Sent s t []

section
variable {s s1 : State} {c used cap : Nat} {x : TransferUnit} {pe : Bool}

theorem State.fillEnded_endFill (hc : c < s.nCh) (hu : s.unitOf (s.loop c).lunit = some x) :
    FillEnded s (s.endFill c used cap pe) c used cap pe := by
  have only := State.zeroUnit_onlyBytes hu used (cap - used)
  have hloop := onlyLoop_setLoop (s.zeroUnit (s.loop c).lunit used (cap - used)) c
    { s.loop c with pe := pe, phase := .submit } (only.rest.nCh ▸ hc)
  exact {
    zeroed := fun o hlo hhi => (hloop.bytes _ o).trans (State.readByte_zeroUnit hu hlo (by omega))
    bytes := fun sp o hn => (hloop.bytes sp o).trans
      (only.bytes sp o fun ⟨hsp, hlo, hhi⟩ => hn ⟨hsp, hlo, by omega⟩)
    loop := hloop.loop
    halves := fun c' d' _ => (State.half_setLoop ..).trans (State.half_zeroUnit ..)
    loops := fun c' hn => (hloop.loops c' hn).trans (only.loops c' id)
    tunables := only.tunables.trans hloop.tunables
    shapes := only.units
    pool := only.pool
    rest := only.rest.trans hloop.rest
    sent := only.sent }

theorem exec_slFill_of_stopped (hphase : (s.loop c).phase = .fill)
    (hu : s.unitOf (s.loop c).lunit = some x) (hrun : (s.half c .tx).running = false) :
    exec (.slFill c) s = .next (s.endFill c 0 x.cap false) := by
  simp only [exec, execSlFill, hphase, hu, hrun, ne_eq, not_true_eq_false, if_false,
    Bool.false_eq_true]
  rfl

/-- A copy leaves the loop alone, so that the fill of a running stream ends from the state after its copy. -/
theorem exec_slFill_of_running (hphase : (s.loop c).phase = .fill)
    (hu : s.unitOf (s.loop c).lunit = some x) (hrun : (s.half c .tx).running = true)
    (hk : s.copyFrames c .tx (s.loop c).lunit ((s.half c .tx).frameCount x.cap) = .ok (s1, pe)) :
    exec (.slFill c) s = .next (s1.endFill c
      ((s.half c .tx).frameCount x.cap * (s.half c .tx).frameBytes.toNat) x.cap pe) := by
  simp only [exec, execSlFill, hphase, hu, hrun, hk, ne_eq, not_true_eq_false, if_false, if_true]
  rw [State.endFill, (State.copyFrames_frame hk).loops c id]

end

/-- Settles O42: the copy plays back and moves the positions; the end of the fill keeps what it wrote and
zeroes the tail. -/
theorem slFillDrainsRing : Obligations.SlFillDrainsRing := by
  intro s c x hc hphase hu hrun l h n hp hg
  obtain ⟨s1, pe, hk⟩ := State.copyFrames_ok hu hp hg
  obtain ⟨hplayed, hkept⟩ := State.copyFrames_playedBack hg hk
  obtain ⟨hmoved, hpe⟩ := State.copyFrames_moved hc hk
  have copy := State.copyFrames_frame hk
  have hl : s1.loop c = s.loop c := copy.loops c id
  obtain ⟨y, hy⟩ := copy.shapes.exists_unitOf hu
  obtain ⟨zeroed, bytes, loop, halves, loops, tunables, shapes, pool, rest, sent⟩ :=
    State.fillEnded_endFill (used := n * h.frameBytes.toNat) (cap := x.cap) (pe := pe)
      (copy.rest.nCh ▸ hc) (hl ▸ hy)
  rw [hl] at zeroed bytes loop
  have hin : n * h.frameBytes.toNat ≤ x.cap := hp.in_unit
  refine ⟨_, exec_slFill_of_running hphase hu hrun hk, fun j hj => ?_, zeroed, fun sp o ho => ?_, ?_,
    hpe ▸ loop, fun c' d' hn => (halves c' d' id).trans (copy.halves c' d' hn),
    fun c' hn => (loops c' hn).trans (copy.loops c' id),
    copy.tunables.trans tunables, fun v => (shapes v).trans (copy.shapes v), pool.trans copy.pool,
    copy.rest.trans rest, copy.sent.trans sent⟩
  · have hcopied : ¬ n * h.frameBytes.toNat ≤ j := Nat.not_le_of_lt hj
    exact (bytes _ j fun hn => hcopied hn.2.1).trans (hplayed j hj)
  · exact (bytes sp o fun hn => ho ⟨hn.1, hn.2.2⟩).trans
      (hkept sp o fun hn => ho ⟨hn.1, Nat.lt_of_lt_of_le hn.2 hin⟩)
  · exact (halves c .tx id).symm ▸ hmoved

/-- Settles O43: a fill that uses no byte for frames zeroes them all. -/
theorem slFillWritesSilence : Obligations.SlFillWritesSilence := by
  intro s c x hc hphase hu hrun l
  obtain ⟨zeroed, bytes, loop, halves, loops, tunables, shapes, pool, rest, sent⟩ :=
    State.fillEnded_endFill (used := 0) (cap := x.cap) (pe := false) hc hu
  exact ⟨_, exec_slFill_of_stopped hphase hu hrun, fun o => zeroed o (Nat.zero_le o),
    fun sp o hn => bytes sp o fun ⟨hsp, _, hhi⟩ => hn ⟨hsp, hhi⟩, loop, halves, loops, tunables, shapes,
    pool, rest, sent⟩

end Sys2Proof.Machine
end

section
/-! PROOFS. The Channel that an argument string names (rule R131). -/

namespace Sys2Proof.Machine

theorem isDigit_iff {b : Byte} : isDigit b = true ↔ 0x30 ≤ b.toNat ∧ b.toNat ≤ 0x39 := by
  simp only [isDigit, Bool.and_eq_true, decide_eq_true_eq]

/-- Bytes that are no digits are passed over. -/
theorem parseId_append_of_not_isDigit {pre : List Byte} (hpre : ∀ b ∈ pre, ¬ isDigit b = true)
    (rest : List Byte) : parseId (pre ++ rest) = parseId rest := by
  induction pre with
  | nil => rfl
  | cons b bs ih =>
    obtain ⟨hb, hbs⟩ := List.forall_mem_cons.1 hpre
    exact (if_neg hb).trans (ih hbs)

theorem parseId_of_head_isDigit {b : Byte} (hb : isDigit b = true) (bs : List Byte) :
    parseId (b :: bs) = some (digitRun 0 (b :: bs)) := if_pos hb

/-- A run of digits ends where the string does or at a byte that is no digit. -/
theorem digitRun_eq_acc {post : List Byte} (hpost : ∀ b ∈ post.head?, ¬ isDigit b = true) (acc : Nat) :
    digitRun acc post = acc := by
  cases post with
  | nil => rfl
  | cons b bs => exact if_neg (hpost b rfl)

/-- The value of a maximal run of digits, after digits worth `acc`. -/
theorem digitRun_append {run post : List Byte} (hrun : ∀ b ∈ run, isDigit b = true)
    (hpost : ∀ b ∈ post.head?, ¬ isDigit b = true) (acc : Nat) :
    digitRun acc (run ++ post) = run.foldl (fun acc b => 10 * acc + (b.toNat - 0x30)) acc := by
  induction run generalizing acc with
  | nil => exact digitRun_eq_acc hpost acc
  | cons b bs ih =>
    obtain ⟨hb, hbs⟩ := List.forall_mem_cons.1 hrun
    exact (if_pos hb).trans (ih hbs _)

/-- Settles O47: the digitless bytes are passed over, then the run is read up to its end. -/
theorem parseIdReadsFirstDigitRun : Obligations.ParseIdReadsFirstDigitRun := by
  simp only [Obligations.ParseIdReadsFirstDigitRun, ← isDigit_iff]
  refine ⟨fun args hargs => ?_, fun pre run post hpre hne hrun hpost => ?_⟩
  · exact (congrArg parseId args.append_nil).symm.trans (parseId_append_of_not_isDigit hargs [])
  · rw [List.append_assoc, parseId_append_of_not_isDigit hpre]
    cases run with
    | nil => exact absurd rfl hne
    | cons b bs =>
      rw [List.cons_append, parseId_of_head_isDigit (hrun b List.mem_cons_self), ← List.cons_append,
        digitRun_append hrun hpost]

end Sys2Proof.Machine
end

section
/-! PROOFS. The events of the bus layer that bind and unbind halves, and `TX_SLOT_FREE` (rules R130, R132,
R134). -/

namespace Sys2Proof.Machine

/-- `Lookup` finds some half exactly when one is bound to the pair (rule R135). -/
theorem State.isSome_lookup {s : State} {d : Dir} {ifid : IfId} :
    (s.lookup d ifid).isSome = true ↔ ∃ c, s.BoundTo d ifid c := by
  cases hl : s.lookup d ifid with
  | none => exact ⟨fun h => (nomatch h), fun ⟨c, hb⟩ => absurd hb (State.lookup_eq_none.1 hl c)⟩
  | some c => exact ⟨fun _ => ⟨c, State.lookup_eq_some hl⟩, fun _ => rfl⟩

/-! ## `CONNECT` -/

section
variable {s : State} {ifid : IfId} {cfg : BusCfg} {args : List Byte} {c : Nat}

theorem exec_connect_of_no_id (hp : parseId args = none) :
    exec (.connect ifid cfg args) s = s.reply .bus .invalidParameter := by
  simp only [exec, execConnect, hp]

/-- The checks of rule R130 on a Channel number, in their order, and the binding. -/
theorem exec_connect_of_id (hp : parseId args = some c) :
    exec (.connect ifid cfg args) s =
      if s.nCh ≤ c then s.reply .bus .notFound
      else if (s.half c cfg.dir).bound then s.reply .bus .deviceBusy
      else if (s.lookup cfg.dir ifid).isSome then s.reply .bus .deviceBusy
      else (s.setHalf c cfg.dir
        { s.half c cfg.dir with bind := ifid, cfgRate := cfg.rate, cfgCh := cfg.ch, bound := true }).reply
          .bus .ok := by
  simp only [exec, execConnect, hp]

theorem exec_connect_of_busy (hp : parseId args = some c) (hc : c < s.nCh)
    (hbusy : (s.half c cfg.dir).bound = true ∨ ∃ c', s.BoundTo cfg.dir ifid c') :
    exec (.connect ifid cfg args) s = s.reply .bus .deviceBusy := by
  rw [exec_connect_of_id hp, if_neg (Nat.not_le_of_lt hc)]
  rcases hbusy with hbound | hclaimed
  · exact if_pos hbound
  · rw [if_pos (State.isSome_lookup.2 hclaimed), ite_self]

theorem exec_connect_of_free (hp : parseId args = some c) (hc : c < s.nCh)
    (hfree : (s.half c cfg.dir).bound = false) (hpair : ∀ c', ¬ s.BoundTo cfg.dir ifid c') :
    exec (.connect ifid cfg args) s = (s.setHalf c cfg.dir
      { s.half c cfg.dir with bind := ifid, cfgRate := cfg.rate, cfgCh := cfg.ch, bound := true }).reply
        .bus .ok := by
  rw [exec_connect_of_id hp, if_neg (Nat.not_le_of_lt hc), if_neg (ne_true_of_eq_false hfree),
    if_neg (mt State.isSome_lookup.1 (not_exists.2 hpair))]

end

/-- Settles O48: the checks of rule R130 one after the other, then the binding. -/
theorem connectBindsHalf : Obligations.ConnectBindsHalf := by
  intro s ifid cfg args i
  exact ⟨fun hp => answersOnly_of_reply (exec_connect_of_no_id hp),
    fun c hp hc => answersOnly_of_reply ((exec_connect_of_id hp).trans (if_pos hc)),
    fun c hp hc hbusy => answersOnly_of_reply (exec_connect_of_busy hp hc hbusy),
    fun c hp hc hfree hpair => exec_onlyHalf_of_reply hc rfl (exec_connect_of_free hp hc hfree hpair)⟩

/-! ## `DISCONNECT` -/

/-- No half but those of `P` changed, those only in registers, `l` was sent, and nothing else changed. -/
structure OnlyHalves (s t : State) (P : Nat → Dir → Prop) (l : List Out) : Prop where
  halves : KeepsHalvesBut s t P
  loops : KeepsLoopsBut s t (fun _ => False)
  tunables : KeepsTunables s t
  units : KeepsUnits s t
  bytes : KeepsBytes s t
  rest : KeepsRest s t
  sent : Sent s t l

section
variable {s t r : State} {P Q : Nat → Dir → Prop} {l l' : List Out}

theorem OnlySent.onlyHalves (h : OnlySent s t l) : OnlyHalves s t P l :=
  { h with halves := fun c d _ => h.halves c d id }

theorem OnlyHalves.mono (h : OnlyHalves s t P l) (hPQ : ∀ c d, P c d → Q c d) : OnlyHalves s t Q l :=
  { h with halves := fun c d hn => h.halves c d (mt (hPQ c d) hn) }

theorem OnlyHalves.trans (h1 : OnlyHalves s t P l) (h2 : OnlyHalves t r P l') :
    OnlyHalves s r P (l ++ l') where
  halves := fun c d hn => (h2.halves c d hn).trans (h1.halves c d hn)
  loops := fun c hn => (h2.loops c hn).trans (h1.loops c hn)
  tunables := h1.tunables.trans h2.tunables
  units := ⟨h2.units.1.trans h1.units.1, h2.units.2.trans h1.units.2⟩
  bytes := fun sp o => (h2.bytes sp o).trans (h1.bytes sp o)
  rest := h1.rest.trans h2.rest
  sent := h1.sent.trans h2.sent

end

theorem onlyHalves_refl (s : State) (P : Nat → Dir → Prop) : OnlyHalves s s P [] where
  halves := fun _ _ _ => rfl
  loops := fun _ _ => rfl
  tunables := fun _ => ⟨rfl, rfl⟩
  units := ⟨rfl, rfl⟩
  bytes := fun _ _ => rfl
  rest := keepsRest_refl s
  sent := (List.append_nil _).symm

theorem onlyHalves_setHalf (s : State) (c : Nat) (d : Dir) (h : Half)
    (hr : h.ring = (s.half c d).ring) :
    OnlyHalves s (s.setHalf c d h) (fun c' d' => c' = c ∧ d' = d) [] where
  halves := fun c' d' hn => s.half_setHalf_of_ne c c' d d' h hn
  loops := fun c' _ => s.loop_setHalf c c' d h
  tunables := fun c' => ⟨s.ppx_setHalf c c' d h, s.bufsz_setHalf c c' d h⟩
  units := ⟨rfl, rfl⟩
  bytes := fun sp k => State.readByte_setHalf_of_ring s c d h hr sp k
  rest := ⟨s.nCh_setHalf c d h, rfl, rfl, rfl, rfl, rfl⟩
  sent := (List.append_nil _).symm

section
variable {s : State} {d e : Dir} {ifid : IfId}

/-- One direction of `DISCONNECT` changes halves of that direction only, and those bound to the pair. -/
theorem State.unbind_onlyHalves (s : State) (d : Dir) (ifid : IfId) :
    OnlyHalves s (s.unbind d ifid) (fun c e => e = d ∧ s.BoundTo d ifid c) [] := by
  unfold State.unbind
  split
  · exact onlyHalves_refl s _
  · rename_i k hk
    refine (onlyHalves_setHalf s k d (s.half k d).unbound rfl).mono fun c e he => ?_
    obtain ⟨rfl, rfl⟩ := he
    exact ⟨rfl, State.lookup_eq_some hk⟩

theorem State.half_unbind_of_ne (hne : e ≠ d) (c : Nat) :
    (s.unbind d ifid).half c e = s.half c e :=
  (s.unbind_onlyHalves d ifid).halves c e fun h => hne h.1

/-- With unique bindings every half bound to the pair is the one that `Lookup` finds. -/
theorem State.half_unbind_of_bound (hu : s.BindingsUnique) {c : Nat} (hb : s.BoundTo d ifid c) :
    (s.unbind d ifid).half c d = (s.half c d).unbound := by
  simp only [State.unbind, State.lookup_of_bound hu hb]
  exact s.half_setHalf_self c d _ hb.1

theorem State.boundTo_unbind_of_ne (hne : e ≠ d) {ifid' : IfId} {c : Nat} :
    (s.unbind d ifid).BoundTo e ifid' c ↔ s.BoundTo e ifid' c := by
  simp only [State.BoundTo, State.nCh_unbind, State.half_unbind_of_ne hne]

/-- Clearing bindings makes none. -/
theorem bindingsFrom_unbind (s : State) (d : Dir) (ifid : IfId) :
    BindingsFrom s (s.unbind d ifid) := by
  intro c e hb
  rcases s.unbind_half d ifid c e with h | ⟨-, -, h⟩
  · exact ⟨h ▸ hb, by rw [h]⟩
  · rw [h] at hb
    cases hb

end

/-- Settles O49: the two directions one after the other, neither of which touches the halves of the
other. -/
theorem disconnectClearsBindings : Obligations.DisconnectClearsBindings := by
  intro s ifid hu
  have rx_ne : Dir.rx ≠ .tx := by decide
  have tx_of_s {c : Nat} : (s.unbind .rx ifid).BoundTo .tx ifid c ↔ s.BoundTo .tx ifid c :=
    State.boundTo_unbind_of_ne rx_ne.symm
  have first : OnlyHalves s (s.unbind .rx ifid) (fun c d => s.BoundTo d ifid c) [] :=
    (s.unbind_onlyHalves .rx ifid).mono fun c d ⟨hd, hb⟩ => hd ▸ hb
  have second : OnlyHalves (s.unbind .rx ifid) ((s.unbind .rx ifid).unbind .tx ifid)
      (fun c d => s.BoundTo d ifid c) [] :=
    (State.unbind_onlyHalves _ .tx ifid).mono fun c d ⟨hd, hb⟩ => hd ▸ tx_of_s.1 hb
  obtain ⟨halves, loops, tunables, units, bytes, rest, sent⟩ :=
    (first.trans second).trans (onlySent_emit _ (answered .bus .ok)).onlyHalves
  refine ⟨_, rfl, fun c d hb => ?_, halves, loops, tunables, units, bytes, rest, sent⟩
  cases d with
  | rx => exact (State.half_unbind_of_ne rx_ne c).trans (State.half_unbind_of_bound hu hb)
  | tx =>
    have hu' := hu.of_from (bindingsFrom_unbind s .rx ifid)
    exact (State.half_unbind_of_bound hu' (tx_of_s.2 hb)).trans
      (congrArg Half.unbound (State.half_unbind_of_ne rx_ne.symm c))

/-! ## `TX_SLOT_FREE` -/

/-- Settles O52, by whether `Lookup` finds a half. -/
theorem txSlotFreeChangesNothing : Obligations.TxSlotFreeChangesNothing := by
  refine fun s ifid => ⟨fun hbound => ?_, fun hnone => ?_⟩
  · obtain ⟨c, hc⟩ := Option.isSome_iff_exists.1 (State.isSome_lookup.2 hbound)
    exact answersOnly_of_reply (by simp only [exec, execTxSlotFree, hc])
  · exact answersOnly_of_reply (by simp only [exec, execTxSlotFree, State.lookup_eq_none.2 hnone])

end Sys2Proof.Machine
end

section
/-! PROOFS. `RX_COMPLETE` (rule R133): where it ends, and what putting a unit back and reporting leaves. -/

namespace Sys2Proof.Machine

/-! ## Putting a unit back -/

/-- One more message, nothing else having changed. -/
theorem OnlySent.emit {s t : State} {l : List Out} (h : OnlySent s t l) (o : Out) :
    OnlySent s (t.emit o) (l ++ [o]) where
  halves := h.halves
  loops := h.loops
  tunables := h.tunables
  units := h.units
  bytes := fun sp k => (t.readByte_emit o sp k).trans (h.bytes sp k)
  rest := h.rest.trans (onlySent_emit t o).rest
  sent := h.sent.trans (onlySent_emit t o).sent

/-- The state whose pool has unit `u` last (rule R33, log entry 8). -/
def State.pooledLast (s : State) (u : Word) : State := { s with pool := s.pool.erase u ++ [u] }

theorem State.readByte_pooledLast (s : State) (u : Word) (sp : Space) (o : Nat) :
    (s.pooledLast u).readByte sp o = s.readByte sp o := by
  cases sp <;> rfl

theorem State.keepsRest_pooledLast (s : State) (u : Word) : KeepsRest s (s.pooledLast u) :=
  ⟨rfl, rfl, rfl, rfl, rfl, rfl⟩

theorem onlySent_put (s : State) (u : Word) : OnlySent (s.pooledLast u) (s.put u) [.put u] :=
  onlySent_emit (s.pooledLast u) (.put u)

/-- What `RX_COMPLETE` sends after a copy: `PUT`, a report of a crossed period, the answer. -/
theorem onlySent_put_report (s : State) (u : Word) (c : Nat) (crossed : Bool) (o : Out) :
    OnlySent (s.pooledLast u) ((if crossed then (s.put u).notify c .rx else s.put u).emit o)
      (.put u :: ((if crossed then [.periodElapsed c .rx] else []) ++ [o])) := by
  cases crossed with
  | true => exact ((onlySent_put s u).emit (.periodElapsed c .rx)).emit o
  | false => exact (onlySent_put s u).emit o

/-! ## Where `RX_COMPLETE` ends -/

section
variable {s s1 : State} {u : Word} {x : TransferUnit} {c : Nat} {b : Bool}

theorem exec_rxComplete_of_dead (hu : s.unitOf u = none) :
    exec (.rxComplete u) s = s.reply .bus .illegalCommand := by
  simp only [exec, execRxComplete, hu]

theorem exec_rxComplete_of_unbound (hu : s.unitOf u = some x) (hl : s.lookup .rx x.ifid = none) :
    exec (.rxComplete u) s = (s.put u).reply .bus .invalidChannel := by
  simp only [exec, execRxComplete, hu, hl]

theorem exec_rxComplete_of_stopped (hu : s.unitOf u = some x) (hl : s.lookup .rx x.ifid = some c)
    (hrun : (s.half c .rx).running = false) :
    exec (.rxComplete u) s = (s.put u).reply .bus .ok := by
  simp only [exec, execRxComplete, hu, hl, hrun, Bool.false_eq_true, if_false]

theorem exec_rxComplete_of_running (hu : s.unitOf u = some x) (hl : s.lookup .rx x.ifid = some c)
    (hrun : (s.half c .rx).running = true)
    (hk : s.copyFrames c .rx u ((s.half c .rx).frameCount x.len) = .ok (s1, b)) :
    exec (.rxComplete u) s =
      (if b then (s1.put u).notify c .rx else s1.put u).reply .bus .ok := by
  simp only [exec, execRxComplete, hu, hl, hrun, hk, if_true]

end

/-- Settles O50: the unit is looked up, then the half bound to its pair. -/
theorem rxCompletePutsUnitBack : Obligations.RxCompletePutsUnitBack := by
  intro s u
  refine ⟨fun hu => answersOnly_of_reply (exec_rxComplete_of_dead hu), fun x hu hnone => ?_,
    fun x c hunique hu hbound hrun => ?_⟩
  · exact ⟨_, exec_rxComplete_of_unbound hu (State.lookup_eq_none.2 hnone), (onlySent_put s u).emit _⟩
  · exact ⟨_, exec_rxComplete_of_stopped hu (State.lookup_of_bound hunique hbound) hrun,
      (onlySent_put s u).emit _⟩

/-- Settles O51: the copy captures and moves the positions; what is sent after it changes nothing but the
unit's place in the pool. -/
theorem rxCompleteCapturesUnit : Obligations.RxCompleteCapturesUnit := by
  intro s u x c hunique hu hbound hrun h n hp hg
  obtain ⟨s1, b, hk⟩ := State.copyFrames_ok hu hp hg
  obtain ⟨⟨hin, hout⟩, hunits, -⟩ := State.copyFrames_captured hbound.1 hg hk
  obtain ⟨hmoved, hb⟩ := State.copyFrames_moved hbound.1 hk
  have copy := State.copyFrames_frame hk
  obtain ⟨halves, loops, tunables, ⟨units, pool⟩, bytes, rest, sent⟩ :=
    onlySent_put_report s1 u c b (answered .bus .ok)
  have hread (sp : Space) (o : Nat) := (bytes sp o).trans (s1.readByte_pooledLast u sp o)
  refine ⟨_, exec_rxComplete_of_running hu (State.lookup_of_bound hunique hbound) hrun hk,
    ⟨fun j hj => (hread _ _).trans (hin j hj), fun sp o ho => (hread sp o).trans (hout sp o ho)⟩,
    (halves c .rx id).symm ▸ hmoved, fun c' d' hn => (halves c' d' id).trans (copy.halves c' d' hn),
    fun c' hn => (loops c' hn).trans (copy.loops c' hn), copy.tunables.trans tunables,
    units.trans hunits, ?_, copy.rest.trans ((s1.keepsRest_pooledLast u).trans rest), ?_⟩
  · exact pool.trans (congrArg (fun p : List Word => p.erase u ++ [u]) copy.pool)
  · have hcross : b = true ↔ h.periodFrames.toNat ≤ h.perPos.toNat + n := by
      rw [hb, Half.crosses, decide_eq_true_eq]
    simp only [← hcross]
    exact copy.sent.trans sent

end Sys2Proof.Machine
end

section
/-! PROOFS. The tunables (rules R140 to R144): what an update of a Channel that keeps its halves and its loop
leaves alone, and who writes `PPX` and `BUFSZ`. -/

namespace Sys2Proof.Machine

/-! ## Reading -/

/-- Settles O53: nothing is checked and nothing is written. -/
theorem tunablesAreRead : Obligations.TunablesAreRead :=
  fun s c _ => ⟨⟨_, rfl, onlySent_emit s (.answer (.packet .client) 0 (s.chan c).ppx)⟩,
    ⟨_, rfl, onlySent_emit s (.answer (.packet .client) 0 (s.chan c).bufsz)⟩⟩

/-! ## Replacing a Channel -/

section
variable {α : Type} {s : State} {c : Nat} {ch : Channel}

/-- Any part of every Channel after an existing one was replaced. -/
theorem State.part_setChan (f : Channel → α) (hc : c < s.nCh) (c' : Nat) :
    f ((s.setChan c ch).chan c') = if c' = c then f ch else f (s.chan c') := by
  rw [State.chan_setChan, apply_ite f]
  simp only [hc, and_true]

/-- A part that the new Channel shares with the one it replaces is kept everywhere. -/
theorem State.part_setChan_of_eq (f : Channel → α) (hf : f ch = f (s.chan c)) (c' : Nat) :
    f ((s.setChan c ch).chan c') = f (s.chan c') := by
  rw [State.chan_setChan]
  split
  · rename_i hw
    rw [hw.1, hf]
  · rfl

end

/-- Everything but the tunables is unchanged, and `l` was sent. -/
structure OnlyTunables (s t : State) (l : List Out) : Prop where
  halves : KeepsHalvesBut s t (fun _ _ => False)
  loops : KeepsLoopsBut s t (fun _ => False)
  units : KeepsUnits s t
  bytes : KeepsBytes s t
  rest : KeepsRest s t
  sent : Sent s t l

section
variable {s : State} {c : Nat} {ch : Channel}

/-- A Channel with the same halves and the same loop differs in its tunables at most. -/
theorem onlyTunables_setChan (hh : ∀ d, ch.half d = s.half c d) (hl : ch.loop = s.loop c) :
    OnlyTunables s (s.setChan c ch) [] := by
  have halves (c' : Nat) (d : Dir) : (s.setChan c ch).half c' d = s.half c' d :=
    State.part_setChan_of_eq (·.half d) (hh d) c'
  exact {
    halves := fun c' d _ => halves c' d
    loops := fun c' _ => State.part_setChan_of_eq (·.loop) hl c'
    units := ⟨rfl, rfl⟩
    bytes := fun sp o => by
      cases sp with
      | ring c' d => simp only [State.readByte, State.mem, halves]
      | unit u => rfl
    rest := ⟨s.nCh_setChan c ch, rfl, rfl, rfl, rfl, rfl⟩
    sent := (List.append_nil _).symm }

/-- One more message after a change of tunables. -/
theorem OnlyTunables.emit {t : State} {l : List Out} (h : OnlyTunables s t l) (o : Out) :
    OnlyTunables s (t.emit o) (l ++ [o]) where
  halves := h.halves
  loops := h.loops
  units := h.units
  bytes := fun sp k => (t.readByte_emit o sp k).trans (h.bytes sp k)
  rest := h.rest.trans (onlySent_emit t o).rest
  sent := h.sent.trans (onlySent_emit t o).sent

/-- A command that replaces its Channel by one with the same halves and the same loop, and answers. -/
theorem exec_onlyTunables_of_reply {i : Instr} {port : Port} {r : Result}
    (hh : ∀ d, ch.half d = s.half c d) (hl : ch.loop = s.loop c)
    (he : exec i s = (s.setChan c ch).reply port r) :
    ∃ t, exec i s = .next t ∧ OnlyTunables s t [answered port r] ∧
      ∀ c', t.chan c' = (s.setChan c ch).chan c' :=
  ⟨_, he, (onlyTunables_setChan hh hl).emit _, fun _ => rfl⟩

end

/-! ## Writing -/

/-- Settles O54: each command replaces one tunable of its Channel, which keeps its other parts. -/
theorem tunablesAreWritten : Obligations.TunablesAreWritten := by
  intro s c v hc keeps
  have keeps_of {t : State} (h : OnlyTunables s t [answered .client .ok]) : keeps t :=
    ⟨h.halves, h.loops, h.units, h.bytes, h.rest, h.sent⟩
  constructor
  · obtain ⟨t, he, only, chan⟩ := exec_onlyTunables_of_reply (i := .wrPpx c v)
      (ch := { s.chan c with ppx := v }) (fun d => by cases d <;> rfl) rfl rfl
    refine ⟨t, he, keeps_of only, fun c' => ?_, fun c' => ?_⟩ <;> rw [chan]
    · exact State.part_setChan (·.ppx) hc c'
    · exact State.part_setChan_of_eq (·.bufsz) (by rfl) c'
  · obtain ⟨t, he, only, chan⟩ := exec_onlyTunables_of_reply (i := .wrBufsz c v)
      (ch := { s.chan c with bufsz := v }) (fun d => by cases d <;> rfl) rfl rfl
    refine ⟨t, he, keeps_of only, fun c' => ?_, fun c' => ?_⟩ <;> rw [chan]
    · exact State.part_setChan (·.bufsz) hc c'
    · exact State.part_setChan_of_eq (·.ppx) (by rfl) c'

/-! ## The writers -/

/-- Two states of a Channel with the same tunables (rule R27). -/
structure Channel.SameTunables (ch ch' : Channel) : Prop where
  ppx : ch'.ppx = ch.ppx
  bufsz : ch'.bufsz = ch.bufsz

section
variable {ch ch' : Channel}

/-- Setting a half of a Channel leaves its tunables. -/
theorem Channel.SameTunables.setHalf (hs : ch.SameTunables ch') {d : Dir} {h : Half} :
    ch.SameTunables (ch'.setHalf d h) :=
  ⟨(ch'.ppx_setHalf d h).trans hs.ppx, (ch'.bufsz_setHalf d h).trans hs.bufsz⟩

/-- Setting the loop leaves the tunables. -/
theorem Channel.SameTunables.setLoop (hs : ch.SameTunables ch') {l : Loop} :
    ch.SameTunables (ch'.setLoop l) :=
  ⟨(ch'.ppx_setLoop l).trans hs.ppx, (ch'.bufsz_setLoop l).trans hs.bufsz⟩

end

/-- Every change of a Channel but the two writes is an update of its halves and its loop (rule R144). -/
theorem ChanStep.tunables {s : State} {c : Nat} {i : Instr} {ch : Channel} (h : ChanStep s c i ch) :
    (s.chan c).SameTunables ch ∨ (∃ v, i = .wrPpx c v ∧ ch = { s.chan c with ppx := v }) ∨
      ∃ v, i = .wrBufsz c v ∧ ch = { s.chan c with bufsz := v } := by
  have same : (s.chan c).SameTunables (s.chan c) := ⟨rfl, rfl⟩
  cases h with
  | wrPpx v => exact .inr (.inl ⟨v, rfl, rfl⟩)
  | wrBufsz v => exact .inr (.inr ⟨v, rfl, rfl⟩)
  | same => exact .inl same
  | opened | hwParams | hwFree | prepareUnsupported | triggerStart | triggerStop | connect | capture | copyRx
  | copyTx | convert => exact .inl same.setHalf
  | disconnect => exact .inl same.setHalf.setHalf
  | waitStop | waitAcquire | silence | submit | notify => exact .inl same.setLoop
  | prepareFailed | prepared | close | finish | fill => exact .inl same.setHalf.setLoop

/-- Settles O57, by what `ChanStep` makes of the Channel: each write leaves the other tunable. -/
theorem tunablesHaveTheirWriters : Obligations.TunablesHaveTheirWriters := by
  intro i s t c h
  rcases (exec_chan h c).tunables with same | ⟨v, hi, hch⟩ | ⟨v, hi, hch⟩
  · exact ⟨.inl same.ppx, .inl same.bufsz⟩
  · exact ⟨.inr ⟨v, hi⟩, .inl (by rw [hch])⟩
  · exact ⟨.inl (by rw [hch]), .inr ⟨v, hi⟩⟩

end Sys2Proof.Machine
end

section
/-! PROOFS. What the answers and the reports of an operation say (rules R159, R164): who sends
`PERIOD_ELAPSED`, and that an operation which answers an error and sends nothing else was rejected before it
changed anything. -/

namespace Sys2Proof.Machine

/-! ## Who reports a period -/

/-- What an instruction is seen to have sent is one of the sequences of `MessageStep`. -/
theorem exec_sent {i : Instr} {s t : State} {l : List Out} (h : exec i s = .next t) (hs : Sent s t l) :
    MessageStep s i l := by
  obtain ⟨l', ho, hm⟩ := exec_out h
  rwa [List.append_cancel_left (hs.symm.trans ho)]

/-- Of all sequences of messages, two hold a report of a period (rule R159). -/
theorem MessageStep.reporter {s : State} {i : Instr} {l : List Out} {c : Nat} {d : Dir}
    (h : MessageStep s i l) (hm : .periodElapsed c d ∈ l) :
    (d = .tx ∧ i = .slNotify c ∧ (s.loop c).phase = .notify ∧ (s.loop c).pe = true) ∨
      (d = .rx ∧ (∃ u, i = .rxComplete u) ∧ (s.half c .rx).running = true) := by
  cases h with
  | period k hp hpe =>
    obtain ⟨rfl, rfl⟩ : c = k ∧ d = .tx := by simpa using hm
    exact .inl ⟨rfl, rfl, hp, hpe⟩
  | captured u k hr =>
    obtain ⟨rfl, rfl⟩ : c = k ∧ d = .rx := by simpa using hm
    exact .inr ⟨rfl, ⟨u, rfl⟩, hr⟩
  | silent | answer | started | stopped | finished | put | acquired | submitted => simp at hm

/-- Settles O60: `MessageStep` lists everything an instruction can send. -/
theorem periodMessagesComeFromCopies : Obligations.PeriodMessagesComeFromCopies :=
  fun _ _ _ _ _ _ h ho hm => (exec_sent h ho).reporter hm

/-! ## Rejected or not -/

/-- The operation was rejected: it returned a code from the state it began in (rules R8, R164). -/
def Rejected (s t : State) : Prop := ∃ port r, s.reply port r = .next t

/-- The operation did not report an error alone: if one packet's answer is all it sent, the result is 0. -/
def NoLoneError (s t : State) : Prop :=
  ∀ port w v, Sent s t [.answer (.packet port) w v] → w = 0

section
variable {s s1 t : State} {port : Port} {r : Result} {v : Word} {l : List Out}

/-- Rejecting sends the code with value 0 and changes nothing. -/
theorem Rejected.onlySent {w : Word} (h : Rejected s t)
    (hs : Sent s t [.answer (.packet port) w v]) :
    v = 0 ∧ OnlySent s t [.answer (.packet port) w v] := by
  obtain ⟨p, r, he⟩ := h
  cases he
  have same := List.append_cancel_left hs
  rw [← same]
  simp only [List.cons.injEq, Out.answer.injEq] at same
  obtain ⟨⟨-, -, hv⟩, -⟩ := same
  exact ⟨hv.symm, onlySent_emit s _⟩

/-- Answering `OK`, whatever else changed. -/
theorem NoLoneError.of_ok (h : s1.reply port .ok v = .next t) (ho : s1.out = s.out) :
    NoLoneError s t := by
  intro p w v' hs
  cases h
  rw [Sent, State.out_emit, ho] at hs
  have same := List.append_cancel_left hs
  simp only [List.cons.injEq, Out.answer.injEq] at same
  obtain ⟨⟨-, hw, -⟩, -⟩ := same
  exact hw.symm

/-- Sending something else than the answer of one packet. -/
theorem NoLoneError.of_sent (h : Sent s t l)
    (hl : ∀ port w v, l ≠ [.answer (.packet port) w v]) : NoLoneError s t :=
  fun port w v hs => absurd (List.append_cancel_left (h.symm.trans hs)) (hl port w v)

/-- Sending nothing. -/
theorem NoLoneError.of_out (h : t.out = s.out) : NoLoneError s t :=
  .of_sent (l := []) (h.trans (List.append_nil _).symm) fun _ _ _ => nofun

/-- A check in front of the rest of an operation: where it fails, a code is returned. -/
theorem Rejected.or_of_check {P : Prop} [Decidable P] {rest : Outcome}
    (h : (if P then s.reply port r else rest) = .next t)
    (hrest : rest = .next t → Rejected s t ∨ NoLoneError s t) : Rejected s t ∨ NoLoneError s t := by
  split at h
  · exact .inl ⟨_, _, h⟩
  · exact hrest h

/-- Where a step of the core is not enabled, nothing happens (log entry 6). -/
theorem NoLoneError.of_turn {P : Prop} [Decidable P] {rest : Outcome}
    (h : (if P then .next s else rest) = .next t)
    (hrest : rest = .next t → NoLoneError s t) : NoLoneError s t := by
  split at h
  · cases h
    exact .of_out rfl
  · exact hrest h

/-! ## Operation by operation -/

theorem convertOp_rejected_or_noLoneError {sel : Codec} {dst src : MemRef} {n : Nat}
    (h : s.convertOp sel dst src n = .next t) : Rejected s t ∨ NoLoneError s t := by
  obtain ⟨-, ⟨-, rfl⟩ | hr | ⟨_, _, _, -, -, -, -, -, rfl⟩⟩ := State.convertOp_eq_next h
  · exact .inr (.of_out rfl)
  · exact .inl ⟨_, _, hr⟩
  · exact .inr (.of_out (State.out_setMem _ _ _))

theorem execConnect_rejected_or_noLoneError {ifid : IfId} {cfg : BusCfg} {args : List Byte}
    (h : execConnect ifid cfg args s = .next t) : Rejected s t ∨ NoLoneError s t := by
  unfold execConnect at h
  split at h
  · exact .inl ⟨_, _, h⟩
  · exact Rejected.or_of_check h fun h => Rejected.or_of_check h fun h =>
      Rejected.or_of_check h fun h => .inr (.of_ok h rfl)

/-- A live unit is put back before the answer, so the answer is never alone (rule R133). -/
theorem execRxComplete_rejected_or_noLoneError {u : Word} (h : execRxComplete u s = .next t) :
    Rejected s t ∨ NoLoneError s t := by
  have not_alone {l : List Out} (hs : Sent s t (.put u :: l)) : NoLoneError s t :=
    .of_sent hs fun _ _ _ => nofun
  dsimp only [execRxComplete] at h
  split at h
  · exact .inl ⟨_, _, h⟩
  refine .inr ?_
  split at h
  · cases h
    exact not_alone ((onlySent_put s u).emit _).sent
  rename_i c hc
  split at h
  · split at h
    · cases h
    · rename_i s1 crossed hk
      cases h
      have hout := State.out_copyFrames hk
      have hsent : _ = s1.out ++ _ := (onlySent_put_report s1 u c crossed (answered .bus .ok)).sent
      exact not_alone (hsent.trans (by rw [hout]))
  · cases h
    exact not_alone ((onlySent_put s u).emit _).sent

/-- The answer of the close completion answers the pending `CLOSE`, not a packet just taken (rule R69). -/
theorem execClFinish_noLoneError {c : Nat} {d : Dir} (h : execClFinish c d s = .next t) :
    NoLoneError s t := by
  refine .of_turn h fun h => ?_
  cases h
  unfold State.stopBound
  split
  · exact .of_sent (l := [.stopChannel ((s.clearStop c d).half c d).bind,
      .answer (.close c d) Result.ok.toWord 0]) (by simp [Sent]) fun _ _ _ => nofun
  · exact .of_sent (l := [.answer (.close c d) Result.ok.toWord 0]) (by simp [Sent]) fun _ _ _ => nofun

theorem execSlWait_noLoneError {c : Nat} (h : execSlWait c s = .next t) : NoLoneError s t := by
  refine .of_turn h fun h => ?_
  split at h
  · cases h
    exact .of_out rfl
  split at h
  · split at h
    · cases h
      exact .of_out rfl
    · rename_i u s1 ha
      obtain ⟨-, rfl⟩ := State.acquire_eq_some ha
      cases h
      exact .of_sent (l := [.acquire _ u]) rfl fun _ _ _ => nofun
  · cases h
    exact .of_out rfl

theorem execSlFill_noLoneError {c : Nat} (h : execSlFill c s = .next t) : NoLoneError s t := by
  refine .of_turn h fun h => ?_
  split at h
  · cases h
  split at h
  · dsimp only at h
    split at h
    · cases h
    · rename_i hk
      cases h
      exact .of_out ((State.out_zeroUnit _ _ _ _).trans (State.out_copyFrames hk))
  · cases h
    exact .of_out (State.out_zeroUnit _ _ _ _)

theorem execSlSubmit_noLoneError {c : Nat} (h : execSlSubmit c s = .next t) : NoLoneError s t := by
  refine .of_turn h fun h => ?_
  cases h
  exact .of_sent (l := [.submit _]) rfl fun _ _ _ => nofun

theorem execSlNotify_noLoneError {c : Nat} (h : execSlNotify c s = .next t) : NoLoneError s t := by
  refine .of_turn h fun h => ?_
  cases h
  split
  · exact .of_sent (l := [.periodElapsed c .tx]) rfl fun _ _ _ => nofun
  · exact .of_out rfl

/-- Every operation but `PREPARE` makes all its checks before its first write: it is rejected in the state
it began in, or reports no error alone (rule R164). -/
theorem exec_rejected_or_noLoneError {i : Instr} (h : exec i s = .next t)
    (hi : ∀ c d, i ≠ .prepare c d) :
    Rejected s t ∨ NoLoneError s t := by
  cases i with
  | prepare c d => exact absurd rfl (hi c d)
  | openHalf | triggerStart =>
    exact Rejected.or_of_check h fun h => Rejected.or_of_check h fun h => .inr (.of_ok h rfl)
  | hwParams =>
    exact Rejected.or_of_check h fun h => Rejected.or_of_check h fun h =>
      Rejected.or_of_check h fun h => .inr (.of_ok h rfl)
  | hwFree | triggerStop => exact Rejected.or_of_check h fun h => .inr (.of_ok h rfl)
  | closeHalf c d =>
    refine Rejected.or_of_check h fun h => .inr ?_
    cases h
    exact .of_out (s.out_requestStop c d)
  | pointer | rdreg | rdPpx | wrPpx | rdBufsz | wrBufsz => exact .inr (.of_ok h rfl)
  | connect => exact execConnect_rejected_or_noLoneError h
  | disconnect => exact .inr (.of_ok h (by simp))
  | rxComplete => exact execRxComplete_rejected_or_noLoneError h
  | txSlotFree =>
    simp only [exec, execTxSlotFree] at h
    split at h
    · exact .inl ⟨_, _, h⟩
    · exact .inr (.of_ok h rfl)
  | copyFrames =>
    simp only [exec, execCopyFrames] at h
    split at h
    · cases h
    · rename_i hk
      have hout := State.out_copyFrames hk
      cases h
      exact .inr (.of_out hout)
  | cvtCopy | cvtSwap16 | cvtSwap24 | cvtSwap32 => exact convertOp_rejected_or_noLoneError h
  | slWait => exact .inr (execSlWait_noLoneError h)
  | slFill => exact .inr (execSlFill_noLoneError h)
  | slSubmit => exact .inr (execSlSubmit_noLoneError h)
  | slNotify => exact .inr (execSlNotify_noLoneError h)
  | clFinish => exact .inr (execClFinish_noLoneError h)

end

/-- Settles O59: an error alone leaves only the case of a rejection. -/
theorem errorsChangeNothing : Obligations.ErrorsChangeNothing := by
  intro i s t port w v h hs hw hi
  rcases exec_rejected_or_noLoneError h hi with hr | hn
  · exact hr.onlySent hs
  · exact absurd (hn port w v hs) hw

end Sys2Proof.Machine
end

section
/-! PROOFS. Reset (rules R170, R171) and the order in which a stream ends (rules R182, R187): who sends
`STOP_CHANNEL`, and that an accepted `CLOSE` of a playback half is answered. -/

namespace Sys2Proof.Machine

/-! ## Reset -/

theorem State.half_resetWith (n : Nat) (pm : Word) (c : Nat) (d : Dir) :
    (State.resetWith n pm).half c d = Half.reset := by
  rw [State.half, State.chan_resetWith]
  cases d <;> rfl

theorem State.loop_resetWith (n : Nat) (pm : Word) (c : Nat) :
    (State.resetWith n pm).loop c = Loop.reset := by
  rw [State.loop, State.chan_resetWith]
  rfl

/-- After reset every register reads 0; the three that are the loop's in a TX half read alike in both
directions (rules R17, R171). -/
theorem State.regValue_resetWith (n : Nat) (pm : Word) (c : Nat) (d : Dir) (r : Reg) :
    (State.resetWith n pm).regValue c d r = 0 := by
  simp only [State.regValue, State.half_resetWith, State.loop_resetWith]
  cases r with
  | flags | lphase | lunit => cases d <;> rfl
  | _ => rfl

/-- Settles O9: every number names a Channel at its reset values. -/
theorem resetLeavesItsValues : Obligations.ResetLeavesItsValues := by
  intro n pm c _ s
  have hchan : s.chan c = Channel.reset := State.chan_resetWith n pm c
  refine ⟨List.length_replicate, rfl, State.regValue_resetWith n pm c, ?_, ?_, rfl, rfl⟩
  · rw [hchan]; rfl
  · rw [hchan]; rfl

/-! ## Who sends `STOP_CHANNEL` -/

/-- Of all sequences of messages, one holds a `STOP_CHANNEL`: that of a close completion whose half was
started, bound and past its loop (rules R56, R182). -/
theorem MessageStep.stopper {s : State} {i : Instr} {l : List Out} {ifid : IfId}
    (h : MessageStep s i l) (hm : .stopChannel ifid ∈ l) :
    ∃ c d, i = .clFinish c d ∧ (s.half c d).lstate = .closing ∧ (s.half c d).started = true ∧
      (s.half c d).bound = true ∧ (s.half c d).bind = ifid ∧
      (d = .tx → (s.loop c).phase = .idle) := by
  cases h with
  | stopped c d hl hp hs hb =>
    have hbind : ifid = (s.half c d).bind := by simpa using hm
    exact ⟨c, d, rfl, hl, hs, hb, hbind.symm, hp⟩
  | silent | answer | started | finished | put | captured | acquired | submitted | period => simp at hm

/-- Settles O58: `MessageStep` lists everything an instruction can send. -/
theorem stopChannelComesAfterLoop : Obligations.StopChannelComesAfterLoop :=
  fun _ _ _ _ _ h ho hm => (exec_sent h ho).stopper hm

/-! ## The loop of a closing half -/

/-- A run takes its first step and goes on from there. -/
theorem run_succ_of_step {s t : State} (h : step s = .next t) (k : Nat) :
    Sys2Proof.core.run (k + 1) s = Sys2Proof.core.run k t := by
  have hcore : Sys2Proof.core.step s = .next t := h
  simp only [Host.Core.run, hcore]

/-- The phase after `p` in a loop that was told to stop: round to `WAIT`, and there the loop ends
(rules R121 to R125). -/
def LPhase.drained : LPhase → LPhase
  | .idle => .idle
  | .wait => .idle
  | .fill => .submit
  | .submit => .notify
  | .notify => .wait

theorem LPhase.drained_ne_fill (p : LPhase) : p.drained ≠ .fill := by cases p <;> decide

/-- `FILL` is the farthest phase from the end, four turns away. -/
theorem LPhase.drained_iterate_four (p : LPhase) : drained^[4] p = .idle := by cases p <;> rfl

/-- A playback half is closing (rule R107) in a state with the invariants, and the unit its loop holds for a
fill is live (rule R181). -/
structure Draining (s : State) (c : Nat) : Prop where
  chan : c < s.nCh
  safe : s.Safe
  closing : (s.half c .tx).lstate = .closing
  held_live : (s.loop c).phase = .fill → (s.unitOf (s.loop c).lunit).isSome = true

/-- One turn of the loop of Channel `c` moves its phase towards the end and leaves the TX half and the inputs
to come. -/
structure LoopTurn (s t : State) (c : Nat) : Prop where
  half : t.half c .tx = s.half c .tx
  phase : (t.loop c).phase = (s.loop c).phase.drained
  agenda : t.agenda = s.agenda

section
variable {s t : State} {c : Nat}

/-- A closing half does not run (I1). -/
theorem Draining.not_running (hd : Draining s c) : (s.half c .tx).running = false :=
  ((hd.safe _ (s.chan_mem c hd.chan)).half .tx).running_eq_false (hd.closing ▸ by decide)

/-- The loop of a closing half was told to stop (rule R107). -/
theorem Draining.stopReq (hd : Draining s c) (hphase : (s.loop c).phase ≠ .idle) :
    (s.loop c).stopReq = true :=
  (hd.safe _ (s.chan_mem c hd.chan)).loop.closing_signalled hd.closing hphase

theorem OnlyChannel.loopTurn {lp : Loop} {l : List Out} (h : OnlyLoop s t c lp l)
    (hlp : lp.phase = (s.loop c).phase.drained) : LoopTurn s t c :=
  ⟨h.half, by rw [h.loop, hlp], h.rest.agenda⟩

/-- The step of any phase completes: the fill writes silence, since the half does not run, and the wait ends
the loop, since it was told to stop. -/
theorem Draining.exec_loopTurn (hd : Draining s c) {i : Instr} (hi : (s.loop c).phase.Selects c i) :
    ∃ t, exec i s = .next t ∧ LoopTurn s t c := by
  cases hphase : (s.loop c).phase with
  | idle => exact absurd hi (by simp [hphase, LPhase.Selects])
  | wait =>
    obtain rfl : i = .slWait c := by rwa [hphase] at hi
    obtain ⟨t, ht, only⟩ :=
      (slWaitStopsAcquiresOrBlocks s c hd.chan hphase).1 (hd.stopReq (by simp [hphase]))
    exact ⟨t, ht, only.loopTurn (by rw [hphase]; rfl)⟩
  | fill =>
    obtain rfl : i = .slFill c := by rwa [hphase] at hi
    obtain ⟨x, hx⟩ := Option.isSome_iff_exists.1 (hd.held_live hphase)
    have ended := State.fillEnded_endFill (used := 0) (cap := x.cap) (pe := false) hd.chan hx
    exact ⟨_, exec_slFill_of_stopped hphase hx hd.not_running, ended.halves c .tx id,
      by rw [ended.loop, hphase]; rfl, ended.rest.agenda⟩
  | submit =>
    obtain rfl : i = .slSubmit c := by rwa [hphase] at hi
    obtain ⟨t, ht, only⟩ := slSubmitHandsUnitBack s c hd.chan hphase
    exact ⟨t, ht, only.loopTurn (by rw [hphase]; rfl)⟩
  | notify =>
    obtain rfl : i = .slNotify c := by rwa [hphase] at hi
    obtain ⟨t, ht, only⟩ := slNotifyReportsPeriod s c hd.chan hphase
    exact ⟨t, ht, only.loopTurn (by rw [hphase]; rfl)⟩

/-- Taking an input off the agenda changes nothing a loop looks at. -/
theorem Draining.withAgenda (hd : Draining s c) (rest : List Input) :
    Draining { s with agenda := rest } c :=
  ⟨hd.chan, hd.safe, hd.closing, hd.held_live⟩

/-- A turn of the loop, existing or not, is taken and does what `LoopTurn` says. -/
theorem Draining.step_loopTurn (hd : Draining s c) {rest : List Input}
    (hs : s.agenda = .loop c :: rest) :
    ∃ t, step s = .next t ∧ LoopTurn { s with agenda := rest } t c := by
  by_cases hphase : (s.loop c).phase = .idle
  · refine ⟨_, step_loop_idle hd.chan hs (congrArg LPhase.toWord hphase), rfl, ?_, rfl⟩
    exact hphase.trans (congrArg LPhase.drained hphase).symm
  · obtain ⟨i, hdecode, hi⟩ := decode_lphase hd.chan hphase
    obtain ⟨t, ht, turn⟩ := (hd.withAgenda rest).exec_loopTurn hi
    exact ⟨t, (step_eq_exec (fetch_loop hs) hdecode).trans ht, turn⟩

/-- A loop on its way to its end comes to no fill, so that no unit has to be live. -/
theorem Draining.of_step (hd : Draining s c) {rest : List Input} (hstep : step s = .next t)
    (turn : LoopTurn { s with agenda := rest } t c) : Draining t c where
  chan := (stepKeepsChannelsAndHistory s t hstep).1 ▸ hd.chan
  safe := stepKeepsStreamsSafe s t hd.safe hstep
  closing := (congrArg Half.lstate turn.half).trans hd.closing
  held_live := fun hfill => absurd (turn.phase.symm.trans hfill) (LPhase.drained_ne_fill _)

/-- `n` turns of the loop, by induction on the turns. -/
theorem Draining.run_loopTurns {n : Nat} (hd : Draining s c) {rest : List Input}
    (hs : s.agenda = List.replicate n (.loop c) ++ rest) :
    ∃ t, (∀ k, Sys2Proof.core.run (n + k) s = Sys2Proof.core.run k t) ∧ Draining t c ∧
      t.agenda = rest ∧ (t.loop c).phase = LPhase.drained^[n] (s.loop c).phase ∧
      ∃ l, t.out = s.out ++ l := by
  induction n generalizing s with
  | zero => exact ⟨s, fun k => by rw [Nat.zero_add], hd, hs, rfl, [], (List.append_nil _).symm⟩
  | succ n ih =>
    obtain ⟨s1, hstep, turn⟩ := hd.step_loopTurn hs
    obtain ⟨-, -, l1, hl1⟩ := stepKeepsChannelsAndHistory s s1 hstep
    obtain ⟨t, hrun, hdt, hagenda, hphase, l, hl⟩ := ih (hd.of_step hstep turn) turn.agenda
    refine ⟨t, fun k => ?_, hdt, hagenda, ?_, l1 ++ l, ?_⟩
    · rw [Nat.add_right_comm, run_succ_of_step hstep, hrun]
    · rw [hphase, turn.phase]
      rfl
    · rw [hl, hl1, List.append_assoc]

end

/-- Settles O46: four turns bring any loop of the closing half to its end, and the close completion is then
enabled. -/
theorem acceptedCloseIsAnswered : Obligations.AcceptedCloseIsAnswered := by
  intro s c hc hsafe hclosing hlive
  have hd : Draining s c := ⟨hc, hsafe, hclosing, hlive⟩
  obtain ⟨s4, hrun, hd4, hagenda, hphase, l, hl⟩ :=
    (hd.withAgenda (List.replicate 4 (.loop c) ++ [.finish c .tx])).run_loopTurns rfl
  rw [LPhase.drained_iterate_four] at hphase
  obtain ⟨t, ht, only⟩ :=
    (clFinishCompletesClose { s4 with agenda := [] } c .tx hd4.chan).2 ⟨hd4.closing, .inr hphase⟩
  have hfinish : step s4 = .next t :=
    ((selectorRegistersSelectSteps.2 s4 c .tx [] hd4.chan hagenda).1
      (congrArg LState.toWord hd4.closing)).trans ht
  refine ⟨t, ?_, ?_, ?_, ?_, ?_⟩
  · exact (hrun 1).trans (run_succ_of_step hfinish 0)
  · rw [only.half]
  · rw [only.loop]; exact hphase
  · rw [only.loop]
  · have hsent : t.out = s4.out ++ _ := only.sent
    rw [hsent, hl, List.append_assoc, List.drop_left]
    simp

end Sys2Proof.Machine
end
